-- ==== Sys2Proof/Word.lean ====
section
/-! DEFINITION. The words of the i2cec bus engine and the one counter operation of spec 00 R11. -/

namespace Sys2Proof

/-- One byte: every value wider than a bit that crosses a bus is made of these (20 R60, R63). -/
abbrev Byte := BitVec 8

/-- `sat_inc_N(v)` of 00 R11: one more, but the largest value stays. -/
def satInc {n : Nat} (v : BitVec n) : BitVec n :=
  if v = BitVec.allOnes n then v else v + 1

end Sys2Proof
end

