-- ==== Sys2Proof/Config.lean ====
section
/-! DEFINITION. The implementation parameters of spec 00 R7 to R9 and the one free value of the model. -/

namespace Sys2Proof

/-- The parameters of 00 R7, each an argument of the configuration. Durations are in jiffies. Which values they may take is
`Config.Valid`: the timing values of 00 R9 vary within its constraints, and the other decided ones have the one value
that 00 R7 gives them (log 28). T_SAMPLE, START_MIN and JIFFY_CYCLES are computed from the others by the formulas of
00 R7 to R9. -/
structure Config where
  /-- F_CLK_HZ, an OPEN parameter (92 D6). -/
  fClkHz : Nat
  /-- JIFFY_US, the length of a jiffy in microseconds (92 D5). -/
  jiffyUs : Nat
  /-- I2C_ADDR, an OPEN parameter (92 D32). -/
  i2cAddr : BitVec 7
  /-- I2C_10BIT; only `false` is a valid configuration (92 D31, 93 U6). -/
  i2c10Bit : Bool
  /-- T_BIT. -/
  tBit : Nat
  /-- T_1_LOW. -/
  t1Low : Nat
  /-- T_0_LOW. -/
  t0Low : Nat
  /-- T_MID, the decision midpoint (T_1_LOW + T_0_LOW) / 2. DESIGN CHOICE (log 30): for an odd sum 00 R7 states no rounding,
  so T_MID is an argument that `Config.Valid` lets be either neighbour of the half; for an even sum it is the half. -/
  tMid : Nat
  /-- T_START_LOW. -/
  tStartLow : Nat
  /-- T_START_TOTAL. -/
  tStartTotal : Nat
  /-- T_ERR. -/
  tErr : Nat
  /-- T_TIMEOUT. -/
  tTimeout : Nat
  /-- T_FREE. -/
  tFree : Nat
  /-- TIMER_W, the width of the CEC timer in bits (92 D11). -/
  timerW : Nat
  /-- BUF_CAP, the bytes a message may have (92 D47, 93 U5). -/
  bufCap : Nat
  /-- CEC_BCAST, the broadcast and unclaimed CEC logical address (92 D15). -/
  cecBcast : BitVec 4
  /-- ID_SEQ, the identification sequence (92 D45). -/
  idSeq : List Byte
  deriving DecidableEq, Repr

/-- The identity string of 00 R3. -/
def Config.identity : String := "i2cec-engine/spec-v7"

/-- JIFFY_CYCLES = (F_CLK_HZ × JIFFY_US) / 1 000 000, the multiplication first (00 R8). -/
def Config.jiffyCycles (c : Config) : Nat := c.fClkHz * c.jiffyUs / 1000000

/-- T_SAMPLE = T_MID (00 R9, 92 D23). -/
def Config.tSample (c : Config) : Nat := c.tMid

/-- START_MIN = T_START_LOW − T_ERR (00 R7). -/
def Config.startMin (c : Config) : Nat := c.tStartLow - c.tErr

/-- The constraints of 00 R7, R8, R9 and 70 R334, with 93 U2 (a START of 3500 µs must be rejected: tested as
START_MIN × JIFFY_US > 3500 alone, whatever T_TIMEOUT is, DEDUCED, log 17), 93 U6, and
JIFFY_CYCLES in the range that the 16 bits of CEC_PRE count (10 R32, 00 R12; log 16). The parameters that 00 R9 lets no
model vary have their decided values: JIFFY_US 10, TIMER_W 16, BUF_CAP 16 (93 U5), CEC_BCAST 0xF and ID_SEQ, ASCII
"I2CEC" (00 R7; log 28). T_MID is the half of T_1_LOW + T_0_LOW, rounded either way (log 30). A step refuses any other
configuration. -/
abbrev Config.Valid (c : Config) : Prop :=
  c.jiffyUs = 10 ∧ c.timerW = 16 ∧ c.bufCap = 16 ∧ c.cecBcast = 0xF#4 ∧
  c.idSeq = [0x49#8, 0x32#8, 0x43#8, 0x45#8, 0x43#8] ∧
  c.fClkHz * c.jiffyUs % 1000000 = 0 ∧ 4 ≤ c.jiffyCycles ∧ c.jiffyCycles ≤ 65536 ∧
  8 ≤ c.i2cAddr.toNat ∧ c.i2cAddr.toNat ≤ 0x77 ∧ c.i2c10Bit = false ∧
  2 * c.tMid ≤ c.t1Low + c.t0Low + 1 ∧ c.t1Low + c.t0Low ≤ 2 * c.tMid + 1 ∧
  0 < c.t1Low ∧ c.t1Low < c.tMid ∧ c.tMid < c.t0Low ∧ c.t0Low < c.tBit ∧
  c.t0Low + c.tErr < c.startMin ∧ c.startMin < c.tStartLow ∧ c.tStartLow < c.tStartTotal ∧
  c.tStartTotal < c.tTimeout ∧ c.tBit < c.tTimeout ∧
  c.tTimeout < 2 ^ c.timerW - 1 ∧ c.tFree < 2 ^ c.timerW - 1 ∧
  3500 < c.startMin * c.jiffyUs

/-- The decided defaults of 00 R7 with the two OPEN parameters at the values of the spec's test vectors
(F_CLK_HZ = 8 000 000, I2C_ADDR = 0x2A). DESIGN CHOICE for those two (log 1): unsafe if read as the hardware's. -/
def Config.testVectors : Config where
  fClkHz := 8000000
  jiffyUs := 10
  i2cAddr := 0x2A#7
  i2c10Bit := false
  tBit := 240
  t1Low := 60
  t0Low := 150
  tMid := 105
  tStartLow := 370
  tStartTotal := 450
  tErr := 15
  tTimeout := 720
  tFree := 720
  timerW := 16
  bufCap := 16
  cecBcast := 0xF#4
  idSeq := [0x49#8, 0x32#8, 0x43#8, 0x45#8, 0x43#8]

/-- FREE VALUE (10 R40, 92 D60, 93 U14; log 4): the level the first synchroniser stage of pin number `pin`
(0 SCL, 1 SDA, 2 CEC) captures at clock edge number `edge` when the pin changes inside the set-up window. -/
opaque Config.capturedLevel : Nat → Nat → Bool

end Sys2Proof
end

