-- ==== Sys2Proof/Machine/Codes.lean ====
section
/-! DEFINITION. The command code map of spec 30 R85 and the bit fields of the formats of 30 R80 to R88. -/

namespace Sys2Proof.Machine

/-- Command code of LOAD_ID (30 R85). -/
abbrev codeLoadId : Byte := 0x00#8
/-- Command code of LOAD_ADDR (30 R85). -/
abbrev codeLoadAddr : Byte := 0x01#8
/-- Command code of LOAD_TAKEN (30 R85). -/
abbrev codeLoadTaken : Byte := 0x02#8
/-- Command code of LOAD_LENGTH (30 R85). -/
abbrev codeLoadLength : Byte := 0x03#8
/-- Command code of LOAD_BUFFER (30 R85). -/
abbrev codeLoadBuffer : Byte := 0x04#8
/-- Command code of SET_ADDR (30 R85). -/
abbrev codeSetAddr : Byte := 0x81#8
/-- Command code of STAGE (30 R85). -/
abbrev codeStage : Byte := 0x84#8
/-- Command code of CEC_SEND (30 R85). -/
abbrev codeCecSend : Byte := 0x85#8
/-- Command code of MONITOR_TOGGLE (30 R85). -/
abbrev codeMonitorToggle : Byte := 0x86#8
/-- Command code of SOFT_RESET (30 R85). -/
abbrev codeSoftReset : Byte := 0x8F#8

/-- `is_load(c)` of 44 (opening): the five load codes. -/
def isLoad (c : Byte) : Bool :=
  c == codeLoadId || c == codeLoadAddr || c == codeLoadTaken || c == codeLoadLength || c == codeLoadBuffer

/-- `is_action(c)` of 44 (opening): the five action codes. -/
def isAction (c : Byte) : Bool :=
  c == codeSetAddr || c == codeStage || c == codeCecSend || c == codeMonitorToggle || c == codeSoftReset

/-- Every other code is reserved (30 R93). -/
def isReserved (c : Byte) : Bool := !isLoad c && !isAction c

/-- The bits of a byte in wire order, most significant first (00 R13). -/
def wireBits (b : Byte) : List Bool :=
  [b.getLsbD 7, b.getLsbD 6, b.getLsbD 5, b.getLsbD 4, b.getLsbD 3, b.getLsbD 2, b.getLsbD 1, b.getLsbD 0]

/-- `v[6:0] ‖ b`, one bit shifted in from bit 0 (41 R143, 43 R203). -/
def shiftIn (v : Byte) (b : Bool) : Byte := v.extractLsb' 0 7 ++ BitVec.ofBool b

/-- Format FA (30 R81): address in bits 7:1, R in bit 0. -/
def addressByte (a : BitVec 7) (r : Bool) : Byte := a ++ BitVec.ofBool r

/-- The address field of an address byte, `byte[7:1]` (30 R81, R86). -/
def addressOf (b : Byte) : BitVec 7 := b.extractLsb' 1 7

/-- The R/W bit of an address byte, `byte[0]`, 1 = read (30 R81, R86). -/
def readBitOf (b : Byte) : Bool := b.getLsbD 0

/-- `p[3:0]`, the operand of SET_ADDR (30 R86). -/
def lowNibble (p : Byte) : BitVec 4 := p.extractLsb' 0 4

/-- Format FH (30 R88): source in bits 7:4, destination in bits 3:0. -/
def headerByte (src dst : BitVec 4) : Byte := src ++ dst

/-- The initiator's address of a header byte, `byte[7:4]` (30 R88). -/
def sourceOf (b : Byte) : BitVec 4 := b.extractLsb' 4 4

/-- The destination address of a header byte, `byte[3:0]` (30 R88). -/
def destinationOf (b : Byte) : BitVec 4 := b.extractLsb' 0 4

/-- Format FB (30 R87): `DDDDDDDDEK`, the first wire bit on the left. -/
def blockWord (d : Byte) (eom ack : Bool) : BitVec 10 := d ++ BitVec.ofBool eom ++ BitVec.ofBool ack

/-- The data byte of a block (30 R87). -/
def blockData (w : BitVec 10) : Byte := w.extractLsb' 2 8

/-- The EOM bit of a block (30 R87). -/
def blockEom (w : BitVec 10) : Bool := w.getLsbD 1

/-- The ACK bit of a block (30 R87). -/
def blockAck (w : BitVec 10) : Bool := w.getLsbD 0

/-- The ten bits of a block in wire order (30 R87). -/
def blockBits (d : Byte) (eom ack : Bool) : List Bool := wireBits d ++ [eom, ack]

end Sys2Proof.Machine
end

