-- ==== Sys2Proof/Syntax.lean ====
section
/-! DEFINITION. The instructions: one constructor for each of the 37 rows of spec/opcode_table.json. -/

namespace Sys2Proof

/-- The rows of the opcode table. What a row's operands are, and in which cycle it acts, is said in log 5 to 8. -/
inductive Instr where
  /-- LOAD_ID, command byte 0x00 (44 R245). -/
  | loadId
  /-- LOAD_ADDR, command byte 0x01 (44 R246). -/
  | loadAddr
  /-- LOAD_TAKEN, command byte 0x02 (44 R247). -/
  | loadTaken
  /-- LOAD_LENGTH, command byte 0x03 (44 R248). -/
  | loadLength
  /-- LOAD_BUFFER, command byte 0x04 (44 R249). -/
  | loadBuffer
  /-- SET_ADDR, command byte 0x81 (44 R251). `none` is the command byte itself (44 R242, R244) and `some p` its first payload
  byte, at which the action takes effect; so in the other actions. -/
  | setAddr (p : Option Byte)
  /-- STAGE, command byte 0x84, or a payload byte of it; which one it is stands in I2C_BYTENO (44 R252). -/
  | stage (p : Option Byte)
  /-- CEC_SEND, command byte 0x85, or its first payload byte (44 R253). -/
  | cecSend (p : Option Byte)
  /-- MONITOR_TOGGLE, command byte 0x86, or its first payload byte (44 R254). -/
  | monitorToggle (p : Option Byte)
  /-- SOFT_RESET, command byte 0x8F, or its first payload byte (44 R255). -/
  | softReset (p : Option Byte)
  /-- RESERVED_COMMAND, any other command byte (44 R250). -/
  | reservedCommand (c : Byte)
  /-- PAYLOAD_BYTE, a later data byte of a write transaction, under whatever command I2C_CMD holds (44 R243). -/
  | payloadByte (p : Byte)
  /-- ADDR_WRITE, the address byte with R = 0 (43 R204 to R206). -/
  | addrWrite (a : BitVec 7)
  /-- ADDR_READ, the address byte with R = 1 (43 R204, R205, R207). -/
  | addrRead (a : BitVec 7)
  /-- READ_BYTE, a byte sent to the master; `m` is the SDA level the master answers with, `false` = ACK (43 R211 to R213). -/
  | readByte (m : Bool)
  /-- I2C_START (43 R201). -/
  | i2cStart
  /-- I2C_STOP (43 R202). -/
  | i2cStop
  /-- CEC_HEADER_BLOCK received: source, destination, EOM bit, and the ACK bit the other devices drive (41 R143 to R149). -/
  | cecHeaderBlock (src dst : BitVec 4) (eom ack : Bool)
  /-- CEC_PING received: a header block with source = destination and EOM = 1 (30 R88, 41 R148). -/
  | cecPing (a : BitVec 4) (ack : Bool)
  /-- CEC_DATA_BLOCK received (41 R147). -/
  | cecDataBlock (d : Byte) (eom ack : Bool)
  /-- CEC_TX_BLOCK: a block period of a transmission; the operands are what the OTHER devices let the wire carry (42 R174 to R179). -/
  | cecTxBlock (d : Byte) (eom ack : Bool)
  /-- CEC_START_RX: a low pulse measured as a START, in IDLE (40 R113). -/
  | cecStartRx (l : BitVec 16)
  /-- CEC_START_TX: the START this block drives (40 R115, 42 R171 to R173). -/
  | cecStartTx
  /-- CEC_BIT_RX: a low pulse measured in a frame (40 R112, 41 R143). -/
  | cecBitRx (l : BitVec 16)
  /-- CEC_BIT1_TX: a 1 this block drives (40 R114, 42 R175 to R179). -/
  | cecBit1Tx
  /-- CEC_BIT0_TX: a 0 this block drives (40 R114, 42 R175 to R179). -/
  | cecBit0Tx
  /-- CEC_ACK_DRIVE: the 0 this block drives in the ACK slot of an owned block (41 R151). -/
  | cecAckDrive
  /-- READ_ID (30 R98). -/
  | readId
  /-- GET_ADDR (30 R98). -/
  | getAddr
  /-- GET_TAKEN (30 R98). -/
  | getTaken
  /-- GET_LENGTH (30 R98). -/
  | getLength
  /-- GET_BUFFER with the number of bytes the host reads (30 R98). -/
  | getBuffer (n : Nat)
  /-- SET_ADDR a (30 R98). -/
  | setAddrA (a : BitVec 4)
  /-- SEND b0 .. bn-1 (30 R98). -/
  | send (bs : List Byte)
  /-- PING a (30 R98). -/
  | pingA (a : BitVec 4)
  /-- MONITOR (30 R98). -/
  | monitor
  /-- RESET (30 R98). -/
  | reset
  deriving DecidableEq, Repr

end Sys2Proof
end

