-- ==== Sys2Proof/WellFormed.lean ====
section
/-! DEFINITION. Which operands of an instruction an encoding can carry. -/

namespace Sys2Proof

/-- An instruction is well formed when its encoding is its own: a reserved command byte is reserved (30 R93), a
header block with EOM = 1 and source = destination is a ping (30 R88), a START pulse has a START's length
(30 R90), a host reads 1 to BUF_CAP buffer bytes, stages 1 to BUF_CAP bytes (44 R252), and a one-byte SEND of a byte
with equal nibbles is a PING (30 R98). -/
def Instr.wellFormed (c : Config) : Instr → Bool
  | .loadId | .loadAddr | .loadTaken | .loadLength | .loadBuffer => true
  | .setAddr _ | .stage _ | .cecSend _ | .monitorToggle _ | .softReset _ => true
  | .reservedCommand b => Machine.isReserved b
  | .payloadByte _ | .addrWrite _ | .addrRead _ | .readByte _ | .i2cStart | .i2cStop => true
  | .cecHeaderBlock src dst eom _ => !(eom && src == dst)
  | .cecPing _ _ | .cecDataBlock _ _ _ | .cecTxBlock _ _ _ => true
  | .cecStartRx l => Nat.ble c.startMin l.toNat && Nat.blt l.toNat c.tTimeout
  | .cecStartTx | .cecBitRx _ | .cecBit1Tx | .cecBit0Tx | .cecAckDrive => true
  | .readId | .getAddr | .getTaken | .getLength => true
  | .getBuffer n => Nat.ble 1 n && Nat.ble n c.bufCap
  | .setAddrA _ => true
  | .send bs =>
    match bs with
    | [] => false
    | [b] => Machine.sourceOf b != Machine.destinationOf b
    | bs => Nat.ble bs.length c.bufCap
  | .pingA _ | .monitor | .reset => true

end Sys2Proof
end

