-- ==== Sys2Proof/Decode.lean ====
section
/-! DEFINITION. Decoding of the wire formats of spec 30, and the encoder. -/

namespace Sys2Proof

/-- One unit on the wires, tagged with the format that its position gives it (30 R80, R96): the same eight bits
mean different things as an address byte, a command byte and a payload byte. -/
inductive Token where
  /-- FT: SDA changes to this level while SCL is high; `false` is START (S or Sr), `true` is STOP (30 R92). -/
  | condition (sda : Bool)
  /-- FA: an address byte (30 R81). -/
  | fa (b : Byte)
  /-- FC: a command byte (30 R84). -/
  | fc (b : Byte)
  /-- FP: a payload byte (30 R86). -/
  | fp (b : Byte)
  /-- FR: a byte read from the block and the level M of the master's answer (30 R83). -/
  | fr (m : Bool)
  /-- FH: a header block received (30 R87, R88). -/
  | fh (w : BitVec 10)
  /-- FB: a data block received (30 R87). -/
  | fb (w : BitVec 10)
  /-- FB: a block on the wire while this block transmits (30 R87). -/
  | fbSent (w : BitVec 10)
  /-- FS: a low pulse measured in IDLE (30 R90). -/
  | pulseIdle (l : BitVec 16)
  /-- FS: a low pulse measured in a frame (30 R90). -/
  | pulseFrame (l : BitVec 16)
  /-- FS: the fall that opens bit 9 of an owned block (41 R151). -/
  | ackSlot
  /-- FS: a symbol this block sends, its low time and its whole time in jiffies (30 R91). -/
  | sent (low total : Nat)
  deriving DecidableEq, Repr

/-- Why a word is no instruction. -/
inductive DecodeError where
  /-- There is nothing to decode. -/
  | nothing
  /-- A command that takes no payload byte is followed by one (44 R243); each byte is decoded on its own. -/
  | payloadNotTaken
  /-- A low pulse shorter than a START, in IDLE: noise (30 R90). -/
  | noise
  /-- A low pulse of T_TIMEOUT or more, in IDLE: a wedged bus (30 R90). -/
  | wedgedBus
  /-- A symbol time that the block never sends (30 R91). -/
  | unknownSymbol
  /-- A transaction for another slave (30 R94). -/
  | otherSlave
  /-- A sequence of units that is no row of the table. -/
  | noInstruction
  deriving DecidableEq, Repr

/-- An address byte (30 R81): R chooses the row. -/
def decodeAddress (b : Byte) : Instr :=
  if Machine.readBitOf b then .addrRead (Machine.addressOf b) else .addrWrite (Machine.addressOf b)

/-- A command byte: each of the 256 values is one of the ten commands or reserved (30 R85, R93, R99). An action's byte is
the action without its payload byte (44 R242, R244). -/
def decodeCommand (b : Byte) : Instr :=
  if b = Machine.codeLoadId then .loadId
  else if b = Machine.codeLoadAddr then .loadAddr
  else if b = Machine.codeLoadTaken then .loadTaken
  else if b = Machine.codeLoadLength then .loadLength
  else if b = Machine.codeLoadBuffer then .loadBuffer
  else if b = Machine.codeSetAddr then .setAddr none
  else if b = Machine.codeStage then .stage none
  else if b = Machine.codeCecSend then .cecSend none
  else if b = Machine.codeMonitorToggle then .monitorToggle none
  else if b = Machine.codeSoftReset then .softReset none
  else .reservedCommand b

/-- Payload byte number `n` after command byte `cmd` (44 R243): every payload byte of STAGE, the first one of the
other actions, and otherwise the plain PAYLOAD_BYTE. -/
def decodePayload (cmd : Byte) (n : BitVec 5) (p : Byte) : Instr :=
  if cmd = Machine.codeStage then .stage (some p)
  else if n = 1#5 then
    if cmd = Machine.codeSetAddr then .setAddr (some p)
    else if cmd = Machine.codeCecSend then .cecSend (some p)
    else if cmd = Machine.codeMonitorToggle then .monitorToggle (some p)
    else if cmd = Machine.codeSoftReset then .softReset (some p)
    else .payloadByte p
  else .payloadByte p

/-- A received header block (30 R88): a header with E = 1 and S = D is a ping. -/
def decodeHeader (w : BitVec 10) : Instr :=
  let b := Machine.blockData w
  if Machine.blockEom w && Machine.sourceOf b == Machine.destinationOf b then
    .cecPing (Machine.destinationOf b) (Machine.blockAck w)
  else .cecHeaderBlock (Machine.sourceOf b) (Machine.destinationOf b) (Machine.blockEom w) (Machine.blockAck w)

/-- A symbol this block sends (30 R91), by its low time and its whole time. -/
def decodeSent (c : Config) (low total : Nat) : Except DecodeError Instr :=
  if low = c.tStartLow ∧ total = c.tStartTotal then .ok .cecStartTx
  else if low = c.t1Low ∧ total = c.tBit then .ok .cecBit1Tx
  else if low = c.t0Low ∧ total = c.tBit then .ok .cecBit0Tx
  else .error .unknownSymbol

/-- What follows the command byte in a pseudo-instruction that reads `n` bytes (30 R98):
`Sr R(x)`, the bytes, all ACKed but the last, and `P`. DESIGN CHOICE (log 31): 30 R98 lets `P S` stand for `Sr` with the
same result; the pseudo-instruction has the one spelling with `Sr` here, and `P S` is read as two transactions. -/
def readTail (c : Config) (n : Nat) : List Token :=
  .condition false :: .fa (Machine.addressByte c.i2cAddr true) ::
    (List.replicate (n - 1) (.fr false) ++ [.fr true, .condition true])

/-- What follows the staged bytes in `SEND` (30 R98): `P`, then `S W(x) 85 00 P`. -/
def sendTail (c : Config) : List Token :=
  [.condition true, .condition false, .fa (Machine.addressByte c.i2cAddr false), .fc Machine.codeCecSend, .fp 0x00#8,
    .condition true]

/-- The payload bytes a list of units begins with. -/
def leadingPayloads : List Token → List Byte
  | .fp b :: ts => b :: leadingPayloads ts
  | _ => []

/-- `SEND` of these bytes, or `PING a` when it is the one byte `a‖a` (30 R98). -/
def sendInstr : List Byte → Instr
  | [b] => if Machine.sourceOf b = Machine.destinationOf b then .pingA (Machine.destinationOf b) else .send [b]
  | bs => .send bs

/-- The units after `S W(x) cmd`, read as one of the pseudo-instructions of 30 R98, a reading one spelled with `Sr`
(log 31). -/
def decodeTransaction (c : Config) (cmd : Byte) (rest : List Token) : Except DecodeError Instr :=
  if cmd = Machine.codeLoadId then
    if rest = readTail c 5 then .ok .readId else .error .noInstruction
  else if cmd = Machine.codeLoadAddr then
    if rest = readTail c 1 then .ok .getAddr else .error .noInstruction
  else if cmd = Machine.codeLoadTaken then
    if rest = readTail c 2 then .ok .getTaken else .error .noInstruction
  else if cmd = Machine.codeLoadLength then
    if rest = readTail c 1 then .ok .getLength else .error .noInstruction
  else if cmd = Machine.codeLoadBuffer then
    let n := rest.length - 3
    if rest = readTail c n ∧ 1 ≤ n ∧ n ≤ c.bufCap then .ok (.getBuffer n) else .error .noInstruction
  else if cmd = Machine.codeSetAddr then
    match rest with
    | [.fp p, .condition true] =>
      if p.toNat < 16 then .ok (.setAddrA (Machine.lowNibble p)) else .error .noInstruction
    | _ => .error .noInstruction
  else if cmd = Machine.codeStage then
    let bs := leadingPayloads rest
    if rest = bs.map Token.fp ++ sendTail c ∧ 1 ≤ bs.length ∧ bs.length ≤ c.bufCap then .ok (sendInstr bs)
    else .error .noInstruction
  else if cmd = Machine.codeMonitorToggle then
    if rest = [.fp 0x00#8, .condition true] then .ok .monitor else .error .noInstruction
  else if cmd = Machine.codeSoftReset then
    if rest = [.fp 0x00#8, .condition true] then .ok .reset else .error .noInstruction
  else .error .noInstruction

/-- The decoder: total on every sequence of units (30 R99), rejecting by name. -/
def decode (c : Config) : List Token → Except DecodeError Instr
  | [] => .error .nothing
  | [.condition sda] => .ok (if sda then .i2cStop else .i2cStart)
  | [.fa b] => .ok (decodeAddress b)
  | [.fc b] => .ok (decodeCommand b)
  | [.fc b, .fp p] => if Machine.isAction b then .ok (decodePayload b 1#5 p) else .error .payloadNotTaken
  | [.fp p] => .ok (.payloadByte p)
  | [.fr m] => .ok (.readByte m)
  | [.fh w] => .ok (decodeHeader w)
  | [.fb w] => .ok (.cecDataBlock (Machine.blockData w) (Machine.blockEom w) (Machine.blockAck w))
  | [.fbSent w] => .ok (.cecTxBlock (Machine.blockData w) (Machine.blockEom w) (Machine.blockAck w))
  | [.pulseIdle l] =>
    if l.toNat < c.startMin then .error .noise
    else if l.toNat < c.tTimeout then .ok (.cecStartRx l)
    else .error .wedgedBus
  | [.pulseFrame l] => .ok (.cecBitRx l)
  | [.ackSlot] => .ok .cecAckDrive
  | [.sent low total] => decodeSent c low total
  | .condition false :: .fa a :: .fc cmd :: rest =>
    if a = Machine.addressByte c.i2cAddr false then decodeTransaction c cmd rest else .error .otherSlave
  | _ => .error .noInstruction

/-- The units of the pseudo-instruction `S W(x) cmd …` (30 R98). -/
def transaction (c : Config) (cmd : Byte) (rest : List Token) : List Token :=
  .condition false :: .fa (Machine.addressByte c.i2cAddr false) :: .fc cmd :: rest

/-- The units of an action: its command byte, and the payload byte if it is the row of one (30 R85, R86). -/
def actionUnits (c : Byte) : Option Byte → List Token
  | none => [.fc c]
  | some p => [.fc c, .fp p]

/-- The units of an instruction, from the formats of 30 R80 to R91 and the expansions of 30 R98. -/
def encode (c : Config) : Instr → List Token
  | .loadId => [.fc Machine.codeLoadId]
  | .loadAddr => [.fc Machine.codeLoadAddr]
  | .loadTaken => [.fc Machine.codeLoadTaken]
  | .loadLength => [.fc Machine.codeLoadLength]
  | .loadBuffer => [.fc Machine.codeLoadBuffer]
  | .setAddr p => actionUnits Machine.codeSetAddr p
  | .stage p => actionUnits Machine.codeStage p
  | .cecSend p => actionUnits Machine.codeCecSend p
  | .monitorToggle p => actionUnits Machine.codeMonitorToggle p
  | .softReset p => actionUnits Machine.codeSoftReset p
  | .reservedCommand b => [.fc b]
  | .payloadByte p => [.fp p]
  | .addrWrite a => [.fa (Machine.addressByte a false)]
  | .addrRead a => [.fa (Machine.addressByte a true)]
  | .readByte m => [.fr m]
  | .i2cStart => [.condition false]
  | .i2cStop => [.condition true]
  | .cecHeaderBlock src dst eom ack => [.fh (Machine.blockWord (Machine.headerByte src dst) eom ack)]
  | .cecPing a ack => [.fh (Machine.blockWord (Machine.headerByte a a) true ack)]
  | .cecDataBlock d eom ack => [.fb (Machine.blockWord d eom ack)]
  | .cecTxBlock d eom ack => [.fbSent (Machine.blockWord d eom ack)]
  | .cecStartRx l => [.pulseIdle l]
  | .cecStartTx => [.sent c.tStartLow c.tStartTotal]
  | .cecBitRx l => [.pulseFrame l]
  | .cecBit1Tx => [.sent c.t1Low c.tBit]
  | .cecBit0Tx => [.sent c.t0Low c.tBit]
  | .cecAckDrive => [.ackSlot]
  | .readId => transaction c Machine.codeLoadId (readTail c 5)
  | .getAddr => transaction c Machine.codeLoadAddr (readTail c 1)
  | .getTaken => transaction c Machine.codeLoadTaken (readTail c 2)
  | .getLength => transaction c Machine.codeLoadLength (readTail c 1)
  | .getBuffer n => transaction c Machine.codeLoadBuffer (readTail c n)
  | .setAddrA a => transaction c Machine.codeSetAddr [.fp (0#4 ++ a), .condition true]
  | .send bs => transaction c Machine.codeStage (bs.map Token.fp ++ sendTail c)
  | .pingA a => transaction c Machine.codeStage (.fp (Machine.headerByte a a) :: sendTail c)
  | .monitor => transaction c Machine.codeMonitorToggle [.fp 0x00#8, .condition true]
  | .reset => transaction c Machine.codeSoftReset [.fp 0x00#8, .condition true]

/-- The units of a table word. A row of 8 bits is read as the first data byte of a write transaction (format FC),
an action code with the operand byte 0x00 after it; a longer row is read as a received header block (format FH).
The table has 8-bit rows of other formats too, which no bit tells apart from a command byte (30 R96; log 9). -/
def tableTokens (nbits w : Nat) : List Token :=
  if nbits ≤ 8 then
    let b := BitVec.ofNat 8 w
    if Machine.isAction b then [.fc b, .fp 0x00#8] else [.fc b]
  else [.fh (BitVec.ofNat 10 w)]

/-- The instruction the decoder reads from a table word (log 9). -/
def decodeTableWord (nbits w : Nat) : Option Instr :=
  match decode Config.testVectors (tableTokens nbits w) with
  | .ok i => some i
  | .error _ => none

end Sys2Proof
end

