-- ==== Sys2Proof/Machine/State.lean ====
section
/-! DEFINITION. The state of the block: every register of spec 10, the configuration, and the model's own fields. -/

namespace Sys2Proof.Machine

/-- BUF or TX_BUF as (index, byte) pairs, indices strictly rising and no byte 0x00 listed: an index that is not
listed reads 0x00, the reset contents the spec gives both arrays (10 R23, R34; log 18). -/
abbrev Memory := List Host.Cell

/-- READ_SEL (10 R29). The encodings 6 and 7 are never written. -/
inductive ReadSel where
  | none | id | addr | taken | length | buffer | unused6 | unused7
  deriving DecidableEq, Repr

/-- CEC_STATE (10 R33). The encodings 5 to 7 are unused. -/
inductive CecState where
  | idle | rxWho | rxData | txStart | txBit | unused5 | unused6 | unused7
  deriving DecidableEq, Repr

/-- I2C_STATE (10 R35). The encodings 9 to 15 are unused. -/
inductive I2cState where
  | idle | addr | addrAck | wrData | wrAck | rdData | rdAck | rdAcked | ignore
  | unused9 | unused10 | unused11 | unused12 | unused13 | unused14 | unused15
  deriving DecidableEq, Repr

/-- The shared state of 10 section 3. -/
structure Shared where
  /-- BUF, the SharedBuffer (10 R23). -/
  buf : Memory
  /-- LENGTH (10 R24). -/
  length : BitVec 5
  /-- CEC_ADDR (10 R25). -/
  cecAddr : BitVec 4
  /-- TAKEN, the TakenAddressVector (10 R26). -/
  taken : BitVec 16
  /-- MONITOR (10 R27). -/
  monitor : Bool
  deriving DecidableEq, Repr

/-- The host-interface registers of 10 section 4. -/
structure Window where
  /-- READ_SEL (10 R29). -/
  readSel : ReadSel
  /-- READ_LEN (10 R30). -/
  readLen : BitVec 5
  /-- WR_IDX (10 R31). -/
  wrIdx : BitVec 5
  deriving DecidableEq, Repr

/-- The jiffy timer (10 R32). -/
structure Timer where
  /-- CEC_T, jiffies since the last clear, saturating. -/
  t : BitVec 16
  /-- CEC_PRE, clock cycles within the jiffy. -/
  pre : BitVec 16
  deriving DecidableEq, Repr

/-- The CEC engine's registers (10 R33, R34). -/
structure CecRegs where
  /-- CEC_STATE. -/
  state : CecState
  /-- CEC_BIT, the bit index within the block: 0 to 7 data, 8 EOM, 9 ACK. -/
  bit : BitVec 4
  /-- CEC_BLK, the block index within the frame. -/
  blk : BitVec 5
  /-- CEC_SHIFT. -/
  shift : Byte
  /-- CEC_EOM. -/
  eom : Bool
  /-- CEC_LASTBIT. -/
  lastbit : Bool
  /-- CEC_KEEP: the current received frame is recorded, and BUF is CEC-owned (45 R280). -/
  keep : Bool
  /-- CEC_OWN: the current received frame must be ACKed. -/
  own : Bool
  /-- CEC_ACKPEND. -/
  ackpend : Bool
  /-- CEC_ACKDRV. -/
  ackdrv : Bool
  /-- CEC_OE, the output cec_oe (10 R20). -/
  oe : Bool
  deriving DecidableEq, Repr

/-- The transmit registers (10 R34). -/
structure TxRegs where
  /-- TX_PENDING. -/
  pending : Bool
  /-- TX_BUF, the private snapshot of BUF. -/
  buf : Memory
  /-- TX_LEN, the snapshot of LENGTH. -/
  len : BitVec 5
  /-- TX_BCAST. -/
  bcast : Bool
  /-- TX_V, the value of the bit being sent. -/
  v : Bool
  /-- RETRY_COUNT. -/
  retry : BitVec 8
  deriving DecidableEq, Repr

/-- The I2C engine's registers (10 R35, R36). -/
structure I2cRegs where
  /-- I2C_STATE. -/
  state : I2cState
  /-- I2C_BITCNT. -/
  bitcnt : BitVec 4
  /-- I2C_SHIFT. -/
  shift : Byte
  /-- I2C_RW, 1 = read. -/
  rw : Bool
  /-- I2C_ACCEPT, 1 = ACK. -/
  accept : Bool
  /-- I2C_CMD. -/
  cmd : Byte
  /-- I2C_BYTENO, saturating at 31. -/
  byteno : BitVec 5
  /-- I2C_RDPTR, saturating at 31. -/
  rdptr : BitVec 5
  /-- I2C_TXBYTE. -/
  txbyte : Byte
  /-- SDA_OE, the output sda_oe (10 R20). -/
  sdaOe : Bool
  deriving DecidableEq, Repr

/-- The synchroniser of one input pin (10 R40); `true` is a high line (00 R14). -/
structure Sync where
  /-- P_S1, the first stage. -/
  s1 : Bool
  /-- P_S2, the second stage: the synchronised level. -/
  s2 : Bool
  /-- P_P, the synchronised level of the last cycle. -/
  p : Bool
  deriving DecidableEq, Repr

/-- The three synchronisers (10 R40). -/
structure Syncs where
  scl : Sync
  sda : Sync
  cec : Sync
  deriving DecidableEq, Repr

/-- What the devices other than this block do to a wire at a clock edge (70 R338; log 3). -/
inductive Line where
  /-- Some other device pulls the wire low. -/
  | pulled
  /-- No other device pulls it: the pull-up holds it high unless this block pulls it. -/
  | released
  /-- The pin changes inside the set-up window of this edge: either level may be captured (10 R40), low alone once this
  block's own pull has been captured (70 R338). -/
  | changing
  deriving DecidableEq, Repr

/-- The input ports at one clock edge (10 R20). -/
structure PinSample where
  /-- rst_n. -/
  rstN : Bool
  /-- The SCL wire, which this block never drives. -/
  scl : Line
  /-- The SDA wire. -/
  sda : Line
  /-- The CEC wire. -/
  cec : Line
  deriving DecidableEq, Repr

/-- The error events of 60 R300, each with its info. They change no register and no port. -/
inductive Event where
  /-- Code 1, with block and bit index (41 R150). -/
  | timeout (blk : BitVec 5) (bit : BitVec 4)
  /-- Code 2, with block and bit index (42 R177). -/
  | arbLost (blk : BitVec 5) (bit : BitVec 4)
  /-- Code 3, with the destination nibble (41 R145). -/
  | addrMismatch (dst : BitVec 4)
  /-- Code 4, with the block index (41 R147). -/
  | overrun (blk : BitVec 5)
  /-- Code 5, with the block index (42 R179). -/
  | noAck (blk : BitVec 5)
  /-- Code 6, with the command byte (44 R242, R243). -/
  | badCmd (c : Byte)
  /-- Code 7, with the command byte (44 R252, R253). -/
  | busy (c : Byte)
  deriving DecidableEq, Repr

/-- The model's own fields: the environment's coming input and the traces. None is a register of the block. -/
structure Env where
  /-- The pin samples of the coming clock edges, the next one first (log 2). -/
  pins : List PinSample
  /-- The number of clock edges so far, the index of the free values (log 4). -/
  edges : Nat
  /-- The event trace of 00 R11, oldest first (log 11). -/
  events : List Event
  /-- The bytes loaded for the I2C master to read, oldest first (log 12). -/
  readTrace : List Byte
  deriving DecidableEq, Repr

/-- The whole state. `cfg` is the configuration, which no step changes (log 1). -/
structure State where
  cfg : Config
  shared : Shared
  win : Window
  timer : Timer
  cec : CecRegs
  tx : TxRegs
  i2c : I2cRegs
  sync : Syncs
  env : Env
  deriving DecidableEq, Repr

/-- Why a step stops with a fault. Each is raised only in states that no rule reaches from reset; safe. -/
inductive Fault where
  /-- CEC_STATE holds an unused encoding (93 U11). Raised by a step; safe. -/
  | unusedCecState
  /-- I2C_STATE holds an unused encoding (93 U11). Raised by a step; safe. -/
  | unusedI2cState
  /-- READ_SEL holds an unused encoding and a byte inside the window is read (93 U11). Raised by the read window; safe. -/
  | unusedReadSel
  /-- An index outside BUF or TX_BUF (20 R60). Raised by the read window and the transmitter; safe. -/
  | bufferIndex
  /-- An index outside ID_SEQ (20 R61). Raised by the read window; safe. -/
  | idIndex
  /-- A bit index outside I2C_TXBYTE (43 R211). Raised by READ_BYTE; safe. -/
  | readBitIndex
  deriving DecidableEq, Repr

/-- Why a step is refused. -/
inductive Refusal where
  /-- No meaning is written for the instruction. Raised by exec's arms only; safe. -/
  | notModelled (mnemonic : String)
  /-- The configuration breaks 00 R7 to R9 (70 R334: a model refuses it). Raised by a step; safe. -/
  | invalidConfiguration
  deriving DecidableEq, Repr

/-- The reset state of a machine with configuration `c` (70 R330, 10 R42). -/
def State.resetWith (c : Config) : State where
  cfg := c
  shared := { buf := [], length := 0#5, cecAddr := 0xF#4, taken := 0x0000#16, monitor := false }
  win := { readSel := .none, readLen := 0#5, wrIdx := 0#5 }
  timer := { t := 0#16, pre := 0#16 }
  cec :=
    { state := .idle, bit := 0#4, blk := 0#5, shift := 0#8, eom := false, lastbit := false, keep := false,
      own := false, ackpend := false, ackdrv := false, oe := false }
  tx := { pending := false, buf := [], len := 0#5, bcast := false, v := false, retry := 0#8 }
  i2c :=
    { state := .idle, bitcnt := 0#4, shift := 0#8, rw := false, accept := false, cmd := 0#8, byteno := 0#5,
      rdptr := 0#5, txbyte := 0#8, sdaOe := false }
  sync :=
    { scl := { s1 := true, s2 := true, p := true }
      sda := { s1 := true, s2 := true, p := true }
      cec := { s1 := true, s2 := true, p := true } }
  env := { pins := [], edges := 0, events := [], readTrace := [] }

/-- The machine right after reset, with the test vectors' configuration (log 1). -/
def State.reset : State := State.resetWith Config.testVectors

end Sys2Proof.Machine
end

