-- ==== Sys2Proof/Machine/Ops.lean ====
section
/-! DEFINITION. The shared operations over memory, registers, pins, timer and events.

Every operation that a rule performs reads the registers as they stood at the start of the cycle, `pre`, and
writes into the state being built, `acc` (00 R10, 45 R278). A later write to the same register wins, so the
order in which a cycle applies its operations is the write priority of 45 R279. -/

namespace Sys2Proof.Machine

/-- What a meaning or a step answers. -/
abbrev Result := Host.Outcome State Fault Refusal

/-- Go on from a next state; a fault or a refusal stays. -/
def andThen (r : Result) (f : State → Result) : Result :=
  match r with
  | .next s => f s
  | .fault x => .fault x
  | .refused x => .refused x

/-- Feed a list of inputs one after another. -/
def feed {α : Type} (f : α → State → Result) : List α → State → Result
  | [], s => .next s
  | a :: rest, s => andThen (f a s) (feed f rest)

/-- The next state, if the answer is one. -/
def nextState (r : Result) : Option State :=
  match r with
  | .next s => some s
  | _ => none

/-! ### Memory (20 R60) -/

/-- The places of BUF[0..15] and of TX_BUF[0..15] (10 R23, R34): the arrays' own size, whatever BUF_CAP a configuration
that is not valid gives. -/
def bufSize : Nat := 16

/-- What an index that is not listed reads as: the reset contents of BUF and TX_BUF (10 R23, R34). -/
def unlistedByte : Byte := 0x00#8

/-- The byte at an index. -/
def readMem : Memory → Nat → Byte
  | [], _ => unlistedByte
  | (b, w) :: rest, a => if a = b then w else readMem rest a

/-- Store a byte at an index, keeping the canonical form. -/
def writeMem : Memory → Nat → Byte → Memory
  | [], a, v => if v = unlistedByte then [] else [(a, v)]
  | (b, w) :: rest, a, v =>
    if a < b then (if v = unlistedByte then (b, w) :: rest else (a, v) :: (b, w) :: rest)
    else if a = b then (if v = unlistedByte then rest else (a, v) :: rest)
    else (b, w) :: writeMem rest a v

/-- The canonical form: indices inside the array, strictly rising, and no byte equal to the unlisted one. -/
def Memory.wf : Memory → Bool
  | [] => true
  | (a, v) :: rest => Nat.blt a bufSize && v != unlistedByte && rest.all (fun c => Nat.blt a c.1) && Memory.wf rest

/-- `BufRead(i)` (20 R60); the four-bit index cannot leave the buffer. -/
def bufRead (s : State) (i : BitVec 4) : Byte := readMem s.shared.buf i.toNat

/-- `BufWrite(i, v)` (20 R60); the four-bit index cannot leave the buffer. BUF is one register of 45 R279: the write is made
on the pre-state's BUF, so that of two writes in one cycle the later one alone stands, whatever their indices (70 R340;
log 25). -/
def bufWrite (i : BitVec 4) (v : Byte) (pre acc : State) : State :=
  { acc with shared := { acc.shared with buf := writeMem pre.shared.buf i.toNat v } }

/-! ### Errors (60 R300, R301)

The block has no trap: no vector, no saved register, no return. What an error shares with every other is that it
appends an event to the model's trace; its state change is that of its own rule. -/

/-- `emit E(info)` (00 R11). -/
def emit (e : Event) (acc : State) : State :=
  { acc with env := { acc.env with events := acc.env.events ++ [e] } }

/-! ### Edge detector (45 R270 to R272) -/

/-- `rise(X)` (45 R270). -/
def Sync.rise (x : Sync) : Bool := !x.p && x.s2

/-- `fall(X)` (45 R270). -/
def Sync.fall (x : Sync) : Bool := x.p && !x.s2

/-- The one I2C strobe of a cycle (43 R200, 45 R276); an SCL rise carries the data level SDA_S2. -/
inductive I2cStrobe where
  | start
  | stop
  | rise (sda : Bool)
  | fall
  deriving DecidableEq, Repr

/-- I2C_START (45 R271). -/
def i2cStartStrobe (s : State) : Bool := s.sync.scl.p && s.sync.scl.s2 && s.sync.sda.fall

/-- I2C_STOP (45 R272). -/
def i2cStopStrobe (s : State) : Bool := s.sync.scl.p && s.sync.scl.s2 && s.sync.sda.rise

/-- The I2C strobe of this cycle, tested in the order of 43 R200. -/
def i2cStrobe (s : State) : Option I2cStrobe :=
  if i2cStartStrobe s then some .start
  else if i2cStopStrobe s then some .stop
  else if s.sync.scl.rise then some (.rise s.sync.sda.s2)
  else if s.sync.scl.fall then some .fall
  else none

/-! ### Timer (40 R110, 45 R273 to R275) -/

/-- CEC_PRE = JIFFY_CYCLES − 1. -/
def jiffyEnds (s : State) : Bool := s.timer.pre.toNat + 1 == s.cfg.jiffyCycles

/-- `reach(n)` (45 R274). -/
def reach (s : State) (n : Nat) : Bool := jiffyEnds s && s.timer.t.toNat + 1 == n

/-- The timer one cycle on, when nothing clears it (40 R110). -/
def tickTimer (s : State) : Timer :=
  if jiffyEnds s then { t := satInc s.timer.t, pre := 0#16 } else { s.timer with pre := s.timer.pre + 1 }

/-- A clear request (45 R275): it wins over a tick of the same cycle (40 R110). -/
def clearTimer (acc : State) : State := { acc with timer := { t := 0#16, pre := 0#16 } }

/-- The state just before the cycle of `reach(n)`, after quiet cycles that only run the timer. The meanings of
the block rows skip time with it (log 7); the step never does. -/
def waitReach (n : Nat) (s : State) : State :=
  { s with timer := { t := BitVec.ofNat 16 (n - 1), pre := BitVec.ofNat 16 (s.cfg.jiffyCycles - 1) } }

/-! ### Pins and synchronisers (10 R20, R40) -/

/-- The level a first synchroniser stage captures from a wire: low when anyone pulls it, this block included (00 R14,
70 R338); free when the pin is changing (10 R40). `last` is the level the stage holds now. Once the block's own pull has
been captured low the wire has settled, and stays low for as long as the block pulls it, whatever the other devices do
(70 R338, 93 U16; log 3). -/
def captured (l : Line) (oe last free : Bool) : Bool :=
  match l with
  | .pulled => false
  | .released => !oe
  | .changing => !(oe && !last) && free

/-- One shift of a synchroniser (10 R40). -/
def Sync.shift (x : Sync) (pin : Bool) : Sync := { s1 := pin, s2 := x.s1, p := x.s2 }

/-- A clock edge at which no other device drives a wire and rst_n is high (log 2). -/
def idleSample : PinSample := { rstN := true, scl := .released, sda := .released, cec := .released }

/-- The input ports at this clock edge: the next queued sample, or an idle one (log 2). -/
def currentSample (s : State) : PinSample := s.env.pins.headD idleSample

/-- The synchronisers one cycle on (10 R40). The block never drives SCL (10 R20). -/
def shiftSyncs (s : State) : Syncs where
  scl := s.sync.scl.shift (captured (currentSample s).scl false s.sync.scl.s1 (Config.capturedLevel s.env.edges 0))
  sda := s.sync.sda.shift (captured (currentSample s).sda s.i2c.sdaOe s.sync.sda.s1 (Config.capturedLevel s.env.edges 1))
  cec := s.sync.cec.shift (captured (currentSample s).cec s.cec.oe s.sync.cec.s1 (Config.capturedLevel s.env.edges 2))

/-- The environment one clock edge on: the sample is used up. -/
def nextEnv (s : State) : Env := { s.env with pins := s.env.pins.tail, edges := s.env.edges + 1 }

/-- What every cycle does whatever the engines do: the timer runs (40 R110), the synchronisers shift (10 R40). -/
def background (s : State) : State :=
  { s with timer := tickTimer s, sync := shiftSyncs s, env := nextEnv s }

/-! ### Reset (70 R330, 44 R255) -/

/-- The post-state of a cycle with rst_n low (70 R330): every register at its reset value. The configuration is no
register, and the model's traces go on (log 11). -/
def hardReset (s : State) : State := { State.resetWith s.cfg with env := nextEnv s }

/-- SOFT_RESET's writes (44 R255): every register at its reset value except the I2C engine's and the synchronisers. -/
def softResetRegisters (acc : State) : State :=
  { State.resetWith acc.cfg with i2c := acc.i2c, sync := acc.sync, env := acc.env }

end Sys2Proof.Machine
end

