-- ==== Sys2Proof/Machine/Operands.lean ====
section
/-! DEFINITION. The values the rules compute from registers: the read window and the bits of a transmission. -/

namespace Sys2Proof.Machine

/-- `ReadOut(p)` (44 R241). Outside the window the byte is 0xFF. Inside it, an index its source does not have and an
unused READ_SEL fault (log 13, 14). -/
def readOut (s : State) (p : BitVec 5) : Except Fault Byte :=
  if s.win.readLen.toNat ≤ p.toNat then .ok 0xFF#8
  else
    match s.win.readSel with
    | .none => .ok 0xFF#8
    | .id =>
      match s.cfg.idSeq[p.toNat]? with
      | some b => .ok b
      | none => .error .idIndex
    | .addr => .ok (s.shared.cecAddr.setWidth 8)
    | .taken => .ok (if p = 0#5 then s.shared.taken.extractLsb' 0 8 else s.shared.taken.extractLsb' 8 8)
    | .length => .ok (s.shared.length.setWidth 8)
    | .buffer => if p.toNat < s.cfg.bufCap then .ok (bufRead s (p.setWidth 4)) else .error .bufferIndex
    | .unused6 | .unused7 => .error .unusedReadSel

/-- `v(k, j)`, the value of bit `j` of block `k` of the transmission (42 R174). Only a data bit reads TX_BUF. -/
def txBitValue (s : State) (k j : Nat) : Except Fault Bool :=
  if j ≤ 7 then
    if k < s.cfg.bufCap then .ok ((readMem s.tx.buf k).getLsbD (7 - j)) else .error .bufferIndex
  else if j = 8 then .ok (k + 1 == s.tx.len.toNat)
  else .ok true

/-- The header byte of the transmission, TX_BUF[0] (42 R172, R178). -/
def txHeader (s : State) : Byte := readMem s.tx.buf 0

/-- `TAKEN | (1 << a)` (20 R70). -/
def orTaken (taken : BitVec 16) (a : BitVec 4) : BitVec 16 := taken ||| (1#16 <<< a.toNat)

/-- A measured low time that is a START: START_MIN ≤ L < T_TIMEOUT (40 R113). -/
def isStartPulse (c : Config) (l : BitVec 16) : Bool := Nat.ble c.startMin l.toNat && Nat.blt l.toNat c.tTimeout

/-- The bit a low pulse stands for: 1 when it measures less than T_MID (40 R112; its rounding: log 30). -/
def classify (c : Config) (l : BitVec 16) : Bool := Nat.blt l.toNat c.tMid

/-- `tx_go` (42 R171): IDLE, a transmission pending, the line high, no edge, and the bus free for T_FREE. -/
def txGo (s : State) : Bool :=
  s.cec.state == .idle && s.tx.pending && s.sync.cec.s2 && !s.sync.cec.rise && !s.sync.cec.fall &&
    Nat.ble s.cfg.tFree s.timer.t.toNat

/-- The kind of frame a header starts, by its destination (41 R145): broadcast first, then own address, then monitor. -/
def isBroadcast (c : Config) (dst : BitVec 4) : Bool := dst == c.cecBcast

/-- `own` of 41 R145. -/
def isOwned (s : State) (dst : BitVec 4) : Bool := !isBroadcast s.cfg dst && dst == s.shared.cecAddr

/-- `keep` of 41 R145. -/
def isKept (s : State) (dst : BitVec 4) : Bool := isBroadcast s.cfg dst || isOwned s dst || s.shared.monitor

end Sys2Proof.Machine
end

