-- ==== Sys2Proof/Machine/CecRx.lean ====
section
/-! DEFINITION. The CEC bit-timing engine's reading side and the receive half of the frame state machine (spec 40, 41). -/

namespace Sys2Proof.Machine

/-- `frame_init()` (41 R142). -/
def frameInit (acc : State) : State :=
  { acc with
    cec := { acc.cec with
      state := .rxWho, bit := 0#4, blk := 0#5, shift := 0#8, eom := false, keep := false, own := false,
      ackpend := false, ackdrv := false } }

/-- CEC_START_RX (40 R113, 41 R141, R142): the rise that ends a low pulse measured `l` in IDLE. -/
def applyCecStartRx (l : BitVec 16) (pre acc : State) : Result :=
  match pre.cec.state with
  | .idle =>
    if isStartPulse pre.cfg l then .next (clearTimer (frameInit acc)) else .next (clearTimer acc)
  | _ => .next acc

/-! ### Blocks -/

/-- `header_store(byte, own)` (41 R146). -/
def headerStore (byte : Byte) (own : Bool) (pre acc : State) : State :=
  let t := bufWrite 0#4 byte pre acc
  { t with
    shared := { t.shared with length := 1#5 }
    cec := { t.cec with keep := true, own := own, ackpend := own, bit := 8#4 } }

/-- `header(byte)` (41 R144, R145): the source is recorded; the frame is kept or abandoned by its destination. -/
def headerDecide (byte : Byte) (pre acc : State) : State :=
  let t := { acc with shared := { acc.shared with taken := orTaken pre.shared.taken (sourceOf byte) } }
  let d := destinationOf byte
  if isKept pre d then headerStore byte (isOwned pre d) pre t
  else emit (.addrMismatch d) { t with cec := { t.cec with state := .idle } }

/-- `data_block(byte)` (41 R147): stored while BUF has a place, else the frame ends in an overrun. -/
def dataBlock (byte : Byte) (pre acc : State) : State :=
  if pre.cec.blk.toNat < pre.cfg.bufCap then
    let t := bufWrite (pre.cec.blk.setWidth 4) byte pre acc
    { t with
      shared := { t.shared with length := pre.cec.blk + 1 }
      cec := { t.cec with ackpend := pre.cec.own, bit := 8#4 } }
  else
    emit (.overrun pre.cec.blk)
      { acc with cec := { acc.cec with state := .idle, keep := false, own := false, ackpend := false } }

/-- `ping_check(b)` (41 R148). -/
def pingCheck (b : Bool) (pre acc : State) : State :=
  if pre.cec.state == .rxWho && b && destinationOf pre.cec.shift == pre.shared.cecAddr then
    { acc with shared := { acc.shared with taken := orTaken pre.shared.taken pre.shared.cecAddr } }
  else acc

/-- `block_end()` (41 R149). -/
def blockEnd (pre acc : State) : State :=
  if pre.cec.eom then { acc with cec := { acc.cec with state := .idle, keep := false, own := false } }
  else { acc with cec := { acc.cec with state := .rxData, blk := pre.cec.blk + 1, bit := 0#4 } }

/-- One received bit `b` by its place CEC_BIT in the block (41 R140, R143). -/
def receiveBit (b : Bool) (pre acc : State) : State :=
  let byte := shiftIn pre.cec.shift b
  if pre.cec.bit.toNat < 7 then
    { acc with cec := { acc.cec with shift := byte, bit := pre.cec.bit + 1 } }
  else if pre.cec.bit = 7#4 then
    let t := { acc with cec := { acc.cec with shift := byte } }
    if pre.cec.state == .rxWho then headerDecide byte pre t else dataBlock byte pre t
  else if pre.cec.bit = 8#4 then
    pingCheck b pre { acc with cec := { acc.cec with eom := b, bit := 9#4 } }
  else if pre.cec.bit = 9#4 then blockEnd pre acc
  else acc

/-- CEC_BIT_RX (40 R112, 41 R143): the rise that ends a low pulse measured `l` in a frame; every edge in a frame
clears the timer (45 R275). -/
def applyCecBitRx (l : BitVec 16) (pre acc : State) : Result :=
  match pre.cec.state with
  | .rxWho | .rxData =>
    let b := classify pre.cfg l
    .next (receiveBit b pre (clearTimer { acc with cec := { acc.cec with lastbit := b } }))
  | _ => .next acc

/-! ### ACK and abort -/

/-- `ack_drive_start()` (41 R151); the falling edge clears the timer (41 R152). -/
def ackDriveStart (acc : State) : State :=
  clearTimer { acc with cec := { acc.cec with oe := true, ackdrv := true, ackpend := false } }

/-- `ack_drive_end()` (41 R151). -/
def ackDriveEnd (acc : State) : State := { acc with cec := { acc.cec with oe := false, ackdrv := false } }

/-- The fall that opens bit 9 of an owned block (41 R151). -/
def opensAck (s : State) : Bool := s.cec.bit == 9#4 && s.cec.ackpend

/-- The end of the ACK drive (41 R151). -/
def endsAck (s : State) : Bool := s.cec.ackdrv && reach s s.cfg.t0Low

/-- 41 R151 with the falling edge given. -/
def ackDrive (falls : Bool) (pre acc : State) : Result :=
  match pre.cec.state with
  | .rxWho | .rxData =>
    if falls && opensAck pre then .next (ackDriveStart acc)
    else if endsAck pre then .next (ackDriveEnd acc)
    else .next acc
  | _ => .next acc

/-- CEC_ACK_DRIVE (41 R151). The row acts in two cycles: the fall that opens the ACK bit, and reach(T_0_LOW) (log 6). -/
def applyCecAckDrive (pre acc : State) : Result := ackDrive pre.sync.cec.fall pre acc

/-- `cec_timeout` (40 R116), for a cycle with no edge. -/
def timedOut (s : State) : Bool := Nat.ble s.cfg.tTimeout s.timer.t.toNat

/-- `timeout_abort()` (41 R150). The timer is not cleared. -/
def timeoutAbort (pre acc : State) : State :=
  emit (.timeout pre.cec.blk pre.cec.bit)
    { acc with
      cec := { acc.cec with
        state := .idle, keep := false, own := false, ackpend := false, ackdrv := false, oe := false } }

/-! ### The meanings -/

/-- CEC_START_RX. -/
def execCecStartRx (l : BitVec 16) (s : State) : Result := applyCecStartRx l s s

/-- CEC_BIT_RX. -/
def execCecBitRx (l : BitVec 16) (s : State) : Result := applyCecBitRx l s s

/-- CEC_ACK_DRIVE. -/
def execCecAckDrive (s : State) : Result := applyCecAckDrive s s

end Sys2Proof.Machine
end

