-- ==== Sys2Proof/Machine/CecTx.lean ====
section
/-! DEFINITION. The CEC bit-timing engine's writing side and the transmit half of the frame state machine (spec 40, 42). -/

namespace Sys2Proof.Machine

/-- `attempt_init()` (42 R172). -/
def attemptInit (pre acc : State) : State :=
  clearTimer { acc with
    cec := { acc.cec with state := .txStart, oe := true, bit := 0#4, blk := 0#5 }
    tx := { acc.tx with bcast := isBroadcast pre.cfg (destinationOf (txHeader pre)) }
    shared := { acc.shared with length := pre.tx.len } }

/-- The block releases the line (40 R114, R115). -/
def releaseCec (acc : State) : State := { acc with cec := { acc.cec with oe := false } }

/-- Bit `j` of block `k` starts (42 R173, R175): the line is pulled, the timer cleared, TX_V set. -/
def startTxBit (k j : Nat) (pre acc : State) : Result :=
  match txBitValue pre k j with
  | .ok v =>
    .next (clearTimer { acc with
      cec := { acc.cec with state := .txBit, bit := BitVec.ofNat 4 j, blk := BitVec.ofNat 5 k, oe := true }
      tx := { acc.tx with v := v } })
  | .error f => .fault f

/-- `first_bit()` (42 R173). -/
def firstBit (pre acc : State) : Result := startTxBit 0 0 pre acc

/-- `next_bit()` (42 R175). -/
def nextBit (pre acc : State) : Result :=
  if pre.cec.bit.toNat < 9 then startTxBit pre.cec.blk.toNat (pre.cec.bit.toNat + 1) pre acc
  else startTxBit (pre.cec.blk.toNat + 1) 0 pre acc

/-- `arb_lost()` (42 R177). -/
def arbLost (pre acc : State) : State :=
  emit (.arbLost pre.cec.blk pre.cec.bit) (clearTimer { acc with
    cec := { acc.cec with oe := false, state := .idle, bit := 0#4, blk := 0#5 }
    shared := { acc.shared with length := pre.tx.len }
    tx := { acc.tx with retry := satInc pre.tx.retry } })

/-- `arb_check()` (42 R176) for a bit of value `v`, with the synchronised line. -/
def arbCheck (v line : Bool) (pre acc : State) : State := if line != v then arbLost pre acc else acc

/-- `ack_fail()` (42 R179). -/
def ackFail (pre acc : State) : State :=
  emit (.noAck pre.cec.blk) (clearTimer { acc with
    cec := { acc.cec with oe := false, state := .idle, bit := 0#4, blk := 0#5 }
    tx := { acc.tx with pending := false } })

/-- The good ACK of 42 R178: low for one follower, high for a broadcast. -/
def ackGood (line : Bool) (s : State) : Bool := if s.tx.bcast then line else !line

/-- The writes of a good ACK other than the end of the transmission (42 R178). -/
def ackCount (pre acc : State) : State :=
  { acc with
    shared := { acc.shared with
      length := pre.tx.len - (pre.cec.blk + 1)
      taken :=
        if pre.cec.blk == 0#5 && !pre.tx.bcast then orTaken pre.shared.taken (destinationOf (txHeader pre))
        else acc.shared.taken } }

/-- The end of a transmission whose every block is ACKed (42 R178). -/
def txDone (acc : State) : State :=
  clearTimer { acc with
    cec := { acc.cec with state := .idle, bit := 0#4, blk := 0#5 }
    tx := { acc.tx with pending := false } }

/-- `ack_check()` (42 R178, R179). -/
def ackCheck (line : Bool) (pre acc : State) : State :=
  if ackGood line pre then
    if pre.cec.blk = pre.tx.len - 1 then txDone (ackCount pre acc) else ackCount pre acc
  else ackFail pre acc

/-- One cycle of a bit of value `v` (42 R170): the release at the bit's low time, the read-back at T_SAMPLE, the end at T_BIT.
At most one of the three acts in a cycle. DEDUCED (log 6): `v` is the row's own value, 1 in CEC_BIT1_TX and 0 in
CEC_BIT0_TX, also where TX_V, which the pseudocode of 40 R114 and 42 R176 tests, holds the other one; the step presents the
row that TX_V names, so in a step the two are the same. -/
def txBitCycle (v line : Bool) (pre acc : State) : Result :=
  match pre.cec.state with
  | .txBit =>
    if reach pre (if v then pre.cfg.t1Low else pre.cfg.t0Low) then .next (releaseCec acc)
    else if reach pre pre.cfg.tSample then
      .next (if pre.cec.bit.toNat ≤ 8 then arbCheck v line pre acc else ackCheck line pre acc)
    else if reach pre pre.cfg.tBit then nextBit pre acc
    else .next acc
  | _ => .next acc

/-- CEC_START_TX (40 R115, 42 R171 to R173). The row acts in three cycles: the start of the attempt in IDLE, the
release at reach(T_START_LOW), and the first bit at reach(T_START_TOTAL) (log 6). -/
def applyCecStartTx (pre acc : State) : Result :=
  match pre.cec.state with
  | .idle => if txGo pre then .next (attemptInit pre acc) else .next acc
  | .txStart =>
    if reach pre pre.cfg.tStartLow then .next (releaseCec acc)
    else if reach pre pre.cfg.tStartTotal then firstBit pre acc
    else .next acc
  | _ => .next acc

/-- CEC_BIT1_TX (40 R114): a cycle of a bit sent as 1, whatever TX_V holds (log 6), the line read as CEC_S2. -/
def applyCecBit1Tx (pre acc : State) : Result := txBitCycle true pre.sync.cec.s2 pre acc

/-- CEC_BIT0_TX (40 R114): a cycle of a bit sent as 0, whatever TX_V holds (log 6), the line read as CEC_S2. -/
def applyCecBit0Tx (pre acc : State) : Result := txBitCycle false pre.sync.cec.s2 pre acc

/-! ### The meanings -/

/-- CEC_START_TX. -/
def execCecStartTx (s : State) : Result := applyCecStartTx s s

/-- CEC_BIT1_TX. -/
def execCecBit1Tx (s : State) : Result := applyCecBit1Tx s s

/-- CEC_BIT0_TX. -/
def execCecBit0Tx (s : State) : Result := applyCecBit0Tx s s

end Sys2Proof.Machine
end

