-- ==== Sys2Proof/Machine/I2c.lean ====
section
/-! DEFINITION. The I2C bit and frame engine (spec 43): conditions, address bytes, read bytes, ACK cycles. -/

namespace Sys2Proof.Machine

/-! ### Conditions -/

/-- `start()` (43 R201). -/
def i2cStartCondition (acc : State) : State :=
  { acc with i2c := { acc.i2c with state := .addr, bitcnt := 0#4, shift := 0#8, sdaOe := false } }

/-- `stop()` (43 R202), in every state: a STOP in IGNORE enters IDLE, as the rule's first sentence and its pseudocode have it,
against its corner case, by which a STOP in IGNORE changes nothing (DEDUCED, log 24). -/
def i2cStopCondition (acc : State) : State :=
  { acc with i2c := { acc.i2c with state := .idle, sdaOe := false } }

/-- I2C_START (43 R201), in any state of the engine. -/
def applyI2cStart (_pre acc : State) : Result := .next (i2cStartCondition acc)

/-- I2C_STOP (43 R202), in any state of the engine. -/
def applyI2cStop (_pre acc : State) : Result := .next (i2cStopCondition acc)

/-! ### Receiving bits -/

/-- `sample()` (43 R203). -/
def sampleBit (sda : Bool) (pre acc : State) : State :=
  { acc with i2c := { acc.i2c with shift := shiftIn pre.i2c.shift sda, bitcnt := pre.i2c.bitcnt + 1 } }

/-- `sample()` on the 8th bit of a byte (43 R203): I2C_SHIFT holds the byte. -/
def byteArrives (b : Byte) (pre acc : State) : State :=
  { acc with i2c := { acc.i2c with shift := b, bitcnt := pre.i2c.bitcnt + 1 } }

/-! ### Address bytes -/

/-- `addr_decide()` with the 8th `sample()` (43 R203, R204). The address byte of another slave's transaction is recorded too,
as these rules have it, against the example of 43 R214, by which only the synchronisers change, and so is the address byte
of a read transaction, against the list of 20 R65, which leaves out I2C_SHIFT, I2C_RW and I2C_ACCEPT (DEDUCED, log 24). -/
def addressDecide (a : BitVec 7) (r : Bool) (pre acc : State) : State :=
  let t := byteArrives (addressByte a r) pre acc
  { t with i2c := { t.i2c with rw := r, accept := a == pre.cfg.i2cAddr } }

/-- `addr_ack()` (43 R205). -/
def addressAck (pre acc : State) : State :=
  if pre.i2c.accept then
    { acc with i2c := { acc.i2c with bitcnt := 0#4, sdaOe := true, state := .addrAck } }
  else { acc with i2c := { acc.i2c with bitcnt := 0#4, state := .ignore } }

/-- `to_write()` (43 R206). -/
def toWrite (acc : State) : State :=
  { acc with i2c := { acc.i2c with sdaOe := false, state := .wrData, bitcnt := 0#4, byteno := 0#5 } }

/-- What `to_read()` and `next_read()` share (43 R207, R213): the byte `x` is loaded, its bit 7 is driven, and the
model's read trace records it (log 12). -/
def startReadByte (x : Byte) (acc : State) : State :=
  { acc with
    i2c := { acc.i2c with txbyte := x, bitcnt := 0#4, sdaOe := !x.getLsbD 7, state := .rdData }
    env := { acc.env with readTrace := acc.env.readTrace ++ [x] } }

/-- `to_read()` (43 R207). -/
def toRead (pre acc : State) : Result :=
  match readOut pre 0#5 with
  | .ok x =>
    let t := startReadByte x acc
    .next { t with i2c := { t.i2c with rdptr := 0#5 } }
  | .error f => .fault f

/-- The two cycles of an address byte in ADDR: the 8th rise, with seven bits in (43 R204), and the fall after it (43 R205).
At any other count of bits the byte is in neither of them, and nothing changes (log 6). -/
def addressCycle (a : BitVec 7) (r : Bool) (pre acc : State) : State :=
  if pre.i2c.bitcnt = 7#4 then addressDecide a r pre acc
  else if pre.i2c.bitcnt = 8#4 then addressAck pre acc
  else acc

/-- ADDR_WRITE. The row acts in three cycles: the 8th rise (43 R204) and the fall after it (43 R205) in ADDR, and the fall
that ends the ACK clock in ADDR_ACK (43 R206). In any other state of the engine an address byte is in none of its cycles
and changes nothing (DEDUCED, log 6). -/
def applyAddrWrite (a : BitVec 7) (pre acc : State) : Result :=
  match pre.i2c.state with
  | .addr => .next (addressCycle a false pre acc)
  | .addrAck => .next (toWrite acc)
  | _ => .next acc

/-- ADDR_READ. The row acts in three cycles: the 8th rise (43 R204) and the fall after it (43 R205) in ADDR, and the fall
that ends the ACK clock in ADDR_ACK (43 R207). In any other state of the engine an address byte is in none of its cycles
and changes nothing (DEDUCED, log 6). -/
def applyAddrRead (a : BitVec 7) (pre acc : State) : Result :=
  match pre.i2c.state with
  | .addr => .next (addressCycle a true pre acc)
  | .addrAck => toRead pre acc
  | _ => .next acc

/-! ### Read bytes -/

/-- `read_clock()` (43 R211). -/
def readClock (pre acc : State) : Result :=
  if pre.i2c.bitcnt = 7#4 then
    .next { acc with
      i2c := { acc.i2c with sdaOe := false, state := .rdAck, bitcnt := 0#4, rdptr := satInc pre.i2c.rdptr } }
  else if pre.i2c.bitcnt.toNat < 7 then
    .next { acc with
      i2c := { acc.i2c with
        bitcnt := pre.i2c.bitcnt + 1, sdaOe := !pre.i2c.txbyte.getLsbD (6 - pre.i2c.bitcnt.toNat) } }
  else .fault .readBitIndex

/-- `master_ack()` (43 R212): a low line is the master's ACK. -/
def masterAck (sda : Bool) (acc : State) : State :=
  { acc with i2c := { acc.i2c with state := if sda then .ignore else .rdAcked } }

/-- `next_read()` (43 R213). -/
def nextRead (pre acc : State) : Result :=
  match readOut pre pre.i2c.rdptr with
  | .ok x => .next (startReadByte x acc)
  | .error f => .fault f

/-- READ_BYTE. The row acts in ten cycles, one for each I2C_STATE of 43 R217: the load of a next byte in RD_ACKED
(43 R213), the falls that end its bit clocks in RD_DATA (43 R211), and the rise in RD_ACK at which the master's
answer `m` is sampled (43 R212). The first byte of a read is loaded by ADDR_READ (43 R207; log 6). -/
def applyReadByte (m : Bool) (pre acc : State) : Result :=
  match pre.i2c.state with
  | .rdAcked => nextRead pre acc
  | .rdData => readClock pre acc
  | .rdAck => .next (masterAck m acc)
  | _ => .next acc

/-! ### ACK cycles of written bytes -/

/-- `data_ack()` (43 R209). -/
def dataAck (pre acc : State) : State :=
  if pre.i2c.accept then
    { acc with i2c := { acc.i2c with bitcnt := 0#4, sdaOe := true, state := .wrAck } }
  else { acc with i2c := { acc.i2c with bitcnt := 0#4, state := .ignore } }

/-- `ack_end()` (43 R210). -/
def ackEnd (acc : State) : State :=
  { acc with i2c := { acc.i2c with sdaOe := false, state := .wrData, bitcnt := 0#4 } }

/-! ### The meanings -/

/-- I2C_START. -/
def execI2cStart (s : State) : Result := applyI2cStart s s

/-- I2C_STOP. -/
def execI2cStop (s : State) : Result := applyI2cStop s s

/-- ADDR_WRITE. -/
def execAddrWrite (a : BitVec 7) (s : State) : Result := applyAddrWrite a s s

/-- ADDR_READ. -/
def execAddrRead (a : BitVec 7) (s : State) : Result := applyAddrRead a s s

/-- READ_BYTE. -/
def execReadByte (m : Bool) (s : State) : Result := applyReadByte m s s

end Sys2Proof.Machine
end

