-- ==== Sys2Proof/Machine/HostCommands.lean ====
section
/-! DEFINITION. The host command dispatcher (spec 44). -/

namespace Sys2Proof.Machine

/-- `byte_done()` with the 8th `sample()` (43 R203, R208), less the dispatcher's own effects. -/
def dataByteArrives (b : Byte) (pre acc : State) : State :=
  let t := byteArrives b pre acc
  { t with i2c := { t.i2c with byteno := satInc pre.i2c.byteno } }

/-- The ACK or NAK the dispatcher decides (44 R242, R243). -/
def setAccept (ok : Bool) (acc : State) : State := { acc with i2c := { acc.i2c with accept := ok } }

/-- `I2C_CMD <- c` (44 R242). -/
def setCommand (c : Byte) (acc : State) : State := { acc with i2c := { acc.i2c with cmd := c } }

/-! ### Command bytes -/

/-- A load command (44 R242, R245 to R249): the window is set and the byte is ACKed. -/
def loadCommand (c : Byte) (sel : ReadSel) (len : BitVec 5) (pre acc : State) : State :=
  let t := setAccept true (setCommand c (dataByteArrives c pre acc))
  { t with win := { t.win with readSel := sel, readLen := len } }

/-- LOAD_ID (44 R245). -/
def applyLoadId (pre acc : State) : Result := .next (loadCommand codeLoadId .id 5#5 pre acc)

/-- LOAD_ADDR (44 R246). -/
def applyLoadAddr (pre acc : State) : Result := .next (loadCommand codeLoadAddr .addr 1#5 pre acc)

/-- LOAD_TAKEN (44 R247). -/
def applyLoadTaken (pre acc : State) : Result := .next (loadCommand codeLoadTaken .taken 2#5 pre acc)

/-- LOAD_LENGTH (44 R248). -/
def applyLoadLength (pre acc : State) : Result := .next (loadCommand codeLoadLength .length 1#5 pre acc)

/-- LOAD_BUFFER (44 R249): the window is as long as LENGTH is now. -/
def applyLoadBuffer (pre acc : State) : Result :=
  .next (loadCommand codeLoadBuffer .buffer pre.shared.length pre acc)

/-- RESERVED_COMMAND (44 R242, R250): NAK, no shared state changed. -/
def applyReservedCommand (c : Byte) (pre acc : State) : Result :=
  .next (emit (.badCmd c) (setAccept false (setCommand c (dataByteArrives c pre acc))))

/-- The command byte of an action (44 R242, R244): ACKed, and no effect yet. -/
def actionCommandByte (c : Byte) (pre acc : State) : State :=
  setAccept true (setCommand c (dataByteArrives c pre acc))

/-- An action's row: its command byte, or the payload byte at which `effect` says what happens (44 R242, R243). -/
def applyAction (c : Byte) (effect : Byte → State → State → Result) (p : Option Byte) (pre acc : State) : Result :=
  match p with
  | none => .next (actionCommandByte c pre acc)
  | some b => effect b pre acc

/-! ### Payload bytes -/

/-- A payload byte that is NAKed with BAD_CMD (44 R243). -/
def refusePayload (p : Byte) (pre acc : State) : State :=
  emit (.badCmd pre.i2c.cmd) (setAccept false (dataByteArrives p pre acc))

/-- SET_ADDR's payload byte 1 (44 R251). -/
def setAddrPayload (p : Byte) (pre acc : State) : Result :=
  let t := setAccept true (dataByteArrives p pre acc)
  .next { t with shared := { t.shared with cecAddr := lowNibble p } }

/-- `n` is the number of a payload byte that BUF has a place for: 1 ≤ n ≤ BUF_CAP (44 R252). -/
def stageFits (c : Config) (n : BitVec 5) : Bool := Nat.ble 1 n.toNat && Nat.ble n.toNat c.bufCap

/-- STAGE's payload byte (44 R252) number I2C_BYTENO, refused while the receiver owns the buffer or when it has no
place in it. -/
def stagePayload (p : Byte) (pre acc : State) : Result :=
  let n := pre.i2c.byteno
  let t := dataByteArrives p pre acc
  if !pre.cec.keep && stageFits pre.cfg n then
    let u := setAccept true (bufWrite ((n - 1).setWidth 4) p pre t)
    .next { u with shared := { u.shared with length := n }, win := { u.win with wrIdx := n } }
  else .next (emit (.busy codeStage) (setAccept false t))

/-- CEC_SEND is refused: TX_PENDING = 1, CEC_KEEP = 1 or LENGTH = 0 (44 R253). -/
def sendRefused (s : State) : Bool := s.tx.pending || s.cec.keep || s.shared.length == 0#5

/-- CEC_SEND's payload byte 1 (44 R253): the snapshot of BUF and LENGTH, or a refusal. -/
def cecSendPayload (p : Byte) (pre acc : State) : Result :=
  let t := dataByteArrives p pre acc
  if sendRefused pre then .next (emit (.busy codeCecSend) (setAccept false t))
  else
    let u := setAccept true t
    .next { u with
      tx := { u.tx with buf := pre.shared.buf, len := pre.shared.length, pending := true, retry := 0#8 } }

/-- MONITOR_TOGGLE's payload byte 1 (44 R254). -/
def monitorTogglePayload (p : Byte) (pre acc : State) : Result :=
  let t := setAccept true (dataByteArrives p pre acc)
  .next { t with shared := { t.shared with monitor := !pre.shared.monitor } }

/-- SOFT_RESET's payload byte 1 (44 R255). -/
def softResetPayload (p : Byte) (pre acc : State) : Result :=
  .next (setAccept true (dataByteArrives p pre (softResetRegisters acc)))

/-- PAYLOAD_BYTE (44 R243): what a payload byte does under the command I2C_CMD, at position I2C_BYTENO. -/
def applyPayloadByte (p : Byte) (pre acc : State) : Result :=
  if pre.i2c.cmd = codeStage then stagePayload p pre acc
  else if pre.i2c.byteno = 1#5 then
    if pre.i2c.cmd = codeSetAddr then setAddrPayload p pre acc
    else if pre.i2c.cmd = codeCecSend then cecSendPayload p pre acc
    else if pre.i2c.cmd = codeMonitorToggle then monitorTogglePayload p pre acc
    else if pre.i2c.cmd = codeSoftReset then softResetPayload p pre acc
    else .next (refusePayload p pre acc)
  else .next (refusePayload p pre acc)

/-! ### The rows of the actions -/

/-- SET_ADDR (44 R242, R251). -/
def applySetAddr (p : Option Byte) (pre acc : State) : Result := applyAction codeSetAddr setAddrPayload p pre acc

/-- STAGE (44 R242, R252). -/
def applyStage (p : Option Byte) (pre acc : State) : Result := applyAction codeStage stagePayload p pre acc

/-- CEC_SEND (44 R242, R253). -/
def applyCecSend (p : Option Byte) (pre acc : State) : Result := applyAction codeCecSend cecSendPayload p pre acc

/-- MONITOR_TOGGLE (44 R242, R254). -/
def applyMonitorToggle (p : Option Byte) (pre acc : State) : Result := applyAction codeMonitorToggle monitorTogglePayload p pre acc

/-- SOFT_RESET (44 R242, R255). -/
def applySoftReset (p : Option Byte) (pre acc : State) : Result := applyAction codeSoftReset softResetPayload p pre acc

/-! ### The meanings -/

/-- LOAD_ID. -/
def execLoadId (s : State) : Result := applyLoadId s s

/-- LOAD_ADDR. -/
def execLoadAddr (s : State) : Result := applyLoadAddr s s

/-- LOAD_TAKEN. -/
def execLoadTaken (s : State) : Result := applyLoadTaken s s

/-- LOAD_LENGTH. -/
def execLoadLength (s : State) : Result := applyLoadLength s s

/-- LOAD_BUFFER. -/
def execLoadBuffer (s : State) : Result := applyLoadBuffer s s

/-- SET_ADDR: its command byte, or a payload byte of it. -/
def execSetAddr (p : Option Byte) (s : State) : Result := applySetAddr p s s

/-- STAGE: its command byte, or a payload byte of it. -/
def execStage (p : Option Byte) (s : State) : Result := applyStage p s s

/-- CEC_SEND: its command byte, or a payload byte of it. -/
def execCecSend (p : Option Byte) (s : State) : Result := applyCecSend p s s

/-- MONITOR_TOGGLE: its command byte, or a payload byte of it. -/
def execMonitorToggle (p : Option Byte) (s : State) : Result := applyMonitorToggle p s s

/-- SOFT_RESET: its command byte, or a payload byte of it. -/
def execSoftReset (p : Option Byte) (s : State) : Result := applySoftReset p s s

/-- RESERVED_COMMAND. -/
def execReservedCommand (c : Byte) (s : State) : Result := applyReservedCommand c s s

/-- PAYLOAD_BYTE. -/
def execPayloadByte (p : Byte) (s : State) : Result := applyPayloadByte p s s

end Sys2Proof.Machine
end

