-- ==== Sys2Proof/Machine/Engines.lean ====
section
/-! DEFINITION. The two engines of a cycle: which instruction a bus presents, what it does, and how the two merge
(spec 41 R140, 42 R170, 43 R200, 45 R277 to R287). -/

namespace Sys2Proof.Machine

/-! ### The I2C engine (43 R200) -/

/-- The instruction that the I2C strobe of this cycle presents, decoded by the formats of spec 30. The fall in ADDR_ACK
presents the address byte, as the step of 43 R200 and 43 R206, R207 have it, against the sentence of 43 R214 (log 24). -/
def fetchI2cOn (st : I2cStrobe) (s : State) : Option Instr :=
  match st with
  | .start => some .i2cStart
  | .stop => some .i2cStop
  | .rise sda =>
    match s.i2c.state with
    | .addr => if s.i2c.bitcnt = 7#4 then some (decodeAddress (shiftIn s.i2c.shift sda)) else none
    | .wrData =>
      if s.i2c.bitcnt = 7#4 then
        some (if s.i2c.byteno = 0#5 then decodeCommand (shiftIn s.i2c.shift sda)
          else decodePayload s.i2c.cmd s.i2c.byteno (shiftIn s.i2c.shift sda))
      else none
    | .rdAck => some (.readByte sda)
    | _ => none
  | .fall =>
    match s.i2c.state with
    | .addr => if s.i2c.bitcnt = 8#4 then some (decodeAddress s.i2c.shift) else none
    | .addrAck => some (if s.i2c.rw then .addrRead (addressOf s.i2c.shift) else .addrWrite (addressOf s.i2c.shift))
    | .rdData | .rdAcked => some (.readByte false)
    | _ => none

/-- What an instruction presented on the I2C bus does in this cycle. The rows of the CEC bus and the
pseudo-instructions are never presented here. -/
def applyI2c (i : Instr) (pre acc : State) : Result :=
  match i with
  | .loadId => applyLoadId pre acc
  | .loadAddr => applyLoadAddr pre acc
  | .loadTaken => applyLoadTaken pre acc
  | .loadLength => applyLoadLength pre acc
  | .loadBuffer => applyLoadBuffer pre acc
  | .setAddr p => applySetAddr p pre acc
  | .stage p => applyStage p pre acc
  | .cecSend p => applyCecSend p pre acc
  | .monitorToggle p => applyMonitorToggle p pre acc
  | .softReset p => applySoftReset p pre acc
  | .reservedCommand c => applyReservedCommand c pre acc
  | .payloadByte p => applyPayloadByte p pre acc
  | .addrWrite a => applyAddrWrite a pre acc
  | .addrRead a => applyAddrRead a pre acc
  | .readByte m => applyReadByte m pre acc
  | .i2cStart => applyI2cStart pre acc
  | .i2cStop => applyI2cStop pre acc
  | .cecHeaderBlock _ _ _ _ | .cecPing _ _ | .cecDataBlock _ _ _ | .cecTxBlock _ _ _ => .next acc
  | .cecStartRx _ | .cecStartTx | .cecBitRx _ | .cecBit1Tx | .cecBit0Tx | .cecAckDrive => .next acc
  | .readId | .getAddr | .getTaken | .getLength | .getBuffer _ | .setAddrA _ | .send _ | .pingA _ => .next acc
  | .monitor | .reset => .next acc

/-- An I2C strobe that presents no instruction: a bit of an unfinished byte (43 R203), the ACK cycles of a
written byte (43 R209, R210), and the quiet cases of 43 R214. The fall in WR_ACK is
`ack_end()`, as the step of 43 R200 and 43 R210 have it, against the sentence of 43 R214 (log 24). -/
def betweenI2c (st : I2cStrobe) (pre acc : State) : State :=
  match st with
  | .start | .stop => acc
  | .rise sda =>
    match pre.i2c.state with
    | .addr | .wrData => sampleBit sda pre acc
    | _ => acc
  | .fall =>
    match pre.i2c.state with
    | .wrData => if pre.i2c.bitcnt = 8#4 then dataAck pre acc else acc
    | .wrAck => ackEnd acc
    | _ => acc

/-- The I2C engine's cycle with a given strobe. -/
def i2cOn (st : I2cStrobe) (pre acc : State) : Result :=
  match fetchI2cOn st pre with
  | some i => applyI2c i pre acc
  | none => .next (betweenI2c st pre acc)

/-- The instruction the I2C bus presents in this cycle. -/
def fetchI2c (s : State) : Option Instr :=
  match i2cStrobe s with
  | some st => fetchI2cOn st s
  | none => none

/-- The I2C engine's cycle: it changes state only with a strobe (43 R200). -/
def i2cEngine (pre acc : State) : Result :=
  match i2cStrobe pre with
  | some st => i2cOn st pre acc
  | none => .next acc

/-! ### The CEC engine (41 R140, 42 R170) -/

/-- A falling edge of CEC (41 R141, R151, R152): in IDLE and in a frame it clears the timer, and at bit 9 of an owned
block it starts the ACK drive; in a transmission it does nothing (40 R117). -/
def cecFall (pre acc : State) : Result :=
  match pre.cec.state with
  | .idle => .next (clearTimer acc)
  | .rxWho | .rxData => if opensAck pre then ackDrive true pre acc else .next (clearTimer acc)
  | _ => .next acc

/-- A rising edge of CEC that ends a low pulse measured `l`: START detection in IDLE, a bit in a frame, nothing in a
transmission (40 R112, R113, R117). -/
def cecRise (l : BitVec 16) (pre acc : State) : Result :=
  match pre.cec.state with
  | .idle => applyCecStartRx l pre acc
  | .rxWho | .rxData => applyCecBitRx l pre acc
  | _ => .next acc

/-- The instruction the CEC engine executes in this cycle. -/
def fetchCec (s : State) : Option Instr :=
  match s.cec.state with
  | .idle =>
    if s.sync.cec.rise then (if isStartPulse s.cfg s.timer.t then some (.cecStartRx s.timer.t) else none)
    else if txGo s then some .cecStartTx
    else none
  | .rxWho | .rxData =>
    if s.sync.cec.rise then some (.cecBitRx s.timer.t)
    else if s.sync.cec.fall then (if opensAck s then some .cecAckDrive else none)
    else if endsAck s then some .cecAckDrive
    else none
  | .txStart => some .cecStartTx
  | .txBit => some (if s.tx.v then .cecBit1Tx else .cecBit0Tx)
  | .unused5 | .unused6 | .unused7 => none

/-- What an instruction of the CEC engine does in this cycle. The rows of the I2C bus, the ten-bit blocks and the
pseudo-instructions are never executed here at once. -/
def applyCec (i : Instr) (pre acc : State) : Result :=
  match i with
  | .cecStartRx l => applyCecStartRx l pre acc
  | .cecStartTx => applyCecStartTx pre acc
  | .cecBitRx l => applyCecBitRx l pre acc
  | .cecBit1Tx => applyCecBit1Tx pre acc
  | .cecBit0Tx => applyCecBit0Tx pre acc
  | .cecAckDrive => applyCecAckDrive pre acc
  | .loadId | .loadAddr | .loadTaken | .loadLength | .loadBuffer => .next acc
  | .setAddr _ | .stage _ | .cecSend _ | .monitorToggle _ | .softReset _ => .next acc
  | .reservedCommand _ | .payloadByte _ | .addrWrite _ | .addrRead _ | .readByte _ | .i2cStart | .i2cStop => .next acc
  | .cecHeaderBlock _ _ _ _ | .cecPing _ _ | .cecDataBlock _ _ _ | .cecTxBlock _ _ _ => .next acc
  | .readId | .getAddr | .getTaken | .getLength | .getBuffer _ | .setAddrA _ | .send _ | .pingA _ => .next acc
  | .monitor | .reset => .next acc

/-- A cycle in which the CEC engine executes no instruction: an edge in IDLE or a fall in a frame clears the timer
(45 R275), a missing edge aborts the frame (40 R116, 41 R150), and else nothing happens. -/
def betweenCec (pre acc : State) : State :=
  match pre.cec.state with
  | .idle => if pre.sync.cec.rise || pre.sync.cec.fall then clearTimer acc else acc
  | .rxWho | .rxData =>
    if pre.sync.cec.fall then clearTimer acc else if timedOut pre then timeoutAbort pre acc else acc
  | _ => acc

/-- The CEC engine's cycle. -/
def cecEngine (pre acc : State) : Result :=
  match fetchCec pre with
  | some i => applyCec i pre acc
  | none => .next (betweenCec pre acc)

/-! ### The whole cycle (45 R287) -/

/-- The I2C bus presents the payload byte of SOFT_RESET in this cycle. -/
def softResetNow (s : State) : Bool :=
  match fetchI2c s with
  | some (.softReset (some _)) => true
  | _ => false

/-- One cycle with rst_n high (45 R287). Every engine reads the pre-state `s`. The write priority of 45 R279 is the
order of application: the CEC engine over the I2C engine and the other commands, SOFT_RESET over both. -/
def cycle (s : State) : Result :=
  if softResetNow s then andThen (cecEngine s (background s)) (i2cEngine s)
  else andThen (i2cEngine s (background s)) (cecEngine s)

/-- A state register holds an unused encoding (93 U11). -/
def unusedEncoding (s : State) : Option Fault :=
  match s.cec.state with
  | .unused5 | .unused6 | .unused7 => some .unusedCecState
  | .idle | .rxWho | .rxData | .txStart | .txBit =>
    match s.i2c.state with
    | .unused9 | .unused10 | .unused11 | .unused12 | .unused13 | .unused14 | .unused15 => some .unusedI2cState
    | .idle | .addr | .addrAck | .wrData | .wrAck | .rdData | .rdAck | .rdAcked | .ignore => none

/-- One clock edge (00 R10): an invalid configuration is refused (70 R334), rst_n low resets (70 R330), an unused
encoding faults (93 U11), and else the cycle runs. -/
def clockEdge (s : State) : Result :=
  if s.cfg.Valid then
    if (currentSample s).rstN then
      match unusedEncoding s with
      | some f => .fault f
      | none => cycle s
    else .next (hardReset s)
  else .refused .invalidConfiguration

/-! ### Presenting a table word -/

/-- The state in which the coming cycle completes the given byte of a write transaction: seven bits are in I2C_SHIFT,
SCL rises with the eighth on SDA. -/
def presentByte (b : Byte) (s : State) : State :=
  { s with
    i2c := { s.i2c with state := .wrData, bitcnt := 7#4, shift := b >>> 1 }
    sync := { s.sync with
      scl := { s.sync.scl with s2 := true, p := false }
      sda := { s.sync.sda with s2 := b.getLsbD 0, p := b.getLsbD 0 } }
    env := { s.env with pins := idleSample :: s.env.pins } }

/-- The state in which the coming cycle receives the EOM bit of a header block whose eight data bits are in CEC_SHIFT:
the last bit of a header block that the rules give an effect of its own (41 R148). -/
def presentHeader (w : BitVec 10) (s : State) : State :=
  { s with
    cec := { s.cec with state := .rxWho, bit := 8#4, shift := blockData w }
    timer := { t := if blockEom w then 0#16 else BitVec.ofNat 16 s.cfg.tMid, pre := 0#16 }
    sync := { s.sync with cec := { s.sync.cec with s2 := true, p := false } }
    env := { s.env with pins := idleSample :: s.env.pins } }

/-- `State.withFetchWord` (log 10). An action's word is its command byte and the payload byte 0x00: the command byte
stands in I2C_CMD and the payload byte is presented. -/
def presentWord (s : State) (nbits w : Nat) : State :=
  if nbits ≤ 8 then
    let b := BitVec.ofNat 8 w
    if isAction b then
      presentByte 0x00#8 { s with i2c := { s.i2c with cmd := b, byteno := 1#5 } }
    else presentByte b { s with i2c := { s.i2c with byteno := 0#5 } }
  else presentHeader (BitVec.ofNat 10 w) s

end Sys2Proof.Machine
end

