-- ==== Sys2Proof/Machine/Blocks.lean ====
section
/-! DEFINITION. The rows of ten-bit CEC blocks (spec 41 R143 to R149, 42 R174 to R179) as runs of the symbol events
of the CEC engine, with the quiet time between two events skipped (log 7). -/

namespace Sys2Proof.Machine

/-- The low time that a bit on the wire measures: T_1_LOW for a 1 and T_0_LOW for a 0 (40 R112, R114). -/
def nominalLow (c : Config) (b : Bool) : BitVec 16 := BitVec.ofNat 16 (if b then c.t1Low else c.t0Low)

/-- The rest of an ACK slot this block drives: its drive ends at reach(T_0_LOW) (41 R151). -/
def finishAckDrive (s : State) : Result :=
  if s.cec.ackdrv then
    let q := waitReach s.cfg.t0Low s
    ackDrive false q q
  else .next s

/-- One bit of a received block, which the other devices drive as `b`: the fall, the rest of the ACK drive when this
block makes one, and the rise. The wire is low as long as anyone pulls it (70 R338), so a bit this block drives low
reads 0 whatever the others drive. -/
def receiveSymbol (b : Bool) (s : State) : Result :=
  andThen (cecFall s s) fun f =>
    andThen (finishAckDrive f) fun e =>
      cecRise (nominalLow e.cfg (b && !f.cec.ackdrv)) e e

/-- The ten bits of a received block. -/
def receiveBlock (d : Byte) (eom ack : Bool) (s : State) : Result := feed receiveSymbol (blockBits d eom ack) s

/-- CEC_HEADER_BLOCK (41 R143 to R149). -/
def execCecHeaderBlock (src dst : BitVec 4) (eom ack : Bool) (s : State) : Result :=
  receiveBlock (headerByte src dst) eom ack s

/-- CEC_PING (30 R88, 41 R148): a header block with source = destination and EOM = 1. -/
def execCecPing (a : BitVec 4) (ack : Bool) (s : State) : Result := receiveBlock (headerByte a a) true ack s

/-- CEC_DATA_BLOCK (41 R143, R147, R149). -/
def execCecDataBlock (d : Byte) (eom ack : Bool) (s : State) : Result := receiveBlock d eom ack s

/-- One instant of a transmitted bit, `n` jiffies into it, while the other devices let the wire carry `w`: the wire is
low as long as this block pulls it (70 R338). In any other state of the engine time passes and nothing acts. -/
def transmitInstant (w : Bool) (n : Nat) (s : State) : Result :=
  match s.cec.state with
  | .txBit =>
    let q := waitReach n s
    txBitCycle q.tx.v (w && !q.cec.oe) q q
  | _ => .next s

/-- One bit of a transmitted block: the release at T_1_LOW or T_0_LOW, the read-back at T_SAMPLE, the end at T_BIT
(42 R170). -/
def transmitSymbol (w : Bool) (s : State) : Result :=
  feed (transmitInstant w) [s.cfg.t1Low, s.cfg.tSample, s.cfg.t0Low, s.cfg.tBit] s

/-- CEC_TX_BLOCK (42 R174 to R179): the ten bit periods of the block CEC_BLK, from the state in which its first bit
has started. The bits this block sends are TX_BUF's; the operands are what the other devices let the wire carry. -/
def execCecTxBlock (d : Byte) (eom ack : Bool) (s : State) : Result :=
  feed transmitSymbol (blockBits d eom ack) s

end Sys2Proof.Machine
end

