-- ==== Sys2Proof/Machine/Transactions.lean ====
section
/-! DEFINITION. The host pseudo-instructions of spec 30 R98 as runs of I2C strobes: the conditions, the written bytes
with their ACK clocks, and the read bytes with the master's answers (log 8). -/

namespace Sys2Proof.Machine

/-- START: SDA falls while SCL is high, then SCL falls (43 R201). -/
def startClocks : List I2cStrobe := [.start, .fall]

/-- A repeated START: SCL rises with SDA high, SDA falls, SCL falls (30 R92, 43 R201). -/
def restartClocks : List I2cStrobe := [.rise true, .start, .fall]

/-- STOP: SCL rises with SDA low, then SDA rises (43 R202). -/
def stopClocks : List I2cStrobe := [.rise false, .stop]

/-- One SCL clock with this level on SDA at its rise. -/
def bitClock (b : Bool) : List I2cStrobe := [.rise b, .fall]

/-- A byte the master writes: eight clocks, most significant bit first (00 R13), and the ACK clock, in which the
master releases SDA. The block's own ACK level is not read by the block (43 R214). -/
def writeByteClocks (b : Byte) : List I2cStrobe := (wireBits b ++ [true]).flatMap bitClock

/-- A byte the master reads: eight clocks with SDA left to the block, and the clock of the master's answer `m`,
`false` = ACK (43 R211, R212). -/
def readByteClocks (m : Bool) : List I2cStrobe := (List.replicate 8 true ++ [m]).flatMap bitClock

/-- Run the I2C engine over these strobes; the CEC engine is quiet and no time passes (log 8). -/
def runClocks (l : List I2cStrobe) (s : State) : Result := feed (fun st q => i2cOn st q q) l s

/-- `S W(x)` and these bytes (30 R98). -/
def writeClocks (c : Config) (bs : List Byte) : List I2cStrobe :=
  startClocks ++ (addressByte c.i2cAddr false :: bs).flatMap writeByteClocks

/-- `Sr R(x)`, `n` bytes all ACKed but the last, and `P` (30 R98). The spelling with `P S` is no run of these strobes (DESIGN
CHOICE, log 31). -/
def readClocks (c : Config) (n : Nat) : List I2cStrobe :=
  restartClocks ++ writeByteClocks (addressByte c.i2cAddr true) ++
    (List.replicate (n - 1) false ++ [true]).flatMap readByteClocks ++ stopClocks

/-- `S W(x) cmd Sr R(x) … P`: a load command and the read of `n` bytes. -/
def readTransaction (cmd : Byte) (n : Nat) (s : State) : Result :=
  runClocks (writeClocks s.cfg [cmd] ++ readClocks s.cfg n) s

/-- `S W(x) … P`: a write of these bytes. -/
def writeTransaction (bs : List Byte) (s : State) : Result := runClocks (writeClocks s.cfg bs ++ stopClocks) s

/-- `S W(x) 84 b0 .. bn-1 P ; S W(x) 85 00 P` (30 R98). -/
def sendTransactions (bs : List Byte) (s : State) : Result :=
  andThen (writeTransaction (codeStage :: bs) s) (writeTransaction [codeCecSend, 0x00#8])

/-- READ_ID. -/
def execReadId (s : State) : Result := readTransaction codeLoadId 5 s

/-- GET_ADDR. -/
def execGetAddr (s : State) : Result := readTransaction codeLoadAddr 1 s

/-- GET_TAKEN. -/
def execGetTaken (s : State) : Result := readTransaction codeLoadTaken 2 s

/-- GET_LENGTH. -/
def execGetLength (s : State) : Result := readTransaction codeLoadLength 1 s

/-- GET_BUFFER: the host reads `n` bytes. -/
def execGetBuffer (n : Nat) (s : State) : Result := readTransaction codeLoadBuffer n s

/-- SET_ADDR a. -/
def execSetAddrA (a : BitVec 4) (s : State) : Result := writeTransaction [codeSetAddr, 0#4 ++ a] s

/-- SEND b0 .. bn-1. -/
def execSend (bs : List Byte) (s : State) : Result := sendTransactions bs s

/-- PING a: SEND of the one byte a‖a. -/
def execPingA (a : BitVec 4) (s : State) : Result := sendTransactions [headerByte a a] s

/-- MONITOR. -/
def execMonitor (s : State) : Result := writeTransaction [codeMonitorToggle, 0x00#8] s

/-- RESET. -/
def execReset (s : State) : Result := writeTransaction [codeSoftReset, 0x00#8] s

end Sys2Proof.Machine
end

