-- ==== Sys2Proof/Machine/Dispatch.lean ====
section
/-! DEFINITION. The meaning of every instruction, one arm for each constructor. -/

namespace Sys2Proof.Machine

def exec (i : Instr) (s : State) : Host.Outcome State Fault Refusal :=
  match i with
  | .loadId => Sys2Proof.Machine.execLoadId s
  | .loadAddr => Sys2Proof.Machine.execLoadAddr s
  | .loadTaken => Sys2Proof.Machine.execLoadTaken s
  | .loadLength => Sys2Proof.Machine.execLoadLength s
  | .loadBuffer => Sys2Proof.Machine.execLoadBuffer s
  | .setAddr p => Sys2Proof.Machine.execSetAddr p s
  | .stage p => Sys2Proof.Machine.execStage p s
  | .cecSend p => Sys2Proof.Machine.execCecSend p s
  | .monitorToggle p => Sys2Proof.Machine.execMonitorToggle p s
  | .softReset p => Sys2Proof.Machine.execSoftReset p s
  | .reservedCommand c => Sys2Proof.Machine.execReservedCommand c s
  | .payloadByte p => Sys2Proof.Machine.execPayloadByte p s
  | .addrWrite a => Sys2Proof.Machine.execAddrWrite a s
  | .addrRead a => Sys2Proof.Machine.execAddrRead a s
  | .readByte m => Sys2Proof.Machine.execReadByte m s
  | .i2cStart => Sys2Proof.Machine.execI2cStart s
  | .i2cStop => Sys2Proof.Machine.execI2cStop s
  | .cecHeaderBlock src dst eom ack => Sys2Proof.Machine.execCecHeaderBlock src dst eom ack s
  | .cecPing a ack => Sys2Proof.Machine.execCecPing a ack s
  | .cecDataBlock d eom ack => Sys2Proof.Machine.execCecDataBlock d eom ack s
  | .cecTxBlock d eom ack => Sys2Proof.Machine.execCecTxBlock d eom ack s
  | .cecStartRx l => Sys2Proof.Machine.execCecStartRx l s
  | .cecStartTx => Sys2Proof.Machine.execCecStartTx s
  | .cecBitRx l => Sys2Proof.Machine.execCecBitRx l s
  | .cecBit1Tx => Sys2Proof.Machine.execCecBit1Tx s
  | .cecBit0Tx => Sys2Proof.Machine.execCecBit0Tx s
  | .cecAckDrive => Sys2Proof.Machine.execCecAckDrive s
  | .readId => Sys2Proof.Machine.execReadId s
  | .getAddr => Sys2Proof.Machine.execGetAddr s
  | .getTaken => Sys2Proof.Machine.execGetTaken s
  | .getLength => Sys2Proof.Machine.execGetLength s
  | .getBuffer n => Sys2Proof.Machine.execGetBuffer n s
  | .setAddrA a => Sys2Proof.Machine.execSetAddrA a s
  | .send bs => Sys2Proof.Machine.execSend bs s
  | .pingA a => Sys2Proof.Machine.execPingA a s
  | .monitor => Sys2Proof.Machine.execMonitor s
  | .reset => Sys2Proof.Machine.execReset s

end Sys2Proof.Machine
end

