-- ==== Sys2Proof/Machine/Step.lean ====
section
/-! DEFINITION. The step: one rising edge of clk (00 R10). -/

namespace Sys2Proof.Machine

/-- One step of the machine: `clockEdge` of Machine/Engines.lean. -/
def step (s : State) : Host.Outcome State Fault Refusal := clockEdge s

/-- The state in which the coming step runs the table word `w` (log 10): `presentWord` of Machine/Engines.lean. -/
def State.withFetchWord (s : State) (nbits w : Nat) : State := presentWord s nbits w

end Sys2Proof.Machine
end

