-- ==== Sys2Proof/Machine/Flags.lean ====
section
/-! DEFINITION. The views the spec defines over the registers: FLAGS, the ports, the event codes, the register numbers. -/

namespace Sys2Proof.Machine

/-- FLAGS (10 R28), bit 7 first: two zeros, TO_US, MONITOR, I2C_RW, ACK_PENDING, CUR_BIT, NESTED = 0. -/
def flags (s : State) : Byte :=
  0#2 ++ BitVec.ofBool s.cec.own ++ BitVec.ofBool s.shared.monitor ++ BitVec.ofBool s.i2c.rw ++
    BitVec.ofBool s.cec.ackpend ++ BitVec.ofBool s.cec.lastbit ++ 0#1

/-- The port sda_oe (10 R20). -/
def portSdaOe (s : State) : Bool := s.i2c.sdaOe

/-- The port cec_oe (10 R20). -/
def portCecOe (s : State) : Bool := s.cec.oe

/-- The event codes of 60 R300. -/
def eventCode : Event → Nat
  | .timeout _ _ => 1
  | .arbLost _ _ => 2
  | .addrMismatch _ => 3
  | .overrun _ => 4
  | .noAck _ => 5
  | .badCmd _ => 6
  | .busy _ => 7

/-- The encoding of READ_SEL (10 R29). -/
def readSelCode : ReadSel → BitVec 3
  | .none => 0 | .id => 1 | .addr => 2 | .taken => 3 | .length => 4 | .buffer => 5 | .unused6 => 6 | .unused7 => 7

/-- The encoding of CEC_STATE (10 R33). -/
def cecStateCode : CecState → BitVec 3
  | .idle => 0 | .rxWho => 1 | .rxData => 2 | .txStart => 3 | .txBit => 4 | .unused5 => 5 | .unused6 => 6 | .unused7 => 7

/-- The encoding of I2C_STATE (10 R35). -/
def i2cStateCode : I2cState → BitVec 4
  | .idle => 0 | .addr => 1 | .addrAck => 2 | .wrData => 3 | .wrAck => 4 | .rdData => 5 | .rdAck => 6 | .rdAcked => 7
  | .ignore => 8 | .unused9 => 9 | .unused10 => 10 | .unused11 => 11 | .unused12 => 12 | .unused13 => 13
  | .unused14 => 14 | .unused15 => 15

/-- A one-bit register as a number. -/
def bitNat (b : Bool) : Nat := if b then 1 else 0

/-- The value of the register with a number of 10 R42; `i` is the element of BUF and TX_BUF and else ignored. -/
def registerById (s : State) (id i : Nat) : Option Nat :=
  match id with
  | 0x00 => some s.shared.cecAddr.toNat
  | 0x01 => some (bitNat s.shared.monitor)
  | 0x02 => some s.shared.taken.toNat
  | 0x03 => some s.shared.length.toNat
  | 0x04 => if i < bufSize then some (readMem s.shared.buf i).toNat else none
  | 0x05 => some (readSelCode s.win.readSel).toNat
  | 0x06 => some s.win.readLen.toNat
  | 0x07 => some s.win.wrIdx.toNat
  | 0x08 => some (bitNat s.tx.pending)
  | 0x09 => some s.tx.len.toNat
  | 0x0A => if i < bufSize then some (readMem s.tx.buf i).toNat else none
  | 0x0B => some s.tx.retry.toNat
  | 0x0C => some (flags s).toNat
  | 0x10 => some (cecStateCode s.cec.state).toNat
  | 0x11 => some s.timer.t.toNat
  | 0x12 => some s.timer.pre.toNat
  | 0x13 => some s.cec.bit.toNat
  | 0x14 => some s.cec.blk.toNat
  | 0x15 => some s.cec.shift.toNat
  | 0x16 => some (bitNat s.cec.eom)
  | 0x17 => some (bitNat s.cec.lastbit)
  | 0x18 => some (bitNat s.cec.keep)
  | 0x19 => some (bitNat s.cec.own)
  | 0x1A => some (bitNat s.cec.ackpend)
  | 0x1B => some (bitNat s.cec.ackdrv)
  | 0x1C => some (bitNat s.cec.oe)
  | 0x1D => some (bitNat s.tx.bcast)
  | 0x1E => some (bitNat s.tx.v)
  | 0x20 => some (i2cStateCode s.i2c.state).toNat
  | 0x21 => some s.i2c.bitcnt.toNat
  | 0x22 => some s.i2c.shift.toNat
  | 0x23 => some (bitNat s.i2c.rw)
  | 0x24 => some (bitNat s.i2c.accept)
  | 0x25 => some s.i2c.cmd.toNat
  | 0x26 => some s.i2c.byteno.toNat
  | 0x27 => some s.i2c.rdptr.toNat
  | 0x28 => some s.i2c.txbyte.toNat
  | 0x29 => some (bitNat s.i2c.sdaOe)
  | 0x30 => some (bitNat s.sync.scl.s1)
  | 0x31 => some (bitNat s.sync.scl.s2)
  | 0x32 => some (bitNat s.sync.scl.p)
  | 0x33 => some (bitNat s.sync.sda.s1)
  | 0x34 => some (bitNat s.sync.sda.s2)
  | 0x35 => some (bitNat s.sync.sda.p)
  | 0x36 => some (bitNat s.sync.cec.s1)
  | 0x37 => some (bitNat s.sync.cec.s2)
  | 0x38 => some (bitNat s.sync.cec.p)
  | _ => none

end Sys2Proof.Machine
end

