-- ==== Sys2Proof/Safety.lean ====
section
/-! DEFINITION. What counts as a safe state of the block, and the words the claims are made in. -/

namespace Sys2Proof.Machine

/-! ### The invariant -/

/-- How many bytes the source of a read window has (20 R61, 44 R245 to R249). -/
def ReadSel.capacity : ReadSel → Nat
  | .none => 0
  | .id => 5
  | .addr => 1
  | .taken => 2
  | .length => 1
  | .buffer => 16
  | .unused6 => 0
  | .unused7 => 0

/-- The receiver is in a frame. -/
abbrev CecState.Receiving (c : CecState) : Prop := c = .rxWho ∨ c = .rxData

/-- The transmitter is in an attempt. -/
abbrev CecState.Sending (c : CecState) : Prop := c = .txStart ∨ c = .txBit

/-- The states that the rules keep: what the spec says of every reachable state, with the bounds and the flag discipline
that make it inductive. Every cycle keeps it whatever the wires do, glitches and metastable captures included. -/
structure Inv (s : State) : Prop where
  /-- The configuration is one that a model accepts (70 R334). -/
  valid : s.cfg.Valid
  /-- BUF is in canonical form. -/
  bufWf : Memory.wf s.shared.buf = true
  /-- TX_BUF is in canonical form. -/
  txBufWf : Memory.wf s.tx.buf = true
  /-- The state registers hold encodings in use (10 R33, R35). -/
  encodings : unusedEncoding s = none
  /-- READ_SEL holds an encoding in use (10 R29). -/
  readSel : s.win.readSel ≠ .unused6 ∧ s.win.readSel ≠ .unused7
  /-- LENGTH ≤ BUF_CAP (10 R24). -/
  length : s.shared.length.toNat ≤ s.cfg.bufCap
  /-- WR_IDX ≤ BUF_CAP (10 R31). -/
  wrIdx : s.win.wrIdx.toNat ≤ s.cfg.bufCap
  /-- The window is no longer than its source (44 R241). -/
  readLen : s.win.readLen.toNat ≤ s.win.readSel.capacity
  /-- CEC_PRE counts within a jiffy (10 R32). -/
  pre : s.timer.pre.toNat < s.cfg.jiffyCycles
  /-- TX_LEN ≤ BUF_CAP, and 1 to 16 while a transmission is pending (10 R34). -/
  txLen : s.tx.len.toNat ≤ s.cfg.bufCap ∧ (s.tx.pending = true → 1 ≤ s.tx.len.toNat)
  /-- An attempt sends a pending transmission, at a block it has and a bit of a block (42 R171, R175). -/
  sending : s.cec.state.Sending → s.tx.pending = true ∧ s.cec.blk.toNat < s.tx.len.toNat ∧ s.cec.bit.toNat ≤ 9
  /-- The ACK bit of the last block ends at its sample point (42 R175, R178, R179). -/
  lastAck : s.cec.state = .txBit → s.cec.bit = 9#4 → s.cec.blk.toNat + 1 = s.tx.len.toNat →
    s.timer.t.toNat < s.cfg.tMid
  /-- CEC_KEEP is 1 from the header decision of a kept frame to its end, and 0 otherwise (45 R280). -/
  keep : s.cec.keep = true ↔ s.cec.state = .rxData ∨ (s.cec.state = .rxWho ∧ 8 ≤ s.cec.bit.toNat)
  /-- Only a kept frame is owned (41 R145). -/
  own : s.cec.own = true → s.cec.keep = true
  /-- An ACK is pending only in an owned block, after its data bits (10 R34). -/
  ackpend : s.cec.ackpend = true → s.cec.own = true ∧ (s.cec.bit = 8#4 ∨ s.cec.bit = 9#4)
  /-- The fall that opens bit 9 has taken the pending ACK (41 R149, R151). -/
  ackTaken : s.cec.state.Receiving → s.cec.bit = 9#4 → s.sync.cec.p = false → s.cec.ackpend = false
  /-- A received frame's position: a bit of a block, the header first, at most one block beyond BUF (10 R34, 41 R147). -/
  receiving : s.cec.state.Receiving → s.cec.bit.toNat ≤ 9
  /-- Block 0 is the header (10 R34). -/
  headerBlock : s.cec.state = .rxWho → s.cec.blk = 0#5
  /-- A later block has an index in BUF or the one after it, where the overrun ends the frame (41 R147, R149). -/
  dataBlocks : s.cec.state = .rxData →
    1 ≤ s.cec.blk.toNat ∧ s.cec.blk.toNat ≤ s.cfg.bufCap ∧ (8 ≤ s.cec.bit.toNat → s.cec.blk.toNat < s.cfg.bufCap)
  /-- Bit clocks of a read byte: 0 to 7 (10 R36). -/
  readBits : s.i2c.state = .rdData → s.i2c.bitcnt.toNat ≤ 7
  /-- Bits of a written byte: 0 to 8, and SCL is high after the 8th until the fall that moves on (43 R203). -/
  writtenBits : s.i2c.state = .addr ∨ s.i2c.state = .wrData →
    s.i2c.bitcnt.toNat ≤ 8 ∧ (s.i2c.bitcnt = 8#4 → s.sync.scl.p = true)
  /-- SDA is driven only in an ACK of the block and in a byte it sends (43 R214, R217). -/
  sdaOe : s.i2c.sdaOe = true → s.i2c.state = .addrAck ∨ s.i2c.state = .wrAck ∨ s.i2c.state = .rdData

/-! ### Words for the claims -/

/-- `timer_clear` without SOFT_RESET and rst_n, transcribed from 45 R275: a CEC edge while the receiver owns the timer, a
transmit step that starts a pulse, and an entry to IDLE from a transmission. -/
def timerClear (s : State) : Bool :=
  match s.cec.state with
  | .idle => s.sync.cec.rise || s.sync.cec.fall || txGo s
  | .rxWho | .rxData => s.sync.cec.rise || s.sync.cec.fall
  | .txStart => reach s s.cfg.tStartTotal
  | .txBit =>
    reach s s.cfg.tBit ||
      (reach s s.cfg.tSample &&
        (if s.cec.bit.toNat ≤ 8 then s.sync.cec.s2 != s.tx.v
          else !ackGood s.sync.cec.s2 s || s.cec.blk == s.tx.len - 1))
  | .unused5 | .unused6 | .unused7 => false

/-- No CEC event: no edge of the line, and the engine neither executes an instruction nor times out. -/
def cecQuiet (s : State) : Bool :=
  !s.sync.cec.rise && !s.sync.cec.fall && (fetchCec s).isNone && !((s.cec.state == .rxWho || s.cec.state == .rxData) && timedOut s)

/-- What a step adds around an instruction's own effect `t`: the clock edge itself. The synchronisers shift, the sample is
used up, and the timer ticks unless `cleared`. -/
def clocked (cleared : Bool) (s t : State) : State :=
  { t with
    timer := if cleared then { t := 0#16, pre := 0#16 } else tickTimer s
    sync := shiftSyncs s
    env := { t.env with pins := s.env.pins.tail, edges := s.env.edges + 1 } }

/-- The I2C registers after a data byte of a write transaction (43 R203, R208): the byte is in I2C_SHIFT, it is counted, and
`ok` is its ACK. -/
def I2cRegs.afterByte (r : I2cRegs) (b : Byte) (ok : Bool) : I2cRegs :=
  { r with shift := b, bitcnt := r.bitcnt + 1, byteno := satInc r.byteno, accept := ok }

/-- Nothing of the host side changed: the configuration, the read window and the I2C engine. -/
def SameHost (s t : State) : Prop := t.cfg = s.cfg ∧ t.win = s.win ∧ t.i2c = s.i2c ∧ t.sync = s.sync

/-- Nothing of the CEC side changed: the configuration, the CEC engine, the transmit registers, the timer. -/
def SameCec (s t : State) : Prop := t.cfg = s.cfg ∧ t.cec = s.cec ∧ t.tx = s.tx ∧ t.timer = s.timer ∧ t.sync = s.sync

end Sys2Proof.Machine
end

