-- ==== Sys2Proof/Certificates/Slice0/Obligations.lean ====
section
/-! DEFINITION. The statements for the provers. Each is about every state that meets its hypotheses; none is about a
program. "log n" is notes/assumptions/n.md. -/

open Sys2Proof Sys2Proof.Machine

/-! ### Encoding (spec 30) -/

/-- Decoding the encoding of a well-formed instruction gives it back, for every operand its encoding admits (30 R80 to R91,
R98). -/
def Obligations.DecodeInvertsEncode : Prop :=
  ∀ (c : Config) (i : Instr), c.Valid → i.wellFormed c = true → decode c (encode c i) = .ok i

/-- What the decoder accepts is well formed, and has exactly the encoding it was read from, so no unit is dropped. THE MODEL'S
CHOICE: that therefore no two sequences of units are one instruction. 30 R98 lets P S stand for Sr with the same result, so
READ_ID and the GET_ rows have a second spelling in the spec, which the decoder does not read as the instruction (DESIGN
CHOICE, log 31); and of the two rows that R88 and R98 give the units of a ping it answers one (DEDUCED, log 27). -/
def Obligations.EncodeInvertsDecode : Prop :=
  ∀ (c : Config) (ts : List Token) (i : Instr), decode c ts = .ok i → i.wellFormed c = true ∧ encode c i = ts

/-- A few words written out from 30 R81, R85, R88, R90 and R98 decode to the instructions they stand for. -/
def Obligations.SampleWordsDecode : Prop :=
  decode Config.testVectors [.fa 0x54#8] = .ok (.addrWrite 0x2A#7) ∧
  decode Config.testVectors [.fa 0x55#8] = .ok (.addrRead 0x2A#7) ∧
  decode Config.testVectors [.fc 0x02#8] = .ok .loadTaken ∧
  decode Config.testVectors [.fc 0x81#8, .fp 0x04#8] = .ok (.setAddr (some 0x04#8)) ∧
  decode Config.testVectors [.fh 0b0000010000#10] = .ok (.cecHeaderBlock 0x0#4 0x4#4 false false) ∧
  decode Config.testVectors [.fh 0b0100010010#10] = .ok (.cecPing 0x4#4 false) ∧
  decode Config.testVectors [.pulseIdle 355#16] = .ok (.cecStartRx 355#16) ∧
  decode Config.testVectors [.pulseIdle 354#16] = .error .noise ∧
  decode Config.testVectors [.condition false, .fa 0x54#8, .fc 0x86#8, .fp 0x00#8, .condition true] = .ok .monitor

/-- The command code map: each of the 256 command bytes is one of the ten commands or reserved (30 R85, R93, R99). An action's
byte is the action's row without a payload byte (44 R242, R244; that one row has both cycles is log 6). -/
def Obligations.CommandByteMap : Prop :=
  ∀ (c : Config) (b : Byte),
    decode c [.fc b] = .ok (
      if b = 0x00#8 then .loadId
      else if b = 0x01#8 then .loadAddr
      else if b = 0x02#8 then .loadTaken
      else if b = 0x03#8 then .loadLength
      else if b = 0x04#8 then .loadBuffer
      else if b = 0x81#8 then .setAddr none
      else if b = 0x84#8 then .stage none
      else if b = 0x85#8 then .cecSend none
      else if b = 0x86#8 then .monitorToggle none
      else if b = 0x8F#8 then .softReset none
      else .reservedCommand b)

/-! ### State and memory (spec 10, 20) -/

/-- A memory in canonical form is determined by its sixteen bytes: equal contents are equal data. The list form is the
model's choice (log 18). -/
def Obligations.MemoryIsItsBytes : Prop :=
  ∀ m₁ m₂ : Memory, Memory.wf m₁ = true → Memory.wf m₂ = true →
    (∀ a, a < 16 → readMem m₁ a = readMem m₂ a) → m₁ = m₂

/-- The bits of FLAGS (10 R28). -/
def Obligations.FlagsPackTheFlagRegisters : Prop :=
  ∀ s : State,
    (flags s).getLsbD 0 = false ∧ (flags s).getLsbD 1 = s.cec.lastbit ∧ (flags s).getLsbD 2 = s.cec.ackpend ∧
    (flags s).getLsbD 3 = s.i2c.rw ∧ (flags s).getLsbD 4 = s.shared.monitor ∧ (flags s).getLsbD 5 = s.cec.own ∧
    (flags s).getLsbD 6 = false ∧ (flags s).getLsbD 7 = false

/-! ### Edges, synchronisers and the timer (spec 10 R40, 40, 45) -/

/-- The strobes of one cycle: what I2C_START and I2C_STOP are (45 R271, R272), and which exclude each other (45 R276). -/
def Obligations.StrobesAreExclusive : Prop :=
  (∀ s : State,
    (i2cStartStrobe s = true ↔
      s.sync.scl.p = true ∧ s.sync.scl.s2 = true ∧ s.sync.sda.p = true ∧ s.sync.sda.s2 = false) ∧
    (i2cStopStrobe s = true ↔
      s.sync.scl.p = true ∧ s.sync.scl.s2 = true ∧ s.sync.sda.p = false ∧ s.sync.sda.s2 = true) ∧
    ¬(s.sync.scl.rise = true ∧ s.sync.scl.fall = true) ∧ ¬(s.sync.sda.rise = true ∧ s.sync.sda.fall = true) ∧
    ¬(s.sync.cec.rise = true ∧ s.sync.cec.fall = true) ∧
    ¬(i2cStartStrobe s = true ∧ i2cStopStrobe s = true) ∧
    ¬(i2cStartStrobe s = true ∧ (s.sync.scl.rise = true ∨ s.sync.scl.fall = true)) ∧
    ¬(i2cStopStrobe s = true ∧ (s.sync.scl.rise = true ∨ s.sync.scl.fall = true))) ∧
  (∃ s : State, i2cStartStrobe s = true ∧ s.sync.cec.fall = true) ∧
  (∃ s : State, s.sync.scl.rise = true ∧ s.sync.cec.rise = true)

/-- Every cycle shifts the three synchronisers (10 R40), whatever the engines do. The level captured is the wire's, which
is low when this block or another device pulls it (70 R338). When the pin is changing it is not said, except that a wire
that this block pulls and that has been captured low stays low for as long as it pulls it, whatever the others do
(93 U16; log 3). -/
def Obligations.SynchronisersShift : Prop :=
  ∀ s t : State, step s = .next t → (currentSample s).rstN = true →
    (t.sync.scl.s2 = s.sync.scl.s1 ∧ t.sync.scl.p = s.sync.scl.s2) ∧
    (t.sync.sda.s2 = s.sync.sda.s1 ∧ t.sync.sda.p = s.sync.sda.s2) ∧
    (t.sync.cec.s2 = s.sync.cec.s1 ∧ t.sync.cec.p = s.sync.cec.s2) ∧
    ((currentSample s).scl = .pulled → t.sync.scl.s1 = false) ∧
    ((currentSample s).scl = .released → t.sync.scl.s1 = true) ∧
    ((currentSample s).sda = .pulled → t.sync.sda.s1 = false) ∧
    ((currentSample s).sda = .released → t.sync.sda.s1 = !portSdaOe s) ∧
    ((currentSample s).cec = .pulled → t.sync.cec.s1 = false) ∧
    ((currentSample s).cec = .released → t.sync.cec.s1 = !portCecOe s) ∧
    (portSdaOe s = true → s.sync.sda.s1 = false → t.sync.sda.s1 = false) ∧
    (portCecOe s = true → s.sync.cec.s1 = false → t.sync.cec.s1 = false)

/-- An edge at a pin is a strobe two cycles after the pin is first sampled at its new level (45 R270, 70 R349): both edges of
SCL, SDA and CEC. SDA and CEC fall when another device or this block pulls them, and rise when neither does (70 R338). -/
def Obligations.PinEdgeIsAStrobeTwoCyclesLater : Prop :=
  ∀ s t u : State, step s = .next t → step t = .next u →
    (currentSample s).rstN = true → (currentSample t).rstN = true →
    ((currentSample s).scl = .pulled → s.sync.scl.s1 = true → u.sync.scl.fall = true) ∧
    ((currentSample s).scl = .released → s.sync.scl.s1 = false → u.sync.scl.rise = true) ∧
    ((currentSample s).sda = .pulled ∨ ((currentSample s).sda = .released ∧ portSdaOe s = true) → s.sync.sda.s1 = true →
      u.sync.sda.fall = true) ∧
    ((currentSample s).sda = .released → portSdaOe s = false → s.sync.sda.s1 = false → u.sync.sda.rise = true) ∧
    ((currentSample s).cec = .pulled ∨ ((currentSample s).cec = .released ∧ portCecOe s = true) → s.sync.cec.s1 = true →
      u.sync.cec.fall = true) ∧
    ((currentSample s).cec = .released → portCecOe s = false → s.sync.cec.s1 = false → u.sync.cec.rise = true)

/-- The timer of every cycle: cleared by the sources of 45 R275, and else counting clk cycles in CEC_PRE and whole jiffies,
saturating, in CEC_T (40 R110). -/
def Obligations.TimerOfEveryCycle : Prop :=
  ∀ s t : State, step s = .next t →
    if (currentSample s).rstN = false ∨ softResetNow s = true ∨ timerClear s = true then
      t.timer.t = 0#16 ∧ t.timer.pre = 0#16
    else if s.timer.pre.toNat = s.cfg.jiffyCycles - 1 then
      t.timer.t.toNat = min (s.timer.t.toNat + 1) 0xFFFF ∧ t.timer.pre = 0#16
    else t.timer.t = s.timer.t ∧ t.timer.pre.toNat = (s.timer.pre.toNat + 1) % 65536

/-- What the timer holds k cycles after a clear, when nothing clears it: whole jiffies and the cycles of the last one
(40 R111). -/
def Obligations.TimerMeasuresJiffies : Prop :=
  ∀ (s : State) (k : Nat), s.cfg.Valid →
    (fun x => tickTimer { s with timer := x })^[k] { t := 0#16, pre := 0#16 } =
      { t := BitVec.ofNat 16 (min (k / s.cfg.jiffyCycles) 0xFFFF), pre := BitVec.ofNat 16 (k % s.cfg.jiffyCycles) }

/-- reach(n) is true in the one cycle that is n jiffies after the clear (45 R274, 40 R111): a rule in the k-th cycle after
it reads the timer after k - 1 ticks. -/
def Obligations.ReachComesAfterNJiffies : Prop :=
  ∀ (s : State) (k n : Nat), s.cfg.Valid → 1 ≤ k → 1 ≤ n → n ≤ 0xFFFF →
    (reach { s with timer := (fun x => tickTimer { s with timer := x })^[k - 1] { t := 0#16, pre := 0#16 } } n = true ↔
      k = n * s.cfg.jiffyCycles)

/-! ### The whole machine -/

/-- The reset state meets the invariant, for every valid configuration (70 R330); State.reset, with the model's choice of
the two OPEN parameters (log 1), is one of them. -/
def Obligations.ResetMeetsInv : Prop :=
  (∀ c : Config, c.Valid → Inv (State.resetWith c)) ∧ Inv State.reset

/-- Every step keeps the invariant: LENGTH within BUF, the legal encodings, buffer ownership, the pending ACK, the
transmitter's position, the canonical memories (10 R24, R29 to R35; 45 R280). -/
def Obligations.StepKeepsInv : Prop :=
  ∀ s t : State, Inv s → step s = .next t → Inv t

/-- From a state that meets the invariant, a step always answers a next state: no encoding faults, no index leaves its
array, and no ordinary input stops the machine (20 R60, 93 U11). -/
def Obligations.InvStepNeverStops : Prop :=
  ∀ s : State, Inv s → ∃ t, step s = .next t

/-- rst_n low at a clock edge: whatever else the cycle would do, every register takes its reset value, by its number of
10 R42, no event is emitted, and both lines are released (70 R330, R333). -/
def Obligations.ResetEdgeSetsEveryRegister : Prop :=
  ∀ s : State, s.cfg.Valid → (currentSample s).rstN = false →
    ∃ t, step s = .next t ∧ t.cfg = s.cfg ∧ t.env.events = s.env.events ∧ portSdaOe t = false ∧ portCecOe t = false ∧
      ∀ id i v, registerById t id i = some v → v = if id = 0x00 then 0xF else if 0x30 ≤ id then 1 else 0

/-- What a step stops on. An invalid configuration is refused whatever the state and the inputs (70 R334). Which ones are
invalid is Config.Valid: beside the constraints of the spec it refuses a JIFFY_CYCLES above 65536 (DEDUCED, log 16) and a
START_MIN of 350 or less, whatever T_TIMEOUT is (DEDUCED, log 17), and it lets T_MID be rounded either way (DESIGN CHOICE, log 30). The faults are the
model's reading of 93 U11 (DEDUCED, log 13): with a valid configuration and rst_n high, an unused encoding of CEC_STATE or
I2C_STATE faults in every cycle, and an unused READ_SEL faults when a byte inside the read window is loaded. -/
def Obligations.WhatAStepStopsOn : Prop :=
  (∀ s : State, ¬s.cfg.Valid → step s = .refused .invalidConfiguration) ∧
  (∀ s : State, s.cfg.Valid → (currentSample s).rstN = true →
    (5 ≤ (cecStateCode s.cec.state).toNat → step s = .fault .unusedCecState) ∧
    ((cecStateCode s.cec.state).toNat < 5 → 9 ≤ (i2cStateCode s.i2c.state).toNat → step s = .fault .unusedI2cState)) ∧
  (∀ (s : State) (p : BitVec 5), 6 ≤ (readSelCode s.win.readSel).toNat → p.toNat < s.win.readLen.toNat →
    readOut s p = .error .unusedReadSel) ∧
  (∀ s : State, s.cfg.Valid → (currentSample s).rstN = true → unusedEncoding s = none →
    6 ≤ (readSelCode s.win.readSel).toNat → i2cStrobe s = some .fall →
    (s.i2c.state = .addrAck ∧ s.i2c.rw = true ∧ 0 < s.win.readLen.toNat) ∨
      (s.i2c.state = .rdAcked ∧ s.i2c.rdptr.toNat < s.win.readLen.toNat) →
    step s = .fault .unusedReadSel)

/-- TAKEN is OR-ed with one address at a time and cleared only by a reset (10 R26). -/
def Obligations.TakenIsOnlyOredOrReset : Prop :=
  ∀ s t : State, step s = .next t →
    if (currentSample s).rstN = false ∨ softResetNow s = true then t.shared.taken = 0#16
    else t.shared.taken = s.shared.taken ∨ ∃ a : BitVec 4, t.shared.taken = s.shared.taken ||| (1#16 <<< a.toNat)

/-- The block changes sda_oe only in a cycle with fall(SCL), or releases it at a START or a STOP (43 R216, R201, R202). -/
def Obligations.SdaChangesOnlyAtSclFall : Prop :=
  ∀ s t : State, step s = .next t → (currentSample s).rstN = true → portSdaOe t ≠ portSdaOe s →
    s.sync.scl.fall = true ∨ ((i2cStartStrobe s = true ∨ i2cStopStrobe s = true) ∧ portSdaOe t = false)

/-- The CEC engine never waits for the I2C engine and is never delayed by it (45 R277, R278): two states that agree on the
configuration, the CEC engine, the transmit registers, the timer, the CEC synchroniser and what the receiver reads of the
shared state take the CEC engine, the timer, TX_V, TX_BCAST and TAKEN, which it alone writes (45 R282), to the same
values, whatever happens on the I2C bus, SOFT_RESET aside. -/
def Obligations.CecEngineIgnoresTheI2cBus : Prop :=
  ∀ s₁ s₂ t₁ t₂ : State, step s₁ = .next t₁ → step s₂ = .next t₂ →
    (currentSample s₁).rstN = true → (currentSample s₂).rstN = true → softResetNow s₁ = false → softResetNow s₂ = false →
    s₁.cfg = s₂.cfg → s₁.cec = s₂.cec → s₁.tx = s₂.tx → s₁.timer = s₂.timer → s₁.sync.cec = s₂.sync.cec →
    s₁.shared.cecAddr = s₂.shared.cecAddr → s₁.shared.monitor = s₂.shared.monitor → s₁.shared.taken = s₂.shared.taken →
    t₁.cec = t₂.cec ∧ t₁.timer = t₂.timer ∧ t₁.tx.v = t₂.tx.v ∧ t₁.tx.bcast = t₂.tx.bcast ∧
      t₁.shared.taken = t₂.shared.taken

/-- The I2C engine and the dispatcher read of the CEC side only CEC_KEEP and TX_PENDING, and of it and of the shared state
only the pre-state (45 R277, R278; 44 R252, R253): two states that agree on the rest of what they read take the I2C
engine, the read window, CEC_ADDR and MONITOR to the same values, whatever happens on the CEC bus. -/
def Obligations.I2cEngineIgnoresTheCecBus : Prop :=
  ∀ s₁ s₂ t₁ t₂ : State, step s₁ = .next t₁ → step s₂ = .next t₂ →
    (currentSample s₁).rstN = true → (currentSample s₂).rstN = true →
    s₁.cfg = s₂.cfg → s₁.i2c = s₂.i2c → s₁.win = s₂.win → s₁.shared = s₂.shared → s₁.sync.scl = s₂.sync.scl →
    s₁.sync.sda = s₂.sync.sda → s₁.cec.keep = s₂.cec.keep → s₁.tx.pending = s₂.tx.pending →
    t₁.i2c = t₂.i2c ∧ t₁.win = t₂.win ∧ t₁.shared.cecAddr = t₂.shared.cecAddr ∧ t₁.shared.monitor = t₂.shared.monitor

/-- A STAGE byte in the cycle of a kept header's decision is ACKed, but its writes to BUF and LENGTH lose to the receiver's
(45 R279, 70 R340; log 25). -/
def Obligations.StageLosesToAKeptHeader : Prop :=
  ∀ (s : State) (p : Byte) (l : BitVec 16) (h : Byte),
    s.cfg.Valid → (currentSample s).rstN = true → unusedEncoding s = none → Memory.wf s.shared.buf = true →
    fetchI2c s = some (.stage (some p)) → 1 ≤ s.i2c.byteno.toNat → s.i2c.byteno.toNat ≤ 16 →
    fetchCec s = some (.cecBitRx l) → s.cec.state = .rxWho → s.cec.bit = 7#4 → s.cec.keep = false →
    h = shiftIn s.cec.shift (decide (l.toNat < s.cfg.tMid)) → isKept s (destinationOf h) = true →
    ∃ t, step s = .next t ∧ t.i2c.accept = true ∧ t.cec.keep = true ∧ t.shared.length = 1#5 ∧
      ∀ a, readMem t.shared.buf a = if a = 0 then h else readMem s.shared.buf a

/-- SOFT_RESET wins over every CEC write of its cycle (45 R279, 44 R255): every register but the I2C engine's and the
synchronisers is at its reset value after it, by its number of 10 R42 (0x0C is the view FLAGS). -/
def Obligations.SoftResetWinsItsCycle : Prop :=
  ∀ (s t : State), step s = .next t → (currentSample s).rstN = true → softResetNow s = true →
    t.i2c.accept = true ∧
      ∀ id i v, id < 0x20 → id ≠ 0x0C → registerById t id i = some v → v = if id = 0x00 then 0xF else 0

/-- A step runs the instruction the I2C bus presents: when the CEC side is quiet, the step is that instruction's own effect
with the clock edge around it, and the instruction is well formed (00 R10, 45 R287; log 5). -/
def Obligations.StepRunsTheI2cInstruction : Prop :=
  ∀ (s : State) (i : Instr), s.cfg.Valid → (currentSample s).rstN = true → unusedEncoding s = none → cecQuiet s = true →
    fetchI2c s = some i →
    i.wellFormed s.cfg = true ∧ (∀ t, exec i s = .next t → step s = .next (clocked (softResetNow s) s t)) ∧
      (∀ f, exec i s = .fault f → step s = .fault f)

/-- A step runs the instruction the CEC engine executes: when the I2C bus has no strobe, the step is that instruction's own
effect with the clock edge around it, and the instruction is well formed (00 R10, 45 R287; log 5). -/
def Obligations.StepRunsTheCecInstruction : Prop :=
  ∀ (s : State) (i : Instr), s.cfg.Valid → (currentSample s).rstN = true → unusedEncoding s = none → i2cStrobe s = none →
    fetchCec s = some i →
    i.wellFormed s.cfg = true ∧ (∀ t, exec i s = .next t → step s = .next (clocked (timerClear s) s t)) ∧
      (∀ f, exec i s = .fault f → step s = .fault f)

/-- A receive timeout (40 R116, 41 R150): with no edge and CEC_T at T_TIMEOUT or more the frame is aborted to IDLE, its
flags are cleared, the line is released, BUF, LENGTH and TAKEN stay, the timer goes on, and TIMEOUT is emitted. -/
def Obligations.TimeoutAbortsTheFrame : Prop :=
  ∀ s : State, s.cfg.Valid → (currentSample s).rstN = true → unusedEncoding s = none → i2cStrobe s = none →
    (s.cec.state = .rxWho ∨ s.cec.state = .rxData) → s.sync.cec.rise = false → s.sync.cec.fall = false →
    s.cfg.tTimeout ≤ s.timer.t.toNat →
    ∃ t, step s = .next t ∧ t.shared = s.shared ∧ t.tx = s.tx ∧ t.win = s.win ∧ t.i2c = s.i2c ∧ t.timer = tickTimer s ∧
      t.env.events = s.env.events ++ [.timeout s.cec.blk s.cec.bit] ∧
      t.cec = { s.cec with
        state := .idle, keep := false, own := false, ackpend := false, ackdrv := false, oe := false }

/-! ### Host commands (spec 44) -/

/-- LOAD_ID (44 R245): the window becomes the 5 bytes of ID_SEQ, and nothing else changes but the I2C engine. -/
def Obligations.LoadIdSelectsTheIdentification : Prop :=
  ∀ s : State, ∃ t, exec .loadId s = .next t ∧
    t = { s with i2c := { s.i2c.afterByte 0x00#8 true with cmd := 0x00#8 }, win := { s.win with readSel := .id, readLen := 5#5 } } ∧
    (s.cfg.Valid → ∀ p : BitVec 5, readOut t p = .ok ([0x49#8, 0x32#8, 0x43#8, 0x45#8, 0x43#8].getD p.toNat 0xFF#8))

/-- LOAD_ADDR, LOAD_TAKEN and LOAD_LENGTH (44 R246 to R248): the window becomes CEC_ADDR in one byte, TAKEN low byte first,
or LENGTH in one byte; past it every byte reads 0xFF; and nothing else changes but the I2C engine. -/
def Obligations.LoadsSelectTheirRegister : Prop :=
  ∀ s : State,
    (∃ t, exec .loadAddr s = .next t ∧
      t = { s with i2c := { s.i2c.afterByte 0x01#8 true with cmd := 0x01#8 }, win := { s.win with readSel := .addr, readLen := 1#5 } } ∧
      ∀ p : BitVec 5, readOut t p = .ok (if p = 0#5 then s.shared.cecAddr.setWidth 8 else 0xFF#8)) ∧
    (∃ t, exec .loadTaken s = .next t ∧
      t = { s with i2c := { s.i2c.afterByte 0x02#8 true with cmd := 0x02#8 }, win := { s.win with readSel := .taken, readLen := 2#5 } } ∧
      ∀ p : BitVec 5, readOut t p =
        .ok (if p = 0#5 then s.shared.taken.extractLsb' 0 8
          else if p = 1#5 then s.shared.taken.extractLsb' 8 8 else 0xFF#8)) ∧
    (∃ t, exec .loadLength s = .next t ∧
      t = { s with i2c := { s.i2c.afterByte 0x03#8 true with cmd := 0x03#8 }, win := { s.win with readSel := .length, readLen := 1#5 } } ∧
      ∀ p : BitVec 5, readOut t p = .ok (if p = 0#5 then s.shared.length.setWidth 8 else 0xFF#8))

/-- LOAD_BUFFER (44 R249): the window becomes BUF[0] to BUF[L - 1], where L is LENGTH now. -/
def Obligations.LoadBufferSelectsTheBuffer : Prop :=
  ∀ s : State, ∃ t, exec .loadBuffer s = .next t ∧
    t = { s with
      i2c := { s.i2c.afterByte 0x04#8 true with cmd := 0x04#8 }
      win := { s.win with readSel := .buffer, readLen := s.shared.length } } ∧
    (s.cfg.Valid → s.shared.length.toNat ≤ 16 →
      ∀ p : BitVec 5, readOut t p = .ok (if p.toNat < s.shared.length.toNat then readMem s.shared.buf p.toNat else 0xFF#8))

/-- A reserved command byte (44 R250): it is NAKed with BAD_CMD and changes no shared state, and after it the engine ignores
the rest of the transaction (43 R209). -/
def Obligations.ReservedCommandIsRefused : Prop :=
  ∀ (s : State) (c : Byte), isReserved c = true → ∃ t, exec (.reservedCommand c) s = .next t ∧
    t = { s with
      i2c := { s.i2c.afterByte c false with cmd := c }
      env := { s.env with events := s.env.events ++ [.badCmd c] } } ∧
    (s.i2c.state = .wrData → s.i2c.bitcnt = 7#4 →
      i2cOn .fall t t = .next { t with i2c := { t.i2c with state := .ignore, bitcnt := 0#4 } })

/-- An action without its payload is a no-op (44 R242, R244). Its command byte, the action's row with no payload byte, is ACKed
and changes only the I2C engine, and so does a START or STOP directly after it. The cycles between that complete no row change only the I2C engine too: a bit of
an unfinished byte (43 R203), the fall into the ACK slot of a written byte, or into IGNORE after a NAK (43 R209), the fall
that ends it (43 R210), and the quiet cycles, which change nothing (43 R214 as the step of 43 R200 has it, log 24). So the
whole transaction, S W(x) c, fewer bits of a payload byte than complete it, and P or Sr, leaves every register but the I2C
engine's as it was; the rise of the P or Sr is one of those bits (43 R203). Its strobes follow each other with no time
between (log 8). -/
def Obligations.ActionWithoutPayloadDoesNothing : Prop :=
  (∀ s : State,
    exec (.setAddr none) s = .next { s with i2c := { s.i2c.afterByte 0x81#8 true with cmd := 0x81#8 } } ∧
    exec (.stage none) s = .next { s with i2c := { s.i2c.afterByte 0x84#8 true with cmd := 0x84#8 } } ∧
    exec (.cecSend none) s = .next { s with i2c := { s.i2c.afterByte 0x85#8 true with cmd := 0x85#8 } } ∧
    exec (.monitorToggle none) s = .next { s with i2c := { s.i2c.afterByte 0x86#8 true with cmd := 0x86#8 } } ∧
    exec (.softReset none) s = .next { s with i2c := { s.i2c.afterByte 0x8F#8 true with cmd := 0x8F#8 } }) ∧
  (∀ (s : State) (sda : Bool) (c : Byte), s.i2c.state = .wrData → s.i2c.bitcnt = 7#4 → s.i2c.byteno = 0#5 →
    c = shiftIn s.i2c.shift sda → isAction c = true →
    i2cOn (.rise sda) s s = .next { s with i2c := { s.i2c.afterByte c true with cmd := c } } ∧
    ∀ i, i = Instr.i2cStart ∨ i = Instr.i2cStop →
      ∃ t, exec i { s with i2c := { s.i2c.afterByte c true with cmd := c } } = .next t ∧
        SameCec s t ∧ t.shared = s.shared ∧ t.win = s.win ∧ t.env = s.env) ∧
  (∀ (s : State) (sda : Bool), s.i2c.state = .addr ∨ s.i2c.state = .wrData →
    (s.i2c.bitcnt.toNat < 7 → i2cOn (.rise sda) s s =
      .next { s with i2c := { s.i2c with shift := shiftIn s.i2c.shift sda, bitcnt := s.i2c.bitcnt + 1 } }) ∧
    (s.i2c.bitcnt.toNat < 8 → i2cOn .fall s s = .next s)) ∧
  (∀ s : State, s.i2c.state = .wrData → s.i2c.bitcnt = 8#4 → i2cOn .fall s s =
    .next { s with i2c :=
      if s.i2c.accept then { s.i2c with bitcnt := 0#4, sdaOe := true, state := .wrAck }
      else { s.i2c with bitcnt := 0#4, state := .ignore } }) ∧
  (∀ s : State, s.i2c.state = .wrAck → i2cOn .fall s s =
    .next { s with i2c := { s.i2c with sdaOe := false, state := .wrData, bitcnt := 0#4 } }) ∧
  (∀ (s : State) (sda : Bool),
    (s.i2c.state = .idle ∨ s.i2c.state = .ignore → i2cOn (.rise sda) s s = .next s ∧ i2cOn .fall s s = .next s) ∧
    (s.i2c.state = .addrAck ∨ s.i2c.state = .wrAck ∨ s.i2c.state = .rdData ∨ s.i2c.state = .rdAcked →
      i2cOn (.rise sda) s s = .next s) ∧
    (s.i2c.state = .rdAck → i2cOn .fall s s = .next s)) ∧
  (∀ (s : State) (c : Byte) (bits : List Bool), isAction c = true → bits.length < 7 →
    (∃ t, runClocks (writeClocks s.cfg [c] ++ bits.flatMap bitClock ++ stopClocks) s = .next t ∧
      t = { s with i2c := t.i2c } ∧ t.i2c.state = .idle ∧ t.i2c.sdaOe = false ∧ t.i2c.cmd = c) ∧
    (∃ t, runClocks (writeClocks s.cfg [c] ++ bits.flatMap bitClock ++ restartClocks) s = .next t ∧
      t = { s with i2c := t.i2c } ∧ t.i2c.state = .addr ∧ t.i2c.bitcnt = 0#4 ∧ t.i2c.sdaOe = false ∧ t.i2c.cmd = c))

/-- PAYLOAD_BYTE number n ≥ 1 (44 R243): under STAGE it is a message byte; under another action payload 1 makes the action
take effect; every other payload byte is NAKed with BAD_CMD and changes nothing else. -/
def Obligations.PayloadByteByItsCommand : Prop :=
  ∀ (s : State) (p : Byte), 1 ≤ s.i2c.byteno.toNat →
    (s.i2c.cmd = 0x84#8 → exec (.payloadByte p) s = exec (.stage (some p)) s) ∧
    (s.i2c.cmd = 0x81#8 → s.i2c.byteno = 1#5 → exec (.payloadByte p) s = exec (.setAddr (some p)) s) ∧
    (s.i2c.cmd = 0x85#8 → s.i2c.byteno = 1#5 → exec (.payloadByte p) s = exec (.cecSend (some p)) s) ∧
    (s.i2c.cmd = 0x86#8 → s.i2c.byteno = 1#5 → exec (.payloadByte p) s = exec (.monitorToggle (some p)) s) ∧
    (s.i2c.cmd = 0x8F#8 → s.i2c.byteno = 1#5 → exec (.payloadByte p) s = exec (.softReset (some p)) s) ∧
    (isAction s.i2c.cmd = false ∨ (s.i2c.cmd ≠ 0x84#8 ∧ 2 ≤ s.i2c.byteno.toNat) →
      exec (.payloadByte p) s = .next { s with
        i2c := s.i2c.afterByte p false
        env := { s.env with events := s.env.events ++ [.badCmd s.i2c.cmd] } })

/-- SET_ADDR's payload byte (44 R251): CEC_ADDR becomes the low nibble of the payload byte, which is ACKed; nothing else changes but the
I2C engine. -/
def Obligations.SetAddrSetsTheCecAddress : Prop :=
  ∀ (s : State) (p : Byte), ∃ t, exec (.setAddr (some p)) s = .next t ∧ t.shared.cecAddr.toNat = p.toNat % 16 ∧
    t = { s with i2c := s.i2c.afterByte p true, shared := { s.shared with cecAddr := t.shared.cecAddr } }

/-- STAGE (44 R252): payload byte n in 1 to 16 goes to BUF[n - 1], LENGTH and WR_IDX become n, and every other byte of BUF
keeps its value; while the receiver owns the buffer, or beyond 16, the byte is NAKed with BUSY and nothing else changes. -/
def Obligations.StageWritesOneByte : Prop :=
  ∀ (s : State) (p : Byte), s.cfg.Valid → 1 ≤ s.i2c.byteno.toNat →
    (s.cec.keep = false → s.i2c.byteno.toNat ≤ 16 → Memory.wf s.shared.buf = true →
      ∃ t, exec (.stage (some p)) s = .next t ∧
        (∀ a, readMem t.shared.buf a = if a + 1 = s.i2c.byteno.toNat then p else readMem s.shared.buf a) ∧
        Memory.wf t.shared.buf = true ∧
        t = { s with
          i2c := s.i2c.afterByte p true
          shared := { s.shared with buf := t.shared.buf, length := s.i2c.byteno }
          win := { s.win with wrIdx := s.i2c.byteno } }) ∧
    (s.cec.keep = true ∨ 16 < s.i2c.byteno.toNat →
      exec (.stage (some p)) s = .next { s with
        i2c := s.i2c.afterByte p false
        env := { s.env with events := s.env.events ++ [.busy 0x84#8] } })

/-- CEC_SEND's payload byte (44 R253): the snapshot of BUF and LENGTH, or a NAK with BUSY that changes nothing else, when a transmission is
pending, the receiver owns the buffer, or LENGTH is 0. -/
def Obligations.CecSendTakesTheSnapshot : Prop :=
  ∀ (s : State) (p : Byte),
    (s.tx.pending = false → s.cec.keep = false → s.shared.length ≠ 0#5 →
      ∃ t, exec (.cecSend (some p)) s = .next t ∧ (∀ a, readMem t.tx.buf a = readMem s.shared.buf a) ∧
        t = { s with
          i2c := s.i2c.afterByte p true
          tx := { s.tx with buf := t.tx.buf, len := s.shared.length, pending := true, retry := 0#8 } }) ∧
    (s.tx.pending = true ∨ s.cec.keep = true ∨ s.shared.length = 0#5 →
      exec (.cecSend (some p)) s = .next { s with
        i2c := s.i2c.afterByte p false
        env := { s.env with events := s.env.events ++ [.busy 0x85#8] } })

/-- MONITOR_TOGGLE's payload byte (44 R254): MONITOR is inverted and the byte ACKed; nothing else changes but the I2C engine. -/
def Obligations.MonitorToggleInvertsMonitor : Prop :=
  ∀ (s : State) (p : Byte), exec (.monitorToggle (some p)) s =
    .next { s with i2c := s.i2c.afterByte p true, shared := { s.shared with monitor := !s.shared.monitor } }

/-- SOFT_RESET's payload byte (44 R255): every register but the I2C engine's and the synchronisers takes its reset value, by its number of
10 R42 (0x0C is the view FLAGS); the I2C engine has only taken the byte, which is ACKed. -/
def Obligations.SoftResetResetsAllButTheI2cEngine : Prop :=
  ∀ (s : State) (p : Byte), ∃ t, exec (.softReset (some p)) s = .next t ∧
    t.cfg = s.cfg ∧ t.sync = s.sync ∧ t.i2c = s.i2c.afterByte p true ∧ t.env = s.env ∧
    (∀ a, readMem t.shared.buf a = 0x00#8 ∧ readMem t.tx.buf a = 0x00#8) ∧
    ∀ id i v, id < 0x20 → id ≠ 0x0C → registerById t id i = some v → v = if id = 0x00 then 0xF else 0

/-! ### The I2C engine (spec 43) -/

/-- START and STOP, in any state of the engine (43 R201, R202): START enters ADDR, releases SDA and clears the bit counter and
I2C_SHIFT; STOP enters IDLE and releases SDA; nothing else changes. THE MODEL'S CHOICE (DEDUCED, log 24): that a STOP in
IGNORE enters IDLE, as the first sentence and the pseudocode of 43 R202 have it, against its corner case, by which it
changes nothing. -/
def Obligations.ConditionsRestartOrEndTheTransaction : Prop :=
  ∀ s : State,
    exec .i2cStart s = .next { s with i2c := { s.i2c with state := .addr, bitcnt := 0#4, shift := 0#8, sdaOe := false } } ∧
    exec .i2cStop s = .next { s with i2c := { s.i2c with state := .idle, sdaOe := false } }

/-- ADDR_WRITE in its three cycles: the 8th rise records the byte, the direction and whether the address is the block's
(43 R203, R204); the fall after it drives the ACK, or leaves a NAK and enters IGNORE (43 R205); the fall that ends the ACK
clock releases SDA for the command byte (43 R206). Nothing else changes. The division into cycles is log 6. -/
def Obligations.AddressWriteInThreeCycles : Prop :=
  ∀ (s : State) (a : BitVec 7),
    (s.i2c.state = .addr → s.i2c.bitcnt = 7#4 → exec (.addrWrite a) s =
      .next { s with i2c := { s.i2c with
        shift := BitVec.ofNat 8 (2 * a.toNat), bitcnt := 8#4, rw := false, accept := decide (a = s.cfg.i2cAddr) } }) ∧
    (s.i2c.state = .addr → s.i2c.bitcnt = 8#4 → exec (.addrWrite a) s =
      .next { s with i2c :=
        if s.i2c.accept then { s.i2c with bitcnt := 0#4, sdaOe := true, state := .addrAck }
        else { s.i2c with bitcnt := 0#4, state := .ignore } }) ∧
    (s.i2c.state = .addrAck → exec (.addrWrite a) s =
      .next { s with i2c := { s.i2c with sdaOe := false, state := .wrData, bitcnt := 0#4, byteno := 0#5 } })

/-- ADDR_READ in its three cycles, the first two as ADDR_WRITE with the direction bit 1 (43 R203 to R205); the fall that ends
the ACK clock starts the read window at index 0: it loads ReadOut(0) and drives its bit 7 at once (43 R207). Nothing else
changes but the model's read trace (log 12). -/
def Obligations.AddressReadInThreeCycles : Prop :=
  ∀ (s : State) (a : BitVec 7),
    (s.i2c.state = .addr → s.i2c.bitcnt = 7#4 → exec (.addrRead a) s =
      .next { s with i2c := { s.i2c with
        shift := BitVec.ofNat 8 (2 * a.toNat + 1), bitcnt := 8#4, rw := true, accept := decide (a = s.cfg.i2cAddr) } }) ∧
    (s.i2c.state = .addr → s.i2c.bitcnt = 8#4 → exec (.addrRead a) s =
      .next { s with i2c :=
        if s.i2c.accept then { s.i2c with bitcnt := 0#4, sdaOe := true, state := .addrAck }
        else { s.i2c with bitcnt := 0#4, state := .ignore } }) ∧
    (∀ x, s.i2c.state = .addrAck → readOut s 0#5 = .ok x → exec (.addrRead a) s =
      .next { s with
        i2c := { s.i2c with rdptr := 0#5, txbyte := x, bitcnt := 0#4, sdaOe := !x.getLsbD 7, state := .rdData }
        env := { s.env with readTrace := s.env.readTrace ++ [x] } })

/-- READ_BYTE in its cycles: the falls that end bit clocks 1 to 7 drive the next bit, the 8th releases SDA and advances the
index (43 R211); the rise in RD_ACK takes the master's answer (43 R212); the fall after an ACK loads ReadOut(I2C_RDPTR)
(43 R213). Nothing else changes but the model's read trace (log 12). -/
def Obligations.ReadByteInItsCycles : Prop :=
  ∀ (s : State) (m : Bool),
    (s.i2c.state = .rdData → s.i2c.bitcnt.toNat < 7 → exec (.readByte m) s =
      .next { s with i2c := { s.i2c with
        bitcnt := s.i2c.bitcnt + 1, sdaOe := !s.i2c.txbyte.getLsbD (6 - s.i2c.bitcnt.toNat) } }) ∧
    (s.i2c.state = .rdData → s.i2c.bitcnt = 7#4 → ∃ t, exec (.readByte m) s = .next t ∧
      t.i2c.rdptr.toNat = min (s.i2c.rdptr.toNat + 1) 31 ∧
      t = { s with i2c := { s.i2c with sdaOe := false, state := .rdAck, bitcnt := 0#4, rdptr := t.i2c.rdptr } }) ∧
    (s.i2c.state = .rdAck → exec (.readByte m) s =
      .next { s with i2c := { s.i2c with state := if m then .ignore else .rdAcked } }) ∧
    (∀ x, s.i2c.state = .rdAcked → readOut s s.i2c.rdptr = .ok x → exec (.readByte m) s =
      .next { s with
        i2c := { s.i2c with txbyte := x, bitcnt := 0#4, sdaOe := !x.getLsbD 7, state := .rdData }
        env := { s.env with readTrace := s.env.readTrace ++ [x] } })

/-! ### The CEC receiver (spec 40, 41) -/

/-- CEC_START_RX (40 R113, 41 R141, R142): in IDLE a pulse of START_MIN or more and less than T_TIMEOUT opens a frame with
its registers cleared; any other pulse only clears the timer. BUF, LENGTH and TAKEN are not touched. -/
def Obligations.StartPulseOpensAFrame : Prop :=
  ∀ (s : State) (l : BitVec 16), s.cec.state = .idle →
    exec (.cecStartRx l) s =
      if s.cfg.tStartLow - s.cfg.tErr ≤ l.toNat ∧ l.toNat < s.cfg.tTimeout then
        .next { s with
          timer := { t := 0#16, pre := 0#16 }
          cec := { s.cec with
            state := .rxWho, bit := 0#4, blk := 0#5, shift := 0#8, eom := false, keep := false, own := false,
            ackpend := false, ackdrv := false } }
      else .next { s with timer := { t := 0#16, pre := 0#16 } }

/-- CEC_BIT_RX at bits 0 to 6 of a block (40 R112, 41 R143): the bit is 1 when the pulse measures less than T_MID; it is
recorded, shifted into CEC_SHIFT and counted, and the edge clears the timer. -/
def Obligations.DataBitsAreShiftedIn : Prop :=
  ∀ (s : State) (l : BitVec 16), s.cec.state = .rxWho ∨ s.cec.state = .rxData → s.cec.bit.toNat < 7 →
    ∃ t, exec (.cecBitRx l) s = .next t ∧
      (t.cec.lastbit = true ↔ l.toNat < s.cfg.tMid) ∧
      t.cec.shift.toNat = (2 * s.cec.shift.toNat + t.cec.lastbit.toNat) % 256 ∧
      t.cec.bit.toNat = s.cec.bit.toNat + 1 ∧
      t = { s with
        timer := { t := 0#16, pre := 0#16 }
        cec := { s.cec with lastbit := t.cec.lastbit, shift := t.cec.shift, bit := t.cec.bit } }

/-- CEC_BIT_RX at bit 7 of the header (41 R144 to R146): the source is recorded in TAKEN; a broadcast, owned or monitored
header goes to BUF[0] with LENGTH 1 and the buffer is taken; any other frame is abandoned with ADDR_MISMATCH. -/
def Obligations.HeaderIsDecidedAtItsLastBit : Prop :=
  ∀ (s : State) (l : BitVec 16) (b : Bool) (h : Byte), s.cfg.Valid → s.cec.state = .rxWho → s.cec.bit = 7#4 →
    Memory.wf s.shared.buf = true → b = decide (l.toNat < s.cfg.tMid) → h = shiftIn s.cec.shift b →
    ∃ t, exec (.cecBitRx l) s = .next t ∧ SameHost s t ∧ t.tx = s.tx ∧ t.timer = { t := 0#16, pre := 0#16 } ∧
      t.shared.taken = s.shared.taken ||| (1#16 <<< (sourceOf h).toNat) ∧
      t.shared.cecAddr = s.shared.cecAddr ∧ t.shared.monitor = s.shared.monitor ∧
      if destinationOf h = 0xF#4 ∨ destinationOf h = s.shared.cecAddr ∨ s.shared.monitor = true then
        t.env = s.env ∧ t.shared.length = 1#5 ∧ Memory.wf t.shared.buf = true ∧
        (∀ a, readMem t.shared.buf a = if a = 0 then h else readMem s.shared.buf a) ∧
        ∃ own : Bool, (own = true ↔ destinationOf h ≠ 0xF#4 ∧ destinationOf h = s.shared.cecAddr) ∧
          t.cec = { s.cec with lastbit := b, shift := h, bit := 8#4, keep := true, own := own, ackpend := own }
      else
        t.env = { s.env with events := s.env.events ++ [.addrMismatch (destinationOf h)] } ∧
        t.shared.length = s.shared.length ∧ t.shared.buf = s.shared.buf ∧
        t.cec = { s.cec with lastbit := b, shift := h, state := .idle }

/-- CEC_BIT_RX at bit 7 of a data block (41 R147): the byte goes to BUF[CEC_BLK] and LENGTH counts it while BUF has a place;
the 17th block ends the frame in OVERRUN with BUF and LENGTH as they are. -/
def Obligations.DataByteIsStoredOrOverruns : Prop :=
  ∀ (s : State) (l : BitVec 16) (b : Bool) (d : Byte), s.cfg.Valid → s.cec.state = .rxData → s.cec.bit = 7#4 →
    Memory.wf s.shared.buf = true → b = decide (l.toNat < s.cfg.tMid) → d = shiftIn s.cec.shift b →
    ∃ t, exec (.cecBitRx l) s = .next t ∧ SameHost s t ∧ t.tx = s.tx ∧ t.timer = { t := 0#16, pre := 0#16 } ∧
      t.shared = { s.shared with buf := t.shared.buf, length := t.shared.length } ∧
      if s.cec.blk.toNat < 16 then
        t.env = s.env ∧ t.shared.length.toNat = s.cec.blk.toNat + 1 ∧ Memory.wf t.shared.buf = true ∧
        (∀ a, readMem t.shared.buf a = if a = s.cec.blk.toNat then d else readMem s.shared.buf a) ∧
        t.cec = { s.cec with lastbit := b, shift := d, bit := 8#4, ackpend := s.cec.own }
      else
        t.env = { s.env with events := s.env.events ++ [.overrun s.cec.blk] } ∧ t.shared = s.shared ∧
        t.cec = { s.cec with
          lastbit := b, shift := d, state := .idle, keep := false, own := false, ackpend := false }

/-- CEC_BIT_RX at bits 8 and 9 (41 R143, R148, R149): bit 8 is stored in CEC_EOM, and a 1 in a header to the block's own
address sets that bit of TAKEN; bit 9 ends the frame when CEC_EOM is 1 and else opens the next block. -/
def Obligations.EomAndAckBitsEndTheBlock : Prop :=
  ∀ (s : State) (l : BitVec 16) (b : Bool), s.cec.state = .rxWho ∨ s.cec.state = .rxData →
    b = decide (l.toNat < s.cfg.tMid) →
    (s.cec.bit = 8#4 → ∃ t, exec (.cecBitRx l) s = .next t ∧
      t = { s with
        timer := { t := 0#16, pre := 0#16 }
        cec := { s.cec with lastbit := b, eom := b, bit := 9#4 }
        shared := { s.shared with taken := t.shared.taken } } ∧
      t.shared.taken =
        if s.cec.state = .rxWho ∧ b = true ∧ destinationOf s.cec.shift = s.shared.cecAddr then
          s.shared.taken ||| (1#16 <<< s.shared.cecAddr.toNat)
        else s.shared.taken) ∧
    (s.cec.bit = 9#4 → exec (.cecBitRx l) s =
      .next { s with
        timer := { t := 0#16, pre := 0#16 }
        cec :=
          if s.cec.eom then { s.cec with lastbit := b, state := .idle, keep := false, own := false }
          else { s.cec with lastbit := b, state := .rxData, blk := s.cec.blk + 1, bit := 0#4 } })

/-- CEC_ACK_DRIVE (41 R151): the fall that opens bit 9 of a block with a pending ACK pulls the line low and clears the timer;
reach(T_0_LOW) releases it. -/
def Obligations.OwnedBlockIsAcked : Prop :=
  ∀ s : State, s.cec.state = .rxWho ∨ s.cec.state = .rxData →
    (s.sync.cec.fall = true → s.cec.bit = 9#4 → s.cec.ackpend = true → exec .cecAckDrive s =
      .next { s with
        timer := { t := 0#16, pre := 0#16 }, cec := { s.cec with oe := true, ackdrv := true, ackpend := false } }) ∧
    (¬(s.sync.cec.fall = true ∧ s.cec.bit = 9#4 ∧ s.cec.ackpend = true) → s.cec.ackdrv = true →
      reach s s.cfg.t0Low = true → exec .cecAckDrive s = .next { s with cec := { s.cec with oe := false, ackdrv := false } })

/-- CEC_HEADER_BLOCK and CEC_PING as ten bits (41 R143 to R151): from the start of a header in RX_WHO, the block records the
source, stores and ACKs or abandons the frame by its destination, records a ping of its own address, and ends the frame
when EOM is 1. The quiet time between two edges is skipped (log 7). -/
def Obligations.HeaderBlockIsReceived : Prop :=
  ∀ (s : State) (src dst : BitVec 4) (eom ack : Bool) (i : Instr),
    i = .cecHeaderBlock src dst eom ack ∨ (i = .cecPing dst ack ∧ src = dst ∧ eom = true) →
    Inv s → s.cec.state = .rxWho → s.cec.bit = 0#4 → s.cec.ackdrv = false → s.cec.oe = false →
    ∃ t, exec i s = .next t ∧ SameHost s t ∧ t.tx = s.tx ∧ t.timer = { t := 0#16, pre := 0#16 } ∧
      t.shared.cecAddr = s.shared.cecAddr ∧ t.shared.monitor = s.shared.monitor ∧
      t.cec.ackpend = false ∧ t.cec.ackdrv = false ∧ portCecOe t = false ∧
      if dst = 0xF#4 ∨ dst = s.shared.cecAddr ∨ s.shared.monitor = true then
        t.env = s.env ∧ t.shared.length = 1#5 ∧
        (∀ a, readMem t.shared.buf a = if a = 0 then src ++ dst else readMem s.shared.buf a) ∧
        t.shared.taken =
          (s.shared.taken ||| (1#16 <<< src.toNat)) |||
            (if eom = true ∧ dst = s.shared.cecAddr then 1#16 <<< dst.toNat else 0#16) ∧
        (if eom then t.cec.state = .idle ∧ t.cec.keep = false ∧ t.cec.own = false
          else t.cec.state = .rxData ∧ t.cec.blk = 1#5 ∧ t.cec.bit = 0#4 ∧ t.cec.keep = true ∧
            (t.cec.own = true ↔ dst ≠ 0xF#4 ∧ dst = s.shared.cecAddr))
      else
        t.env = { s.env with events := s.env.events ++ [.addrMismatch dst] } ∧ t.shared.length = s.shared.length ∧
        t.shared.buf = s.shared.buf ∧ t.shared.taken = s.shared.taken ||| (1#16 <<< src.toNat) ∧ t.cec.state = .idle

/-- CEC_DATA_BLOCK as ten bits (41 R143, R147, R149, R151): from the start of a block in RX_DATA, the byte is stored and
counted, an owned block is ACKed, and the frame ends when EOM is 1; a 17th block ends it in OVERRUN. The quiet time
between two edges is skipped (log 7). -/
def Obligations.DataBlockIsReceived : Prop :=
  ∀ (s : State) (d : Byte) (eom ack : Bool),
    Inv s → s.cec.state = .rxData → s.cec.bit = 0#4 → s.cec.ackdrv = false → s.cec.oe = false →
    ∃ t, exec (.cecDataBlock d eom ack) s = .next t ∧ SameHost s t ∧ t.tx = s.tx ∧ t.timer = { t := 0#16, pre := 0#16 } ∧
      t.shared = { s.shared with buf := t.shared.buf, length := t.shared.length } ∧
      t.cec.ackpend = false ∧ t.cec.ackdrv = false ∧ portCecOe t = false ∧
      if s.cec.blk.toNat < 16 then
        t.env = s.env ∧ t.shared.length.toNat = s.cec.blk.toNat + 1 ∧
        (∀ a, readMem t.shared.buf a = if a = s.cec.blk.toNat then d else readMem s.shared.buf a) ∧
        (if eom then t.cec.state = .idle ∧ t.cec.keep = false ∧ t.cec.own = false
          else t.cec.state = .rxData ∧ t.cec.blk = s.cec.blk + 1 ∧ t.cec.bit = 0#4 ∧ t.cec.keep = true ∧
            t.cec.own = s.cec.own)
      else
        t.env = { s.env with events := s.env.events ++ [.overrun s.cec.blk] } ∧ t.shared = s.shared ∧
        t.cec.state = .idle ∧ t.cec.keep = false ∧ t.cec.own = false

/-! ### The CEC transmitter (spec 40, 42) -/

/-- CEC_START_TX in its three cycles: an attempt starts when IDLE has seen the line high with no edge for T_FREE and a
transmission is pending (42 R171, R172); the line is released at reach(T_START_LOW) (40 R115); the first bit starts at
reach(T_START_TOTAL) (42 R173). Nothing else changes. The division into cycles is log 6. -/
def Obligations.AttemptStartsInThreeCycles : Prop :=
  ∀ s : State, s.cfg.Valid →
    (s.cec.state = .idle → s.tx.pending = true → s.sync.cec.s2 = true → s.sync.cec.p = true →
      s.cfg.tFree ≤ s.timer.t.toNat → exec .cecStartTx s =
      .next { s with
        timer := { t := 0#16, pre := 0#16 }
        cec := { s.cec with state := .txStart, oe := true, bit := 0#4, blk := 0#5 }
        tx := { s.tx with bcast := decide (destinationOf (readMem s.tx.buf 0) = 0xF#4) }
        shared := { s.shared with length := s.tx.len } }) ∧
    (s.cec.state = .txStart → reach s s.cfg.tStartLow = true → exec .cecStartTx s =
      .next { s with cec := { s.cec with oe := false } }) ∧
    (s.cec.state = .txStart → reach s s.cfg.tStartTotal = true → exec .cecStartTx s =
      .next { s with
        timer := { t := 0#16, pre := 0#16 }
        cec := { s.cec with state := .txBit, oe := true, bit := 0#4, blk := 0#5 }
        tx := { s.tx with v := (readMem s.tx.buf 0).getLsbD 7 } })

/-- The block pulls the line for T_1_LOW in a 1 and for T_0_LOW in a 0 (40 R114): CEC_BIT1_TX and CEC_BIT0_TX release it at
that strobe and do nothing else there. The bit's value is the row's, whatever TX_V holds (DEDUCED, log 6). -/
def Obligations.BitsAreReleasedAtTheirLowTime : Prop :=
  ∀ s : State, s.cec.state = .txBit →
    (reach s s.cfg.t1Low = true → exec .cecBit1Tx s = .next { s with cec := { s.cec with oe := false } }) ∧
    (reach s s.cfg.t0Low = true → exec .cecBit0Tx s = .next { s with cec := { s.cec with oe := false } })

/-- The read-back of a data or EOM bit at T_SAMPLE (42 R176, R177): a line that agrees changes nothing; one that disagrees is
a lost arbitration, which releases the line, returns to IDLE, counts the retry and keeps the transmission pending. The bit's
value is the row's, whatever TX_V holds (DEDUCED, log 6). -/
def Obligations.ArbitrationIsCheckedAtTSample : Prop :=
  ∀ (s : State) (v : Bool) (i : Instr), i = (if v then .cecBit1Tx else .cecBit0Tx) → s.cfg.Valid →
    s.cec.state = .txBit → s.cec.bit.toNat ≤ 8 → reach s s.cfg.tMid = true →
    (s.sync.cec.s2 = v → exec i s = .next s) ∧
    (s.sync.cec.s2 ≠ v → ∃ t, exec i s = .next t ∧ t.tx.retry.toNat = min (s.tx.retry.toNat + 1) 255 ∧
      t = { s with
        timer := { t := 0#16, pre := 0#16 }
        cec := { s.cec with oe := false, state := .idle, bit := 0#4, blk := 0#5 }
        shared := { s.shared with length := s.tx.len }
        tx := { s.tx with retry := t.tx.retry }
        env := { s.env with events := s.env.events ++ [.arbLost s.cec.blk s.cec.bit] } })

/-- The read-back of the ACK bit at T_SAMPLE (42 R178, R179): low is a good ACK from one follower and high from a broadcast;
a good ACK counts LENGTH down, records the follower at block 0 and ends the transmission at the last block; a missing one
ends it with NO_ACK and LENGTH as it is. The ACK bit is sent as a 1; TX_V is not asked for it (DEDUCED, log 6). -/
def Obligations.AckIsReadAtTSample : Prop :=
  ∀ s : State, s.cfg.Valid → s.cec.state = .txBit → s.cec.bit = 9#4 → reach s s.cfg.tMid = true →
    s.cec.blk.toNat < s.tx.len.toNat →
    ∃ t, exec .cecBit1Tx s = .next t ∧ SameHost s t ∧
      t.shared = { s.shared with length := t.shared.length, taken := t.shared.taken } ∧
      if s.sync.cec.s2 = s.tx.bcast then
        t.env = s.env ∧ t.shared.length.toNat + (s.cec.blk.toNat + 1) = s.tx.len.toNat ∧
        t.shared.taken =
          (if s.cec.blk = 0#5 ∧ s.tx.bcast = false then
            s.shared.taken ||| (1#16 <<< (destinationOf (readMem s.tx.buf 0)).toNat)
          else s.shared.taken) ∧
        (if s.cec.blk.toNat + 1 = s.tx.len.toNat then
          t.tx = { s.tx with pending := false } ∧ t.timer = { t := 0#16, pre := 0#16 } ∧
            t.cec = { s.cec with state := .idle, bit := 0#4, blk := 0#5 }
        else t.tx = s.tx ∧ t.timer = s.timer ∧ t.cec = s.cec)
      else
        t.env = { s.env with events := s.env.events ++ [.noAck s.cec.blk] } ∧ t.shared = s.shared ∧
        t.tx = { s.tx with pending := false } ∧ t.timer = { t := 0#16, pre := 0#16 } ∧
        t.cec = { s.cec with oe := false, state := .idle, bit := 0#4, blk := 0#5 }

/-- The end of a bit at reach(T_BIT) (42 R174, R175): the next bit starts, of this block or, after bit 9, of the next one;
the line is pulled, the timer cleared and TX_V set to the bit's value, data most significant first, then EOM, then ACK. The ending
bit's value is the row's, whatever TX_V holds (DEDUCED, log 6). -/
def Obligations.NextBitStartsAtTBit : Prop :=
  ∀ (s : State) (v : Bool) (i : Instr) (k j : Nat), i = (if v then .cecBit1Tx else .cecBit0Tx) → s.cfg.Valid →
    s.cec.state = .txBit → s.cec.bit.toNat ≤ 9 → reach s s.cfg.tBit = true →
    k = (if s.cec.bit.toNat < 9 then s.cec.blk.toNat else s.cec.blk.toNat + 1) →
    j = (if s.cec.bit.toNat < 9 then s.cec.bit.toNat + 1 else 0) → k < 16 →
    exec i s =
      .next { s with
        timer := { t := 0#16, pre := 0#16 }
        cec := { s.cec with oe := true, bit := BitVec.ofNat 4 j, blk := BitVec.ofNat 5 k }
        tx := { s.tx with v :=
          if j ≤ 7 then (readMem s.tx.buf k).getLsbD (7 - j)
          else if j = 8 then decide (k + 1 = s.tx.len.toNat) else true } }

/-- CEC_TX_BLOCK as ten bit periods (42 R174 to R178): when the wire carries the bits this block sends and the follower's good
ACK, LENGTH counts the blocks not yet ACKed, the follower is recorded at block 0, and the transmission goes on with the
first bit of the next block, or is done. The operands are what the other devices let the wire carry, and this statement
takes the bits sent (log 22); a lost bit is ArbitrationIsCheckedAtTSample's and a missing ACK AckIsReadAtTSample's. The
quiet time between two strobes is skipped (log 7). -/
def Obligations.AckedBlockIsSent : Prop :=
  ∀ (s : State) (d : Byte) (eom ack : Bool), Inv s → s.cec.state = .txBit → s.cec.bit = 0#4 → s.cec.oe = true →
    d = readMem s.tx.buf s.cec.blk.toNat → s.tx.v = d.getLsbD 7 → eom = decide (s.cec.blk.toNat + 1 = s.tx.len.toNat) →
    ack = s.tx.bcast →
    ∃ t, exec (.cecTxBlock d eom ack) s = .next t ∧ SameHost s t ∧ t.env = s.env ∧
      t.shared = { s.shared with length := t.shared.length, taken := t.shared.taken } ∧
      t.shared.length.toNat + (s.cec.blk.toNat + 1) = s.tx.len.toNat ∧
      t.shared.taken =
        (if s.cec.blk = 0#5 ∧ s.tx.bcast = false then
          s.shared.taken ||| (1#16 <<< (destinationOf (readMem s.tx.buf 0)).toNat)
        else s.shared.taken) ∧
      t.timer = { t := 0#16, pre := 0#16 } ∧
      if eom then
        t.tx = { s.tx with pending := false, v := true } ∧
        t.cec = { s.cec with state := .idle, oe := false, bit := 0#4, blk := 0#5 }
      else
        t.tx = { s.tx with v := (readMem s.tx.buf (s.cec.blk.toNat + 1)).getLsbD 7 } ∧
        t.cec = { s.cec with oe := true, bit := 0#4, blk := s.cec.blk + 1 }

/-! ### Host pseudo-instructions (30 R98) -/

/-- READ_ID returns the five bytes of the identification sequence (30 R98, 44 R245), and changes nothing but the read window
and the I2C engine, which ends in IDLE with SDA released. The master's strobes follow each other with no time between them
(log 8). -/
def Obligations.ReadIdReturnsTheSequence : Prop :=
  ∀ s : State, s.cfg.Valid → ∃ t, exec .readId s = .next t ∧ SameCec s t ∧ t.shared = s.shared ∧
    t.win = { s.win with readSel := .id, readLen := 5#5 } ∧ t.i2c.state = .idle ∧ t.i2c.sdaOe = false ∧
    t.env = { s.env with readTrace := s.env.readTrace ++ [0x49#8, 0x32#8, 0x43#8, 0x45#8, 0x43#8] }

/-- GET_ADDR, GET_TAKEN and GET_LENGTH return their register, TAKEN low byte first (30 R98, 44 R246 to R248), and change
nothing but the read window and the I2C engine (log 8). -/
def Obligations.GettersReturnTheirRegister : Prop :=
  ∀ s : State,
    (∃ t, exec .getAddr s = .next t ∧ SameCec s t ∧ t.shared = s.shared ∧
      t.win = { s.win with readSel := .addr, readLen := 1#5 } ∧ t.i2c.state = .idle ∧ t.i2c.sdaOe = false ∧
      t.env = { s.env with readTrace := s.env.readTrace ++ [s.shared.cecAddr.setWidth 8] }) ∧
    (∃ t, exec .getTaken s = .next t ∧ SameCec s t ∧ t.shared = s.shared ∧
      t.win = { s.win with readSel := .taken, readLen := 2#5 } ∧ t.i2c.state = .idle ∧ t.i2c.sdaOe = false ∧
      t.env = { s.env with readTrace := s.env.readTrace ++
        [s.shared.taken.extractLsb' 0 8, s.shared.taken.extractLsb' 8 8] }) ∧
    (∃ t, exec .getLength s = .next t ∧ SameCec s t ∧ t.shared = s.shared ∧
      t.win = { s.win with readSel := .length, readLen := 1#5 } ∧ t.i2c.state = .idle ∧ t.i2c.sdaOe = false ∧
      t.env = { s.env with readTrace := s.env.readTrace ++ [s.shared.length.setWidth 8] })

/-- GET_BUFFER returns the bytes of BUF up to LENGTH, and 0xFF for what the host reads beyond (30 R98, 44 R241, R249), and
changes nothing but the read window and the I2C engine (log 8). -/
def Obligations.GetBufferReturnsTheMessage : Prop :=
  ∀ (s : State) (n : Nat) (l : List Byte), s.cfg.Valid → 1 ≤ n → n ≤ 16 → s.shared.length.toNat ≤ 16 →
    l = (List.range n).map (fun p => if p < s.shared.length.toNat then readMem s.shared.buf p else 0xFF#8) →
    ∃ t, exec (.getBuffer n) s = .next t ∧ SameCec s t ∧ t.shared = s.shared ∧
      t.win = { s.win with readSel := .buffer, readLen := s.shared.length } ∧ t.i2c.state = .idle ∧ t.i2c.sdaOe = false ∧
      t.env = { s.env with readTrace := s.env.readTrace ++ l }

/-- SET_ADDR a, MONITOR and RESET (30 R98, 44 R251, R254, R255): CEC_ADDR becomes a; MONITOR is inverted; every register but
the I2C engine's and the synchronisers takes its reset value. Each ends with the I2C engine in IDLE (log 8). -/
def Obligations.ActionTransactionsTakeEffect : Prop :=
  ∀ s : State,
    (∀ a : BitVec 4, ∃ t, exec (.setAddrA a) s = .next t ∧ SameCec s t ∧ t.shared = { s.shared with cecAddr := a } ∧
      t.win = s.win ∧ t.env = s.env ∧ t.i2c.state = .idle ∧ t.i2c.sdaOe = false) ∧
    (∃ t, exec .monitor s = .next t ∧ SameCec s t ∧ t.shared = { s.shared with monitor := !s.shared.monitor } ∧
      t.win = s.win ∧ t.env = s.env ∧ t.i2c.state = .idle ∧ t.i2c.sdaOe = false) ∧
    (∃ t, exec .reset s = .next t ∧ t.cfg = s.cfg ∧ t.sync = s.sync ∧ t.env = s.env ∧ t.i2c.state = .idle ∧
      t.i2c.sdaOe = false ∧
      ∀ id i v, id < 0x20 → id ≠ 0x0C → registerById t id i = some v → v = if id = 0x00 then 0xF else 0)

/-- SEND and PING (30 R98, 44 R252, R253): the bytes are staged in BUF with LENGTH and WR_IDX their number, every other byte
of BUF keeps its value, and the transmission of that message is pending; the hypotheses are those under which STAGE and
CEC_SEND are accepted (log 8). -/
def Obligations.SendStagesAndRequests : Prop :=
  ∀ (s : State) (bs : List Byte) (i : Instr),
    i = .send bs ∨ (∃ a : BitVec 4, i = .pingA a ∧ bs = [a ++ a]) →
    s.cfg.Valid → Memory.wf s.shared.buf = true → s.cec.keep = false → s.tx.pending = false → 1 ≤ bs.length → bs.length ≤ 16 →
    ∃ t, exec i s = .next t ∧ t.cfg = s.cfg ∧ t.cec = s.cec ∧ t.timer = s.timer ∧ t.sync = s.sync ∧ t.env = s.env ∧
      t.shared = { s.shared with buf := t.shared.buf, length := BitVec.ofNat 5 bs.length } ∧
      (∀ a, readMem t.shared.buf a = if a < bs.length then bs.getD a 0x00#8 else readMem s.shared.buf a) ∧
      t.win = { s.win with wrIdx := BitVec.ofNat 5 bs.length } ∧
      t.tx = { s.tx with buf := t.shared.buf, len := BitVec.ofNat 5 bs.length, pending := true, retry := 0#8 } ∧
      t.i2c.state = .idle ∧ t.i2c.sdaOe = false
end

