-- ==== Sys2Proof/Laws/Codes.lean ====
section
/-! SUPPORT. The bit fields of the formats: a field read from a word that was put together is the field. -/

namespace Sys2Proof.Machine

@[simp] theorem addressOf_addressByte (a : BitVec 7) (r : Bool) : addressOf (addressByte a r) = a := by
  revert a r; decide

@[simp] theorem readBitOf_addressByte (a : BitVec 7) (r : Bool) : readBitOf (addressByte a r) = r := by
  revert a r; decide

@[simp] theorem addressByte_fields (b : Byte) : addressByte (addressOf b) (readBitOf b) = b := by
  revert b; decide

@[simp] theorem sourceOf_headerByte (s d : BitVec 4) : sourceOf (headerByte s d) = s := by
  revert s d; decide

@[simp] theorem destinationOf_headerByte (s d : BitVec 4) : destinationOf (headerByte s d) = d := by
  revert s d; decide

@[simp] theorem headerByte_fields (b : Byte) : headerByte (sourceOf b) (destinationOf b) = b := by
  revert b; decide

@[simp] theorem lowNibble_append (a : BitVec 4) : lowNibble (0#4 ++ a) = a := by
  revert a; decide

@[simp] theorem blockData_blockWord (d : Byte) (e k : Bool) : blockData (blockWord d e k) = d := by
  revert d e k; decide

@[simp] theorem blockEom_blockWord (d : Byte) (e k : Bool) : blockEom (blockWord d e k) = e := by
  revert d e k; decide

@[simp] theorem blockAck_blockWord (d : Byte) (e k : Bool) : blockAck (blockWord d e k) = k := by
  revert d e k; decide

/-- The bits after one bit is shifted in (41 R143, 43 R203). -/
theorem getLsbD_shiftIn (v : Byte) (b : Bool) (i : Nat) :
    (shiftIn v b).getLsbD i = if i = 0 then b else decide (i < 8) && v.getLsbD (i - 1) := by
  by_cases h : i < 8
  · interval_cases i <;> (revert v b; decide)
  · have h0 : i ≠ 0 := by omega
    simp only [BitVec.getLsbD_of_ge _ _ (Nat.le_of_not_lt h), h0, h, if_false, decide_false, Bool.false_and]

/-- Eight bits shifted in, most significant first, are the byte, whatever was there before (41 R143, 43 R203). -/
theorem foldl_shiftIn_wireBits (v b : Byte) : (wireBits b).foldl shiftIn v = b := by
  apply BitVec.eq_of_getLsbD_eq
  intro i hi
  interval_cases i <;> simp only [wireBits, List.foldl, getLsbD_shiftIn] <;> rfl

/-- A code is of exactly one class: load, action or reserved (30 R85, R93). -/
theorem code_class (c : Byte) :
    (isLoad c = true ∧ isAction c = false ∧ isReserved c = false) ∨
      (isLoad c = false ∧ isAction c = true ∧ isReserved c = false) ∨
      (isLoad c = false ∧ isAction c = false ∧ isReserved c = true) := by
  revert c; decide

end Sys2Proof.Machine
end

