-- ==== Sys2Proof/Laws/Memory.lean ====
section
/-! SUPPORT. The laws of BUF and TX_BUF as memories: a read after a write, and the canonical form. -/

namespace Sys2Proof.Machine

@[simp] theorem readMem_nil (a : Nat) : readMem [] a = unlistedByte := rfl

/-- The canonical form of a nonempty memory, in plain propositions. -/
theorem wf_cons {a : Nat} {v : Byte} {m : Memory} :
    Memory.wf ((a, v) :: m) = true ↔
      a < bufSize ∧ v ≠ unlistedByte ∧ (∀ c ∈ m, a < c.1) ∧ Memory.wf m = true := by
  simp [Memory.wf, and_assoc, Nat.blt_eq]

/-- An index below every listed one reads as unlisted. -/
theorem readMem_of_lt {m : Memory} {a : Nat} (h : ∀ c ∈ m, a < c.1) : readMem m a = unlistedByte := by
  induction m with
  | nil => rfl
  | cons c rest ih =>
    obtain ⟨b, w⟩ := c
    have hb : a < b := h (b, w) (by simp)
    have hrest : ∀ c ∈ rest, a < c.1 := fun c hc => h c (by simp [hc])
    simp [readMem, Nat.ne_of_lt hb, ih hrest]

/-- A write reaches the byte it names. -/
theorem readMem_writeMem_same {m : Memory} (h : Memory.wf m = true) (a : Nat) (v : Byte) :
    readMem (writeMem m a v) a = v := by
  induction m with
  | nil => by_cases hv : v = unlistedByte <;> simp [writeMem, hv, readMem]
  | cons c rest ih =>
    obtain ⟨b, w⟩ := c
    obtain ⟨-, -, hlt, hwf⟩ := wf_cons.1 h
    by_cases hab : a < b
    · by_cases hv : v = unlistedByte
      · have hr : readMem rest a = unlistedByte := readMem_of_lt fun c hc => lt_trans hab (hlt c hc)
        simp [writeMem, hab, hv, readMem, Nat.ne_of_lt hab, hr]
      · simp [writeMem, hab, hv, readMem]
    · by_cases hEq : a = b
      · subst hEq
        by_cases hv : v = unlistedByte
        · simp [writeMem, hv, readMem_of_lt hlt]
        · simp [writeMem, hv, readMem]
      · simp [writeMem, hab, hEq, readMem, ih hwf]

/-- A write leaves every other byte alone, whatever the memory. -/
theorem readMem_writeMem_ne (m : Memory) {a b : Nat} (v : Byte) (h : b ≠ a) :
    readMem (writeMem m a v) b = readMem m b := by
  induction m with
  | nil => by_cases hv : v = unlistedByte <;> simp [writeMem, hv, readMem, h]
  | cons c rest ih =>
    obtain ⟨x, w⟩ := c
    by_cases hax : a < x
    · by_cases hv : v = unlistedByte <;> simp [writeMem, hax, hv, readMem, h]
    · by_cases hEq : a = x
      · subst hEq
        by_cases hv : v = unlistedByte <;> simp [writeMem, hv, readMem, h]
      · by_cases hbx : b = x <;> simp [writeMem, hax, hEq, readMem, hbx, ih]

/-- The indices a write lists are the old ones and the written one. -/
theorem mem_writeMem {m : Memory} {a : Nat} {v : Byte} {c : Host.Cell} (h : c ∈ writeMem m a v) :
    c ∈ m ∨ c = (a, v) := by
  induction m with
  | nil =>
    by_cases hv : v = unlistedByte <;> simp_all [writeMem]
  | cons d rest ih =>
    obtain ⟨b, w⟩ := d
    by_cases hab : a < b
    · by_cases hv : v = unlistedByte <;> (simp_all [writeMem]; try tauto)
    · by_cases hEq : a = b
      · by_cases hv : v = unlistedByte <;> (simp_all [writeMem]; try tauto)
      · simp only [writeMem, hab, hEq, if_false, List.mem_cons] at h
        rcases h with h | h
        · simp [h]
        · rcases ih h with h | h <;> simp [h]

/-- Every write inside the buffer keeps the canonical form. -/
theorem wf_writeMem {m : Memory} (h : Memory.wf m = true) {a : Nat} (ha : a < bufSize) (v : Byte) :
    Memory.wf (writeMem m a v) = true := by
  induction m with
  | nil => by_cases hv : v = unlistedByte <;> simp_all [writeMem, Memory.wf, Nat.blt_eq]
  | cons c rest ih =>
    obtain ⟨b, w⟩ := c
    obtain ⟨hb, hw, hlt, hwf⟩ := wf_cons.1 h
    by_cases hab : a < b
    · by_cases hv : v = unlistedByte
      · simpa [writeMem, hab, hv] using h
      · have hall : ∀ c ∈ (b, w) :: rest, a < c.1 := by
          intro c hc
          rcases List.mem_cons.1 hc with rfl | hc
          · exact hab
          · exact lt_trans hab (hlt c hc)
        simpa [writeMem, hab, hv] using wf_cons.2 ⟨ha, hv, hall, h⟩
    · by_cases hEq : a = b
      · subst hEq
        by_cases hv : v = unlistedByte
        · simpa [writeMem, hv] using hwf
        · simpa [writeMem, hv] using wf_cons.2 ⟨ha, hv, hlt, hwf⟩
      · have hba : b < a := by omega
        have hall : ∀ c ∈ writeMem rest a v, b < c.1 := by
          intro c hc
          rcases mem_writeMem hc with hc | rfl
          · exact hlt c hc
          · exact hba
        simpa [writeMem, hab, hEq] using wf_cons.2 ⟨hb, hw, hall, ih hwf⟩

/-- `BufWrite` keeps BUF in canonical form: a four-bit index is inside the buffer. -/
theorem wf_bufWrite {p : State} (h : Memory.wf p.shared.buf = true) (i : BitVec 4) (v : Byte) (s : State) :
    Memory.wf (bufWrite i v p s).shared.buf = true :=
  wf_writeMem h (by have := i.isLt; simp only [bufSize]; omega) v

/-- The memories of every reset state have the canonical form. -/
theorem wf_reset (c : Config) :
    Memory.wf (State.resetWith c).shared.buf = true ∧ Memory.wf (State.resetWith c).tx.buf = true := ⟨rfl, rfl⟩

end Sys2Proof.Machine
end

