-- ==== Sys2Proof/Laws/State.lean ====
section
/-! SUPPORT. One lemma for each part of the state and each update, so that no later proof unfolds a record update. -/

namespace Sys2Proof.Machine

/-! ### The configuration (00 R7) -/

/-- The values of a valid configuration that 00 R9 lets no model vary. -/
theorem valid_decided {c : Config} (h : c.Valid) :
    c.jiffyUs = 10 ∧ c.timerW = 16 ∧ c.bufCap = 16 ∧ c.cecBcast = 0xF#4 ∧
      c.idSeq = [0x49#8, 0x32#8, 0x43#8, 0x45#8, 0x43#8] :=
  ⟨h.1, h.2.1, h.2.2.1, h.2.2.2.1, h.2.2.2.2.1⟩

/-! ### `emit` (00 R11) -/

@[simp] theorem emit_cfg (e : Event) (s : State) : (emit e s).cfg = s.cfg := rfl
@[simp] theorem emit_shared (e : Event) (s : State) : (emit e s).shared = s.shared := rfl
@[simp] theorem emit_win (e : Event) (s : State) : (emit e s).win = s.win := rfl
@[simp] theorem emit_timer (e : Event) (s : State) : (emit e s).timer = s.timer := rfl
@[simp] theorem emit_cec (e : Event) (s : State) : (emit e s).cec = s.cec := rfl
@[simp] theorem emit_tx (e : Event) (s : State) : (emit e s).tx = s.tx := rfl
@[simp] theorem emit_i2c (e : Event) (s : State) : (emit e s).i2c = s.i2c := rfl
@[simp] theorem emit_sync (e : Event) (s : State) : (emit e s).sync = s.sync := rfl
@[simp] theorem emit_env (e : Event) (s : State) : (emit e s).env = { s.env with events := s.env.events ++ [e] } := rfl

/-! ### `BufWrite` (20 R60) -/

@[simp] theorem bufWrite_cfg (i : BitVec 4) (v : Byte) (p s : State) : (bufWrite i v p s).cfg = s.cfg := rfl
@[simp] theorem bufWrite_shared (i : BitVec 4) (v : Byte) (p s : State) : (bufWrite i v p s).shared = { s.shared with buf := writeMem p.shared.buf i.toNat v } := rfl
@[simp] theorem bufWrite_win (i : BitVec 4) (v : Byte) (p s : State) : (bufWrite i v p s).win = s.win := rfl
@[simp] theorem bufWrite_timer (i : BitVec 4) (v : Byte) (p s : State) : (bufWrite i v p s).timer = s.timer := rfl
@[simp] theorem bufWrite_cec (i : BitVec 4) (v : Byte) (p s : State) : (bufWrite i v p s).cec = s.cec := rfl
@[simp] theorem bufWrite_tx (i : BitVec 4) (v : Byte) (p s : State) : (bufWrite i v p s).tx = s.tx := rfl
@[simp] theorem bufWrite_i2c (i : BitVec 4) (v : Byte) (p s : State) : (bufWrite i v p s).i2c = s.i2c := rfl
@[simp] theorem bufWrite_sync (i : BitVec 4) (v : Byte) (p s : State) : (bufWrite i v p s).sync = s.sync := rfl
@[simp] theorem bufWrite_env (i : BitVec 4) (v : Byte) (p s : State) : (bufWrite i v p s).env = s.env := rfl

/-! ### A timer clear (45 R275) -/

@[simp] theorem clearTimer_cfg (s : State) : (clearTimer s).cfg = s.cfg := rfl
@[simp] theorem clearTimer_shared (s : State) : (clearTimer s).shared = s.shared := rfl
@[simp] theorem clearTimer_win (s : State) : (clearTimer s).win = s.win := rfl
@[simp] theorem clearTimer_timer (s : State) : (clearTimer s).timer = { t := 0#16, pre := 0#16 } := rfl
@[simp] theorem clearTimer_cec (s : State) : (clearTimer s).cec = s.cec := rfl
@[simp] theorem clearTimer_tx (s : State) : (clearTimer s).tx = s.tx := rfl
@[simp] theorem clearTimer_i2c (s : State) : (clearTimer s).i2c = s.i2c := rfl
@[simp] theorem clearTimer_sync (s : State) : (clearTimer s).sync = s.sync := rfl
@[simp] theorem clearTimer_env (s : State) : (clearTimer s).env = s.env := rfl

/-! ### Quiet cycles up to reach(n) (log 7) -/

@[simp] theorem waitReach_cfg (n : Nat) (s : State) : (waitReach n s).cfg = s.cfg := rfl
@[simp] theorem waitReach_shared (n : Nat) (s : State) : (waitReach n s).shared = s.shared := rfl
@[simp] theorem waitReach_win (n : Nat) (s : State) : (waitReach n s).win = s.win := rfl
@[simp] theorem waitReach_timer (n : Nat) (s : State) : (waitReach n s).timer = { t := BitVec.ofNat 16 (n - 1), pre := BitVec.ofNat 16 (s.cfg.jiffyCycles - 1) } := rfl
@[simp] theorem waitReach_cec (n : Nat) (s : State) : (waitReach n s).cec = s.cec := rfl
@[simp] theorem waitReach_tx (n : Nat) (s : State) : (waitReach n s).tx = s.tx := rfl
@[simp] theorem waitReach_i2c (n : Nat) (s : State) : (waitReach n s).i2c = s.i2c := rfl
@[simp] theorem waitReach_sync (n : Nat) (s : State) : (waitReach n s).sync = s.sync := rfl
@[simp] theorem waitReach_env (n : Nat) (s : State) : (waitReach n s).env = s.env := rfl

/-! ### What every cycle does (40 R110, 10 R40) -/

@[simp] theorem background_cfg (s : State) : (background s).cfg = s.cfg := rfl
@[simp] theorem background_shared (s : State) : (background s).shared = s.shared := rfl
@[simp] theorem background_win (s : State) : (background s).win = s.win := rfl
@[simp] theorem background_timer (s : State) : (background s).timer = tickTimer s := rfl
@[simp] theorem background_cec (s : State) : (background s).cec = s.cec := rfl
@[simp] theorem background_tx (s : State) : (background s).tx = s.tx := rfl
@[simp] theorem background_i2c (s : State) : (background s).i2c = s.i2c := rfl
@[simp] theorem background_sync (s : State) : (background s).sync = shiftSyncs s := rfl
@[simp] theorem background_env (s : State) : (background s).env = nextEnv s := rfl

/-! ### The ACK decision (44 R242, R243) -/

@[simp] theorem setAccept_cfg (ok : Bool) (s : State) : (setAccept ok s).cfg = s.cfg := rfl
@[simp] theorem setAccept_shared (ok : Bool) (s : State) : (setAccept ok s).shared = s.shared := rfl
@[simp] theorem setAccept_win (ok : Bool) (s : State) : (setAccept ok s).win = s.win := rfl
@[simp] theorem setAccept_timer (ok : Bool) (s : State) : (setAccept ok s).timer = s.timer := rfl
@[simp] theorem setAccept_cec (ok : Bool) (s : State) : (setAccept ok s).cec = s.cec := rfl
@[simp] theorem setAccept_tx (ok : Bool) (s : State) : (setAccept ok s).tx = s.tx := rfl
@[simp] theorem setAccept_i2c (ok : Bool) (s : State) : (setAccept ok s).i2c = { s.i2c with accept := ok } := rfl
@[simp] theorem setAccept_sync (ok : Bool) (s : State) : (setAccept ok s).sync = s.sync := rfl
@[simp] theorem setAccept_env (ok : Bool) (s : State) : (setAccept ok s).env = s.env := rfl

/-! ### The command byte (44 R242) -/

@[simp] theorem setCommand_cfg (c : Byte) (s : State) : (setCommand c s).cfg = s.cfg := rfl
@[simp] theorem setCommand_shared (c : Byte) (s : State) : (setCommand c s).shared = s.shared := rfl
@[simp] theorem setCommand_win (c : Byte) (s : State) : (setCommand c s).win = s.win := rfl
@[simp] theorem setCommand_timer (c : Byte) (s : State) : (setCommand c s).timer = s.timer := rfl
@[simp] theorem setCommand_cec (c : Byte) (s : State) : (setCommand c s).cec = s.cec := rfl
@[simp] theorem setCommand_tx (c : Byte) (s : State) : (setCommand c s).tx = s.tx := rfl
@[simp] theorem setCommand_i2c (c : Byte) (s : State) : (setCommand c s).i2c = { s.i2c with cmd := c } := rfl
@[simp] theorem setCommand_sync (c : Byte) (s : State) : (setCommand c s).sync = s.sync := rfl
@[simp] theorem setCommand_env (c : Byte) (s : State) : (setCommand c s).env = s.env := rfl

/-! ### `sample()` (43 R203) -/

@[simp] theorem sampleBit_cfg (b : Bool) (p s : State) : (sampleBit b p s).cfg = s.cfg := rfl
@[simp] theorem sampleBit_shared (b : Bool) (p s : State) : (sampleBit b p s).shared = s.shared := rfl
@[simp] theorem sampleBit_win (b : Bool) (p s : State) : (sampleBit b p s).win = s.win := rfl
@[simp] theorem sampleBit_timer (b : Bool) (p s : State) : (sampleBit b p s).timer = s.timer := rfl
@[simp] theorem sampleBit_cec (b : Bool) (p s : State) : (sampleBit b p s).cec = s.cec := rfl
@[simp] theorem sampleBit_tx (b : Bool) (p s : State) : (sampleBit b p s).tx = s.tx := rfl
@[simp] theorem sampleBit_i2c (b : Bool) (p s : State) : (sampleBit b p s).i2c = { s.i2c with shift := shiftIn p.i2c.shift b, bitcnt := p.i2c.bitcnt + 1 } := rfl
@[simp] theorem sampleBit_sync (b : Bool) (p s : State) : (sampleBit b p s).sync = s.sync := rfl
@[simp] theorem sampleBit_env (b : Bool) (p s : State) : (sampleBit b p s).env = s.env := rfl

/-! ### The 8th `sample()` (43 R203) -/

@[simp] theorem byteArrives_cfg (b : Byte) (p s : State) : (byteArrives b p s).cfg = s.cfg := rfl
@[simp] theorem byteArrives_shared (b : Byte) (p s : State) : (byteArrives b p s).shared = s.shared := rfl
@[simp] theorem byteArrives_win (b : Byte) (p s : State) : (byteArrives b p s).win = s.win := rfl
@[simp] theorem byteArrives_timer (b : Byte) (p s : State) : (byteArrives b p s).timer = s.timer := rfl
@[simp] theorem byteArrives_cec (b : Byte) (p s : State) : (byteArrives b p s).cec = s.cec := rfl
@[simp] theorem byteArrives_tx (b : Byte) (p s : State) : (byteArrives b p s).tx = s.tx := rfl
@[simp] theorem byteArrives_i2c (b : Byte) (p s : State) : (byteArrives b p s).i2c = { s.i2c with shift := b, bitcnt := p.i2c.bitcnt + 1 } := rfl
@[simp] theorem byteArrives_sync (b : Byte) (p s : State) : (byteArrives b p s).sync = s.sync := rfl
@[simp] theorem byteArrives_env (b : Byte) (p s : State) : (byteArrives b p s).env = s.env := rfl

/-! ### `byte_done()` (43 R208) -/

@[simp] theorem dataByteArrives_cfg (b : Byte) (p s : State) : (dataByteArrives b p s).cfg = s.cfg := rfl
@[simp] theorem dataByteArrives_shared (b : Byte) (p s : State) : (dataByteArrives b p s).shared = s.shared := rfl
@[simp] theorem dataByteArrives_win (b : Byte) (p s : State) : (dataByteArrives b p s).win = s.win := rfl
@[simp] theorem dataByteArrives_timer (b : Byte) (p s : State) : (dataByteArrives b p s).timer = s.timer := rfl
@[simp] theorem dataByteArrives_cec (b : Byte) (p s : State) : (dataByteArrives b p s).cec = s.cec := rfl
@[simp] theorem dataByteArrives_tx (b : Byte) (p s : State) : (dataByteArrives b p s).tx = s.tx := rfl
@[simp] theorem dataByteArrives_i2c (b : Byte) (p s : State) : (dataByteArrives b p s).i2c = { s.i2c with shift := b, bitcnt := p.i2c.bitcnt + 1, byteno := satInc p.i2c.byteno } := rfl
@[simp] theorem dataByteArrives_sync (b : Byte) (p s : State) : (dataByteArrives b p s).sync = s.sync := rfl
@[simp] theorem dataByteArrives_env (b : Byte) (p s : State) : (dataByteArrives b p s).env = s.env := rfl

/-! ### `start()` (43 R201) -/

@[simp] theorem i2cStartCondition_cfg (s : State) : (i2cStartCondition s).cfg = s.cfg := rfl
@[simp] theorem i2cStartCondition_shared (s : State) : (i2cStartCondition s).shared = s.shared := rfl
@[simp] theorem i2cStartCondition_win (s : State) : (i2cStartCondition s).win = s.win := rfl
@[simp] theorem i2cStartCondition_timer (s : State) : (i2cStartCondition s).timer = s.timer := rfl
@[simp] theorem i2cStartCondition_cec (s : State) : (i2cStartCondition s).cec = s.cec := rfl
@[simp] theorem i2cStartCondition_tx (s : State) : (i2cStartCondition s).tx = s.tx := rfl
@[simp] theorem i2cStartCondition_i2c (s : State) : (i2cStartCondition s).i2c = { s.i2c with state := .addr, bitcnt := 0#4, shift := 0#8, sdaOe := false } := rfl
@[simp] theorem i2cStartCondition_sync (s : State) : (i2cStartCondition s).sync = s.sync := rfl
@[simp] theorem i2cStartCondition_env (s : State) : (i2cStartCondition s).env = s.env := rfl

/-! ### `stop()` (43 R202) -/

@[simp] theorem i2cStopCondition_cfg (s : State) : (i2cStopCondition s).cfg = s.cfg := rfl
@[simp] theorem i2cStopCondition_shared (s : State) : (i2cStopCondition s).shared = s.shared := rfl
@[simp] theorem i2cStopCondition_win (s : State) : (i2cStopCondition s).win = s.win := rfl
@[simp] theorem i2cStopCondition_timer (s : State) : (i2cStopCondition s).timer = s.timer := rfl
@[simp] theorem i2cStopCondition_cec (s : State) : (i2cStopCondition s).cec = s.cec := rfl
@[simp] theorem i2cStopCondition_tx (s : State) : (i2cStopCondition s).tx = s.tx := rfl
@[simp] theorem i2cStopCondition_i2c (s : State) : (i2cStopCondition s).i2c = { s.i2c with state := .idle, sdaOe := false } := rfl
@[simp] theorem i2cStopCondition_sync (s : State) : (i2cStopCondition s).sync = s.sync := rfl
@[simp] theorem i2cStopCondition_env (s : State) : (i2cStopCondition s).env = s.env := rfl

/-! ### `to_write()` (43 R206) -/

@[simp] theorem toWrite_cfg (s : State) : (toWrite s).cfg = s.cfg := rfl
@[simp] theorem toWrite_shared (s : State) : (toWrite s).shared = s.shared := rfl
@[simp] theorem toWrite_win (s : State) : (toWrite s).win = s.win := rfl
@[simp] theorem toWrite_timer (s : State) : (toWrite s).timer = s.timer := rfl
@[simp] theorem toWrite_cec (s : State) : (toWrite s).cec = s.cec := rfl
@[simp] theorem toWrite_tx (s : State) : (toWrite s).tx = s.tx := rfl
@[simp] theorem toWrite_i2c (s : State) : (toWrite s).i2c = { s.i2c with sdaOe := false, state := .wrData, bitcnt := 0#4, byteno := 0#5 } := rfl
@[simp] theorem toWrite_sync (s : State) : (toWrite s).sync = s.sync := rfl
@[simp] theorem toWrite_env (s : State) : (toWrite s).env = s.env := rfl

/-! ### `ack_end()` (43 R210) -/

@[simp] theorem ackEnd_cfg (s : State) : (ackEnd s).cfg = s.cfg := rfl
@[simp] theorem ackEnd_shared (s : State) : (ackEnd s).shared = s.shared := rfl
@[simp] theorem ackEnd_win (s : State) : (ackEnd s).win = s.win := rfl
@[simp] theorem ackEnd_timer (s : State) : (ackEnd s).timer = s.timer := rfl
@[simp] theorem ackEnd_cec (s : State) : (ackEnd s).cec = s.cec := rfl
@[simp] theorem ackEnd_tx (s : State) : (ackEnd s).tx = s.tx := rfl
@[simp] theorem ackEnd_i2c (s : State) : (ackEnd s).i2c = { s.i2c with sdaOe := false, state := .wrData, bitcnt := 0#4 } := rfl
@[simp] theorem ackEnd_sync (s : State) : (ackEnd s).sync = s.sync := rfl
@[simp] theorem ackEnd_env (s : State) : (ackEnd s).env = s.env := rfl

/-! ### The load of a read byte (43 R207, R213) -/

@[simp] theorem startReadByte_cfg (x : Byte) (s : State) : (startReadByte x s).cfg = s.cfg := rfl
@[simp] theorem startReadByte_shared (x : Byte) (s : State) : (startReadByte x s).shared = s.shared := rfl
@[simp] theorem startReadByte_win (x : Byte) (s : State) : (startReadByte x s).win = s.win := rfl
@[simp] theorem startReadByte_timer (x : Byte) (s : State) : (startReadByte x s).timer = s.timer := rfl
@[simp] theorem startReadByte_cec (x : Byte) (s : State) : (startReadByte x s).cec = s.cec := rfl
@[simp] theorem startReadByte_tx (x : Byte) (s : State) : (startReadByte x s).tx = s.tx := rfl
@[simp] theorem startReadByte_i2c (x : Byte) (s : State) : (startReadByte x s).i2c = { s.i2c with txbyte := x, bitcnt := 0#4, sdaOe := !x.getLsbD 7, state := .rdData } := rfl
@[simp] theorem startReadByte_sync (x : Byte) (s : State) : (startReadByte x s).sync = s.sync := rfl
@[simp] theorem startReadByte_env (x : Byte) (s : State) : (startReadByte x s).env = { s.env with readTrace := s.env.readTrace ++ [x] } := rfl

/-! ### `frame_init()` (41 R142) -/

@[simp] theorem frameInit_cfg (s : State) : (frameInit s).cfg = s.cfg := rfl
@[simp] theorem frameInit_shared (s : State) : (frameInit s).shared = s.shared := rfl
@[simp] theorem frameInit_win (s : State) : (frameInit s).win = s.win := rfl
@[simp] theorem frameInit_timer (s : State) : (frameInit s).timer = s.timer := rfl
@[simp] theorem frameInit_cec (s : State) : (frameInit s).cec = 
      { s.cec with
        state := .rxWho, bit := 0#4, blk := 0#5, shift := 0#8, eom := false, keep := false, own := false,
        ackpend := false, ackdrv := false } := rfl
@[simp] theorem frameInit_tx (s : State) : (frameInit s).tx = s.tx := rfl
@[simp] theorem frameInit_i2c (s : State) : (frameInit s).i2c = s.i2c := rfl
@[simp] theorem frameInit_sync (s : State) : (frameInit s).sync = s.sync := rfl
@[simp] theorem frameInit_env (s : State) : (frameInit s).env = s.env := rfl

/-! ### `ack_drive_start()` (41 R151) -/

@[simp] theorem ackDriveStart_cfg (s : State) : (ackDriveStart s).cfg = s.cfg := rfl
@[simp] theorem ackDriveStart_shared (s : State) : (ackDriveStart s).shared = s.shared := rfl
@[simp] theorem ackDriveStart_win (s : State) : (ackDriveStart s).win = s.win := rfl
@[simp] theorem ackDriveStart_timer (s : State) : (ackDriveStart s).timer = { t := 0#16, pre := 0#16 } := rfl
@[simp] theorem ackDriveStart_cec (s : State) : (ackDriveStart s).cec = { s.cec with oe := true, ackdrv := true, ackpend := false } := rfl
@[simp] theorem ackDriveStart_tx (s : State) : (ackDriveStart s).tx = s.tx := rfl
@[simp] theorem ackDriveStart_i2c (s : State) : (ackDriveStart s).i2c = s.i2c := rfl
@[simp] theorem ackDriveStart_sync (s : State) : (ackDriveStart s).sync = s.sync := rfl
@[simp] theorem ackDriveStart_env (s : State) : (ackDriveStart s).env = s.env := rfl

/-! ### `ack_drive_end()` (41 R151) -/

@[simp] theorem ackDriveEnd_cfg (s : State) : (ackDriveEnd s).cfg = s.cfg := rfl
@[simp] theorem ackDriveEnd_shared (s : State) : (ackDriveEnd s).shared = s.shared := rfl
@[simp] theorem ackDriveEnd_win (s : State) : (ackDriveEnd s).win = s.win := rfl
@[simp] theorem ackDriveEnd_timer (s : State) : (ackDriveEnd s).timer = s.timer := rfl
@[simp] theorem ackDriveEnd_cec (s : State) : (ackDriveEnd s).cec = { s.cec with oe := false, ackdrv := false } := rfl
@[simp] theorem ackDriveEnd_tx (s : State) : (ackDriveEnd s).tx = s.tx := rfl
@[simp] theorem ackDriveEnd_i2c (s : State) : (ackDriveEnd s).i2c = s.i2c := rfl
@[simp] theorem ackDriveEnd_sync (s : State) : (ackDriveEnd s).sync = s.sync := rfl
@[simp] theorem ackDriveEnd_env (s : State) : (ackDriveEnd s).env = s.env := rfl

/-! ### The release of the CEC line (40 R114) -/

@[simp] theorem releaseCec_cfg (s : State) : (releaseCec s).cfg = s.cfg := rfl
@[simp] theorem releaseCec_shared (s : State) : (releaseCec s).shared = s.shared := rfl
@[simp] theorem releaseCec_win (s : State) : (releaseCec s).win = s.win := rfl
@[simp] theorem releaseCec_timer (s : State) : (releaseCec s).timer = s.timer := rfl
@[simp] theorem releaseCec_cec (s : State) : (releaseCec s).cec = { s.cec with oe := false } := rfl
@[simp] theorem releaseCec_tx (s : State) : (releaseCec s).tx = s.tx := rfl
@[simp] theorem releaseCec_i2c (s : State) : (releaseCec s).i2c = s.i2c := rfl
@[simp] theorem releaseCec_sync (s : State) : (releaseCec s).sync = s.sync := rfl
@[simp] theorem releaseCec_env (s : State) : (releaseCec s).env = s.env := rfl

/-! ### SOFT_RESET (44 R255) -/

@[simp] theorem softResetRegisters_cfg (s : State) : (softResetRegisters s).cfg = s.cfg := rfl
@[simp] theorem softResetRegisters_shared (s : State) : (softResetRegisters s).shared = (State.resetWith s.cfg).shared := rfl
@[simp] theorem softResetRegisters_win (s : State) : (softResetRegisters s).win = (State.resetWith s.cfg).win := rfl
@[simp] theorem softResetRegisters_timer (s : State) : (softResetRegisters s).timer = (State.resetWith s.cfg).timer := rfl
@[simp] theorem softResetRegisters_cec (s : State) : (softResetRegisters s).cec = (State.resetWith s.cfg).cec := rfl
@[simp] theorem softResetRegisters_tx (s : State) : (softResetRegisters s).tx = (State.resetWith s.cfg).tx := rfl
@[simp] theorem softResetRegisters_i2c (s : State) : (softResetRegisters s).i2c = s.i2c := rfl
@[simp] theorem softResetRegisters_sync (s : State) : (softResetRegisters s).sync = s.sync := rfl
@[simp] theorem softResetRegisters_env (s : State) : (softResetRegisters s).env = s.env := rfl

/-! ### Reset (70 R330) -/

@[simp] theorem hardReset_cfg (s : State) : (hardReset s).cfg = s.cfg := rfl
@[simp] theorem hardReset_shared (s : State) : (hardReset s).shared = (State.resetWith s.cfg).shared := rfl
@[simp] theorem hardReset_win (s : State) : (hardReset s).win = (State.resetWith s.cfg).win := rfl
@[simp] theorem hardReset_timer (s : State) : (hardReset s).timer = (State.resetWith s.cfg).timer := rfl
@[simp] theorem hardReset_cec (s : State) : (hardReset s).cec = (State.resetWith s.cfg).cec := rfl
@[simp] theorem hardReset_tx (s : State) : (hardReset s).tx = (State.resetWith s.cfg).tx := rfl
@[simp] theorem hardReset_i2c (s : State) : (hardReset s).i2c = (State.resetWith s.cfg).i2c := rfl
@[simp] theorem hardReset_sync (s : State) : (hardReset s).sync = (State.resetWith s.cfg).sync := rfl
@[simp] theorem hardReset_env (s : State) : (hardReset s).env = nextEnv s := rfl

end Sys2Proof.Machine
end

