-- ==== Sys2Proof/Laws/Ops.lean ====
section
/-! SUPPORT. One lemma for each shared operation, saying once what it can do. -/

namespace Sys2Proof.Machine

/-! ### Sequencing -/

@[simp] theorem andThen_next (s : State) (f : State → Result) : andThen (.next s) f = f s := rfl
@[simp] theorem andThen_fault (x : Fault) (f : State → Result) : andThen (.fault x) f = .fault x := rfl
@[simp] theorem andThen_refused (x : Refusal) (f : State → Result) : andThen (.refused x) f = .refused x := rfl

/-- A sequence answers a next state when both its parts do. -/
theorem andThen_eq_next {r : Result} {f : State → Result} {t : State} :
    andThen r f = .next t ↔ ∃ s, r = .next s ∧ f s = .next t := by
  cases r <;> simp

/-- Running one sequence after another is one sequence. -/
theorem andThen_assoc (r : Result) (f g : State → Result) :
    andThen (andThen r f) g = andThen r fun s => andThen (f s) g := by
  cases r <;> rfl

@[simp] theorem feed_nil {α : Type} (f : α → State → Result) (s : State) : feed f [] s = .next s := rfl

@[simp] theorem feed_cons {α : Type} (f : α → State → Result) (a : α) (l : List α) (s : State) :
    feed f (a :: l) s = andThen (f a s) (feed f l) := rfl

/-- Feeding two lists is feeding the first and then the second. -/
theorem feed_append {α : Type} (f : α → State → Result) (l₁ l₂ : List α) (s : State) :
    feed f (l₁ ++ l₂) s = andThen (feed f l₁ s) (feed f l₂) := by
  induction l₁ generalizing s with
  | nil => rfl
  | cons a rest ih =>
    simp only [List.cons_append, feed_cons, andThen_assoc]
    congr 1
    funext t
    exact ih t

/-! ### The rows of the actions (44 R242, R243) -/

@[simp] theorem applyAction_none (c : Byte) (effect : Byte → State → State → Result) (p a : State) :
    applyAction c effect none p a = .next (actionCommandByte c p a) := rfl
@[simp] theorem applyAction_some (c : Byte) (effect : Byte → State → State → Result) (b : Byte) (p a : State) :
    applyAction c effect (some b) p a = effect b p a := rfl

/-! ### The read window (44 R241) -/

/-- Outside the window a byte reads 0xFF. -/
theorem readOut_outside {s : State} {p : BitVec 5} (h : s.win.readLen.toNat ≤ p.toNat) : readOut s p = .ok 0xFF#8 := by
  simp [readOut, h]

/-- A window no longer than its source never faults. -/
theorem readOut_ok {s : State} (hv : s.cfg.Valid) (hsel : s.win.readSel ≠ .unused6 ∧ s.win.readSel ≠ .unused7)
    (hlen : s.win.readSel = .id → s.win.readLen.toNat ≤ 5) (hbuf : s.win.readSel = .buffer → s.win.readLen.toNat ≤ 16)
    (p : BitVec 5) : ∃ b, readOut s p = .ok b := by
  by_cases h : s.win.readLen.toNat ≤ p.toNat
  · exact ⟨_, readOut_outside h⟩
  · obtain ⟨-, -, hcap, -, hid⟩ := valid_decided hv
    rw [Nat.not_le] at h
    simp only [readOut, Nat.not_le.2 h, if_false]
    cases hs : s.win.readSel with
    | id =>
      have hp : p.toNat < 5 := lt_of_lt_of_le h (hlen hs)
      have hp' : p.toNat < s.cfg.idSeq.length := hid ▸ hp
      simp only [List.getElem?_eq_getElem hp']
      exact ⟨_, rfl⟩
    | buffer =>
      have hp : p.toNat < s.cfg.bufCap := hcap ▸ lt_of_lt_of_le h (hbuf hs)
      simp only [hp, if_true]
      exact ⟨_, rfl⟩
    | unused6 => exact absurd hs hsel.1
    | unused7 => exact absurd hs hsel.2
    | _ => exact ⟨_, rfl⟩

/-! ### Transmitted bits (42 R173, R175) -/

/-- Starting a bit of a block that TX_BUF has never faults; the bit's value goes into TX_V. -/
theorem startTxBit_ok {k : Nat} {pre : State} (hk : k < pre.cfg.bufCap) (j : Nat) (acc : State) :
    ∃ v, txBitValue pre k j = .ok v ∧
      startTxBit k j pre acc =
        .next (clearTimer { acc with
          cec := { acc.cec with state := .txBit, bit := BitVec.ofNat 4 j, blk := BitVec.ofNat 5 k, oe := true }
          tx := { acc.tx with v := v } }) := by
  have h : ∃ v, txBitValue pre k j = .ok v := by
    simp only [txBitValue, hk, if_true]
    split
    · exact ⟨_, rfl⟩
    · split <;> exact ⟨_, rfl⟩
  obtain ⟨v, hv⟩ := h
  exact ⟨v, hv, by simp [startTxBit, hv]⟩

/-! ### The timer (45 R274) -/

/-- After the quiet cycles up to reach(n), exactly that strobe is true. -/
theorem reach_waitReach {s : State} {n m : Nat} (hn : 1 ≤ n) (hn' : n ≤ 65536)
    (hj : 1 ≤ s.cfg.jiffyCycles) (hj' : s.cfg.jiffyCycles ≤ 65536) :
    reach (waitReach n s) m = decide (n = m) := by
  have h1 : (BitVec.ofNat 16 (s.cfg.jiffyCycles - 1)).toNat + 1 = s.cfg.jiffyCycles := by
    simp only [BitVec.toNat_ofNat]; omega
  have h2 : (BitVec.ofNat 16 (n - 1)).toNat + 1 = n := by simp only [BitVec.toNat_ofNat]; omega
  simp only [reach, jiffyEnds, waitReach_timer, waitReach_cfg, h1, h2, beq_self_eq_true, Bool.true_and]
  by_cases hnm : n = m <;> simp [hnm]

/-! ### The synchronisers (10 R40, 45 R270) -/

/-- A pin's rise and fall exclude each other (45 R276). -/
theorem rise_fall_exclusive (x : Sync) : ¬(x.rise = true ∧ x.fall = true) := by
  simp only [Sync.rise, Sync.fall]
  cases x.p <;> cases x.s2 <;> decide

/-- A wire that this block pulls is captured low, unless it is changing and the pull has not yet been captured (70 R338). -/
theorem captured_of_oe {l : Line} {last : Bool} (h : l ≠ .changing ∨ last = false) (free : Bool) :
    captured l true last free = false := by
  cases l <;> simp_all [captured]

end Sys2Proof.Machine
end

