-- ==== Sys2Proof/Laws/Blocks.lean ====
section
/-! SUPPORT. What one nominal bit of a received block and one undisturbed bit of a sent block do. -/

namespace Sys2Proof.Machine

/-! ### The order of the bit times (00 R9) -/

/-- The inequalities of 00 R9 between the bit times, as they are used for one bit. -/
theorem valid_bit_times {c : Config} (h : c.Valid) :
    0 < c.t1Low ∧ c.t1Low < c.tMid ∧ c.tMid < c.t0Low ∧ c.t0Low < c.tBit ∧ c.t0Low < c.startMin ∧ c.tBit < 65535 ∧
      1 ≤ c.jiffyCycles ∧ c.jiffyCycles ≤ 65536 := by
  obtain ⟨-, hw, -, -, -, -, _, _, -, -, -, -, -, _, _, _, _, _, _, _, _, _, _, _, -⟩ := h
  rw [hw] at *
  omega

/-- A nominal bit is classified as itself (40 R112, R114, R119). -/
theorem classify_nominalLow {c : Config} (h : c.Valid) (b : Bool) : classify c (nominalLow c b) = b := by
  obtain ⟨_, _, _, _, _, _, _⟩ := valid_bit_times h
  cases b
  · have : (BitVec.ofNat 16 c.t0Low).toNat = c.t0Low := by simp only [BitVec.toNat_ofNat]; omega
    rw [Bool.eq_false_iff]
    simp only [classify, nominalLow, Bool.false_eq_true, if_false, this, ne_eq, Nat.blt_eq]
    omega
  · have : (BitVec.ofNat 16 c.t1Low).toNat = c.t1Low := by simp only [BitVec.toNat_ofNat]; omega
    simp only [classify, nominalLow, if_true, this, Nat.blt_eq]
    omega

/-- No nominal bit is a START (40 R113). -/
theorem isStartPulse_nominalLow {c : Config} (h : c.Valid) (b : Bool) : isStartPulse c (nominalLow c b) = false := by
  obtain ⟨_, _, _, _, _, _, _⟩ := valid_bit_times h
  have h0 : (BitVec.ofNat 16 c.t0Low).toNat = c.t0Low := by simp only [BitVec.toNat_ofNat]; omega
  have h1 : (BitVec.ofNat 16 c.t1Low).toNat = c.t1Low := by simp only [BitVec.toNat_ofNat]; omega
  have : Nat.ble c.startMin (nominalLow c b).toNat = false := by
    rw [Bool.eq_false_iff, ne_eq, Nat.ble_eq]
    cases b
    · simp only [nominalLow, Bool.false_eq_true, if_false, h0]; omega
    · simp only [nominalLow, if_true, h1]; omega
  simp [isStartPulse, this]

/-! ### Received bits -/

/-- A bit in IDLE only clears the timer (41 R141). -/
theorem receiveSymbol_idle {s : State} (hv : s.cfg.Valid) (hs : s.cec.state = .idle) (hd : s.cec.ackdrv = false) (b : Bool) :
    receiveSymbol b s = .next (clearTimer s) := by
  simp [receiveSymbol, cecFall, hs, finishAckDrive, hd, cecRise, applyCecStartRx, isStartPulse_nominalLow hv]
  rfl

/-- A bit of a frame outside the ACK slot of an owned block: the fall clears the timer, the rise delivers the bit (41 R143,
R152). -/
theorem receiveSymbol_frame {s : State} (hv : s.cfg.Valid) (hs : s.cec.state = .rxWho ∨ s.cec.state = .rxData)
    (ha : opensAck s = false) (hd : s.cec.ackdrv = false) (b : Bool) :
    receiveSymbol b s =
      .next (receiveBit b (clearTimer s) (clearTimer { clearTimer s with cec := { s.cec with lastbit := b } })) := by
  rcases hs with hs | hs <;>
    simp [receiveSymbol, cecFall, hs, ha, finishAckDrive, hd, cecRise, applyCecBitRx, classify_nominalLow hv]

/-- The ACK slot of an owned block: this block drives it, so it delivers a 0 whatever the others drive (41 R151). -/
theorem receiveSymbol_ackSlot {s : State} (hv : s.cfg.Valid) (hs : s.cec.state = .rxWho ∨ s.cec.state = .rxData)
    (ha : opensAck s = true) (b : Bool) :
    ∃ q, receiveSymbol b s = .next (receiveBit false q (clearTimer { q with cec := { q.cec with lastbit := false } })) ∧
      q = { s with
        timer := q.timer, cec := { s.cec with oe := false, ackdrv := false, ackpend := false } } := by
  obtain ⟨_, _, _, _, _, _, _⟩ := valid_bit_times hv
  have hr : reach (waitReach s.cfg.t0Low (ackDriveStart s)) s.cfg.t0Low = true := by
    have := reach_waitReach (s := ackDriveStart s) (n := s.cfg.t0Low) (m := s.cfg.t0Low) (by omega) (by omega)
      (by show 1 ≤ s.cfg.jiffyCycles; omega) (by show s.cfg.jiffyCycles ≤ 65536; omega)
    simpa using this
  have hfall : cecFall s s = .next (ackDriveStart s) := by
    rcases hs with hs | hs <;> simp [cecFall, hs, ha, ackDrive]
  have hend : finishAckDrive (ackDriveStart s) =
      .next (ackDriveEnd (waitReach s.cfg.t0Low (ackDriveStart s))) := by
    have hd : (ackDriveStart s).cec.ackdrv = true := rfl
    have hc : (ackDriveStart s).cfg = s.cfg := rfl
    simp only [finishAckDrive, hd, if_true, hc]
    have he : endsAck (waitReach s.cfg.t0Low (ackDriveStart s)) = true := by
      simp only [endsAck, waitReach_cec, hd, Bool.true_and, waitReach_cfg, hc, hr]
    have hs' : (waitReach s.cfg.t0Low (ackDriveStart s)).cec.state = s.cec.state := rfl
    rcases hs with hs | hs <;> simp only [ackDrive, hs', hs, Bool.false_and, Bool.false_eq_true, if_false, he, if_true]
  refine ⟨ackDriveEnd (waitReach s.cfg.t0Low (ackDriveStart s)), ?_, rfl⟩
  have hb : (b && !(ackDriveStart s).cec.ackdrv) = false := by simp
  simp only [receiveSymbol, hfall, andThen_next, hend, hb]
  generalize hq : ackDriveEnd (waitReach s.cfg.t0Low (ackDriveStart s)) = q
  have hqs : q.cec.state = s.cec.state := by rw [← hq]; rfl
  have hqv : q.cfg.Valid := by rw [← hq]; exact hv
  rcases hs with hs | hs <;> simp [cecRise, applyCecBitRx, hqs, hs, classify_nominalLow hqv]

/-! ### Sent bits -/

/-- An instant of a sent bit at which nothing acts only moves the timer. -/
theorem transmitInstant_quiet {s : State} {w : Bool} {n : Nat} (hs : s.cec.state = .txBit)
    (h1 : reach (waitReach n s) (if s.tx.v then s.cfg.t1Low else s.cfg.t0Low) = false)
    (h2 : reach (waitReach n s) s.cfg.tSample = false) (h3 : reach (waitReach n s) s.cfg.tBit = false) :
    transmitInstant w n s = .next (waitReach n s) := by
  cases hv : s.tx.v <;> rw [hv] at h1 <;> simp only [Bool.false_eq_true, if_false, if_true] at h1 <;>
    simp only [transmitInstant, hs, txBitCycle, waitReach_cfg, waitReach_tx, waitReach_cec, hv, Bool.false_eq_true, if_false,
      if_true, h1, h2, h3]

/-- After the end of an attempt nothing acts any more. -/
theorem transmitSymbol_idle {s : State} (hs : s.cec.state = .idle) (w : Bool) : transmitSymbol w s = .next s := by
  simp [transmitSymbol, transmitInstant, hs]

end Sys2Proof.Machine
end

