-- ==== Sys2Proof/Laws/PerInstr.lean ====
section
/-! SUPPORT. What holds of every instruction as syntax, one lemma for each constructor. -/

namespace Sys2Proof.Laws

/-- The wire formats of 30 R80; FF, the frame, is a sequence of the others. -/
inductive WireFormat where
  | fa | fc | fp | fr | ft | fb | fh | fs
  deriving DecidableEq, Repr

/-- The format of a unit on the wires. -/
def tokenFormat : Token → WireFormat
  | .condition _ => .ft
  | .fa _ => .fa
  | .fc _ => .fc
  | .fp _ => .fp
  | .fr _ => .fr
  | .fh _ => .fh
  | .fb _ | .fbSent _ => .fb
  | .pulseIdle _ | .pulseFrame _ | .ackSlot | .sent _ _ => .fs

/-- The format of an instruction's row in the opcode table; a pseudo-instruction is a transaction, FT. -/
def rowFormat : Instr → WireFormat
  | .loadId | .loadAddr | .loadTaken | .loadLength | .loadBuffer | .setAddr _ | .stage _ | .cecSend _ |
    .monitorToggle _ | .softReset _ | .reservedCommand _ => .fc
  | .payloadByte _ => .fp
  | .addrWrite _ | .addrRead _ => .fa
  | .readByte _ => .fr
  | .i2cStart | .i2cStop | .readId | .getAddr | .getTaken | .getLength | .getBuffer _ | .setAddrA _ | .send _ |
    .pingA _ | .monitor | .reset => .ft
  | .cecHeaderBlock _ _ _ _ | .cecPing _ _ => .fh
  | .cecDataBlock _ _ _ | .cecTxBlock _ _ _ => .fb
  | .cecStartRx _ | .cecStartTx | .cecBitRx _ | .cecBit1Tx | .cecBit0Tx | .cecAckDrive => .fs

/-- An instruction's encoding begins with a unit of its row's format. -/
def Format.Statement (i : Instr) : Prop := ∀ c : Config, ∃ t ts, encode c i = t :: ts ∧ tokenFormat t = rowFormat i

theorem Format.loadId : Format.Statement .loadId := fun _ => ⟨_, _, rfl, rfl⟩
theorem Format.loadAddr : Format.Statement .loadAddr := fun _ => ⟨_, _, rfl, rfl⟩
theorem Format.loadTaken : Format.Statement .loadTaken := fun _ => ⟨_, _, rfl, rfl⟩
theorem Format.loadLength : Format.Statement .loadLength := fun _ => ⟨_, _, rfl, rfl⟩
theorem Format.loadBuffer : Format.Statement .loadBuffer := fun _ => ⟨_, _, rfl, rfl⟩
theorem Format.setAddr (p : Option Byte) : Format.Statement (.setAddr p) := fun _ => by cases p <;> exact ⟨_, _, rfl, rfl⟩
theorem Format.stage (p : Option Byte) : Format.Statement (.stage p) := fun _ => by cases p <;> exact ⟨_, _, rfl, rfl⟩
theorem Format.cecSend (p : Option Byte) : Format.Statement (.cecSend p) := fun _ => by cases p <;> exact ⟨_, _, rfl, rfl⟩
theorem Format.monitorToggle (p : Option Byte) : Format.Statement (.monitorToggle p) := fun _ => by cases p <;> exact ⟨_, _, rfl, rfl⟩
theorem Format.softReset (p : Option Byte) : Format.Statement (.softReset p) := fun _ => by cases p <;> exact ⟨_, _, rfl, rfl⟩
theorem Format.reservedCommand (c : Byte) : Format.Statement (.reservedCommand c) := fun _ => ⟨_, _, rfl, rfl⟩
theorem Format.payloadByte (p : Byte) : Format.Statement (.payloadByte p) := fun _ => ⟨_, _, rfl, rfl⟩
theorem Format.addrWrite (a : BitVec 7) : Format.Statement (.addrWrite a) := fun _ => ⟨_, _, rfl, rfl⟩
theorem Format.addrRead (a : BitVec 7) : Format.Statement (.addrRead a) := fun _ => ⟨_, _, rfl, rfl⟩
theorem Format.readByte (m : Bool) : Format.Statement (.readByte m) := fun _ => ⟨_, _, rfl, rfl⟩
theorem Format.i2cStart : Format.Statement .i2cStart := fun _ => ⟨_, _, rfl, rfl⟩
theorem Format.i2cStop : Format.Statement .i2cStop := fun _ => ⟨_, _, rfl, rfl⟩
theorem Format.cecHeaderBlock (src dst : BitVec 4) (eom ack : Bool) : Format.Statement (.cecHeaderBlock src dst eom ack) := fun _ => ⟨_, _, rfl, rfl⟩
theorem Format.cecPing (a : BitVec 4) (ack : Bool) : Format.Statement (.cecPing a ack) := fun _ => ⟨_, _, rfl, rfl⟩
theorem Format.cecDataBlock (d : Byte) (eom ack : Bool) : Format.Statement (.cecDataBlock d eom ack) := fun _ => ⟨_, _, rfl, rfl⟩
theorem Format.cecTxBlock (d : Byte) (eom ack : Bool) : Format.Statement (.cecTxBlock d eom ack) := fun _ => ⟨_, _, rfl, rfl⟩
theorem Format.cecStartRx (l : BitVec 16) : Format.Statement (.cecStartRx l) := fun _ => ⟨_, _, rfl, rfl⟩
theorem Format.cecStartTx : Format.Statement .cecStartTx := fun _ => ⟨_, _, rfl, rfl⟩
theorem Format.cecBitRx (l : BitVec 16) : Format.Statement (.cecBitRx l) := fun _ => ⟨_, _, rfl, rfl⟩
theorem Format.cecBit1Tx : Format.Statement .cecBit1Tx := fun _ => ⟨_, _, rfl, rfl⟩
theorem Format.cecBit0Tx : Format.Statement .cecBit0Tx := fun _ => ⟨_, _, rfl, rfl⟩
theorem Format.cecAckDrive : Format.Statement .cecAckDrive := fun _ => ⟨_, _, rfl, rfl⟩
theorem Format.readId : Format.Statement .readId := fun _ => ⟨_, _, rfl, rfl⟩
theorem Format.getAddr : Format.Statement .getAddr := fun _ => ⟨_, _, rfl, rfl⟩
theorem Format.getTaken : Format.Statement .getTaken := fun _ => ⟨_, _, rfl, rfl⟩
theorem Format.getLength : Format.Statement .getLength := fun _ => ⟨_, _, rfl, rfl⟩
theorem Format.getBuffer (n : Nat) : Format.Statement (.getBuffer n) := fun _ => ⟨_, _, rfl, rfl⟩
theorem Format.setAddrA (a : BitVec 4) : Format.Statement (.setAddrA a) := fun _ => ⟨_, _, rfl, rfl⟩
theorem Format.send (bs : List Byte) : Format.Statement (.send bs) := fun _ => ⟨_, _, rfl, rfl⟩
theorem Format.pingA (a : BitVec 4) : Format.Statement (.pingA a) := fun _ => ⟨_, _, rfl, rfl⟩
theorem Format.monitor : Format.Statement .monitor := fun _ => ⟨_, _, rfl, rfl⟩
theorem Format.reset : Format.Statement .reset := fun _ => ⟨_, _, rfl, rfl⟩

end Sys2Proof.Laws
end

