-- ==== Sys2Proof/Laws/Step.lean ====
section
/-! SUPPORT. What a step can do, said once: its cases, and what each engine leaves alone. -/

namespace Sys2Proof.Machine

/-! ### The clock edge (00 R10, 70 R330, R334) -/

/-- A step that goes on is a reset edge or a cycle. -/
theorem step_eq_next {s t : State} : step s = .next t ↔
    s.cfg.Valid ∧ (((currentSample s).rstN = false ∧ t = hardReset s) ∨
      ((currentSample s).rstN = true ∧ unusedEncoding s = none ∧ cycle s = .next t)) := by
  simp only [step, clockEdge]
  by_cases hv : s.cfg.Valid
  · rw [if_pos hv, and_iff_right hv]
    cases hr : (currentSample s).rstN
    · simp [eq_comm]
    · cases hu : unusedEncoding s <;> simp
  · rw [if_neg hv]
    exact iff_of_false (fun h => by cases h) (fun h => hv h.1)

/-- With a valid configuration, rst_n high and no unused encoding, the step is the cycle. -/
theorem step_eq_cycle {s : State} (hv : s.cfg.Valid) (hr : (currentSample s).rstN = true) (hu : unusedEncoding s = none) :
    step s = cycle s := by
  simp only [step, clockEdge, if_pos hv, hr, if_true, hu]

/-- A cycle without SOFT_RESET: the I2C engine, then the CEC engine over it (45 R279). -/
theorem cycle_of_no_softReset {s : State} (h : softResetNow s = false) :
    cycle s = andThen (i2cEngine s (background s)) (cecEngine s) := by
  simp [cycle, h]

/-- A cycle with SOFT_RESET: the CEC engine, then SOFT_RESET over it (45 R279). -/
theorem cycle_of_softReset {s : State} (h : softResetNow s = true) :
    cycle s = andThen (cecEngine s (background s)) (i2cEngine s) := by
  simp [cycle, h]

/-! ### What the I2C engine leaves alone (45 R277) -/

/-- What the I2C side changes in no cycle without SOFT_RESET. -/
structure I2cFrame (a t : State) : Prop where
  cfg : t.cfg = a.cfg
  cec : t.cec = a.cec
  timer : t.timer = a.timer
  sync : t.sync = a.sync
  taken : t.shared.taken = a.shared.taken
  pins : t.env.pins = a.env.pins
  edges : t.env.edges = a.env.edges

namespace I2cFrame

theorem refl (a : State) : I2cFrame a a := ⟨rfl, rfl, rfl, rfl, rfl, rfl, rfl⟩

theorem trans {a b c : State} (h : I2cFrame a b) (k : I2cFrame b c) : I2cFrame a c :=
  ⟨k.cfg.trans h.cfg, k.cec.trans h.cec, k.timer.trans h.timer, k.sync.trans h.sync, k.taken.trans h.taken,
    k.pins.trans h.pins, k.edges.trans h.edges⟩

/-- Any write to the I2C engine's own registers keeps the frame. -/
theorem withI2c (a : State) (r : I2cRegs) : I2cFrame a { a with i2c := r } := ⟨rfl, rfl, rfl, rfl, rfl, rfl, rfl⟩

/-- An event keeps the frame. -/
theorem emit (a : State) (e : Event) : I2cFrame a (emit e a) := ⟨rfl, rfl, rfl, rfl, rfl, rfl, rfl⟩

theorem dataByteArrives (b : Byte) (p a : State) : I2cFrame a (dataByteArrives b p a) := ⟨rfl, rfl, rfl, rfl, rfl, rfl, rfl⟩

theorem setAccept (ok : Bool) (a : State) : I2cFrame a (setAccept ok a) := ⟨rfl, rfl, rfl, rfl, rfl, rfl, rfl⟩

theorem setCommand (c : Byte) (a : State) : I2cFrame a (setCommand c a) := ⟨rfl, rfl, rfl, rfl, rfl, rfl, rfl⟩

theorem loadCommand (c : Byte) (sel : ReadSel) (len : BitVec 5) (p a : State) : I2cFrame a (loadCommand c sel len p a) :=
  ⟨rfl, rfl, rfl, rfl, rfl, rfl, rfl⟩

theorem actionCommandByte (c : Byte) (p a : State) : I2cFrame a (actionCommandByte c p a) :=
  ((dataByteArrives c p a).trans (setCommand c _)).trans (setAccept true _)

theorem refusePayload (b : Byte) (p a : State) : I2cFrame a (refusePayload b p a) := ⟨rfl, rfl, rfl, rfl, rfl, rfl, rfl⟩

theorem refuseCommand (c : Byte) (p a : State) :
    I2cFrame a (Machine.emit (.badCmd c)
      (Machine.setAccept false (Machine.setCommand c (Machine.dataByteArrives c p a)))) :=
  (((dataByteArrives c p a).trans (setCommand c _)).trans (setAccept false _)).trans (emit _ _)

theorem startReadByte (x : Byte) (a : State) : I2cFrame a (startReadByte x a) := ⟨rfl, rfl, rfl, rfl, rfl, rfl, rfl⟩

theorem addressAck (p a : State) : I2cFrame a (addressAck p a) := by
  unfold Machine.addressAck; split <;> exact withI2c a _

theorem addressCycle (x : BitVec 7) (r : Bool) (p a : State) : I2cFrame a (addressCycle x r p a) := by
  unfold Machine.addressCycle
  split
  · exact withI2c a _
  split
  · exact addressAck p a
  · exact refl a

theorem dataAck (p a : State) : I2cFrame a (dataAck p a) := by
  unfold Machine.dataAck; split <;> exact withI2c a _

end I2cFrame

/-- The frame of SET_ADDR's payload byte. -/
theorem setAddrPayload_frame {b : Byte} {p a t : State} (h : setAddrPayload b p a = .next t) : I2cFrame a t := by
  cases h; exact ⟨rfl, rfl, rfl, rfl, rfl, rfl, rfl⟩

/-- The frame of STAGE's payload byte. -/
theorem stagePayload_frame {b : Byte} {p a t : State} (h : stagePayload b p a = .next t) : I2cFrame a t := by
  simp only [stagePayload] at h
  split at h <;> cases h <;> exact ⟨rfl, rfl, rfl, rfl, rfl, rfl, rfl⟩

/-- The frame of CEC_SEND's payload byte. -/
theorem cecSendPayload_frame {b : Byte} {p a t : State} (h : cecSendPayload b p a = .next t) : I2cFrame a t := by
  simp only [cecSendPayload] at h
  split at h <;> cases h <;> exact ⟨rfl, rfl, rfl, rfl, rfl, rfl, rfl⟩

/-- The frame of MONITOR_TOGGLE's payload byte. -/
theorem monitorTogglePayload_frame {b : Byte} {p a t : State} (h : monitorTogglePayload b p a = .next t) : I2cFrame a t := by
  cases h; exact ⟨rfl, rfl, rfl, rfl, rfl, rfl, rfl⟩

/-- An action's frame, when its payload byte has it. -/
theorem applyAction_frame {c : Byte} {effect : Byte → State → State → Result} {q : Option Byte} {p a t : State}
    (he : ∀ b u, q = some b → effect b p a = .next u → I2cFrame a u) (h : applyAction c effect q p a = .next t) :
    I2cFrame a t := by
  cases q with
  | none => exact Host.Outcome.next.inj h ▸ I2cFrame.actionCommandByte c p a
  | some b => exact he b t rfl h

/-- PAYLOAD_BYTE's frame, except as the payload of SOFT_RESET. -/
theorem applyPayloadByte_frame {b : Byte} {p a t : State} (hp : ¬(p.i2c.cmd = codeSoftReset ∧ p.i2c.byteno = 1#5))
    (h : applyPayloadByte b p a = .next t) : I2cFrame a t := by
  unfold applyPayloadByte at h
  split at h
  · exact stagePayload_frame h
  split at h
  · split at h
    · exact setAddrPayload_frame h
    split at h
    · exact cecSendPayload_frame h
    split at h
    · exact monitorTogglePayload_frame h
    split at h
    · exact absurd ⟨by assumption, by assumption⟩ hp
    · cases h; exact I2cFrame.refusePayload b p a
  · cases h; exact I2cFrame.refusePayload b p a

/-- ADDR_WRITE's frame. -/
theorem applyAddrWrite_frame {x : BitVec 7} {p a t : State} (h : applyAddrWrite x p a = .next t) : I2cFrame a t := by
  unfold applyAddrWrite at h
  split at h <;> cases h
  · exact I2cFrame.addressCycle x false p a
  · exact I2cFrame.withI2c a _
  · exact I2cFrame.refl a

/-- ADDR_READ's frame. -/
theorem applyAddrRead_frame {x : BitVec 7} {p a t : State} (h : applyAddrRead x p a = .next t) : I2cFrame a t := by
  unfold applyAddrRead at h
  split at h
  · cases h; exact I2cFrame.addressCycle x true p a
  · unfold toRead at h
    split at h
    · cases h; exact (I2cFrame.startReadByte _ a).trans (I2cFrame.withI2c _ _)
    · cases h
  · cases h; exact I2cFrame.refl a

/-- READ_BYTE's frame. -/
theorem applyReadByte_frame {m : Bool} {p a t : State} (h : applyReadByte m p a = .next t) : I2cFrame a t := by
  unfold applyReadByte at h
  split at h
  · unfold nextRead at h
    split at h
    · cases h; exact I2cFrame.startReadByte _ a
    · cases h
  · unfold readClock at h
    split at h
    · cases h; exact I2cFrame.withI2c a _
    · split at h
      · cases h; exact I2cFrame.withI2c a _
      · cases h
  · cases h; exact I2cFrame.withI2c a _
  · cases h; exact I2cFrame.refl a

/-- The frame of one instruction on the I2C bus, whatever its operands. -/
theorem applyI2c_frame {i : Instr} {p a t : State} (hi : ∀ q, i ≠ .softReset (some q))
    (hp : (∃ q, i = .payloadByte q) → ¬(p.i2c.cmd = codeSoftReset ∧ p.i2c.byteno = 1#5))
    (h : applyI2c i p a = .next t) : I2cFrame a t := by
  cases i with
  | softReset q => exact applyAction_frame (fun b _ hb _ => absurd (hb ▸ rfl) (hi b)) h
  | loadId | loadAddr | loadTaken | loadLength | loadBuffer =>
    exact Host.Outcome.next.inj h ▸ I2cFrame.loadCommand _ _ _ p a
  | setAddr q => exact applyAction_frame (fun _ _ _ => setAddrPayload_frame) h
  | stage q => exact applyAction_frame (fun _ _ _ => stagePayload_frame) h
  | cecSend q => exact applyAction_frame (fun _ _ _ => cecSendPayload_frame) h
  | monitorToggle q => exact applyAction_frame (fun _ _ _ => monitorTogglePayload_frame) h
  | reservedCommand c => exact Host.Outcome.next.inj h ▸ I2cFrame.refuseCommand c p a
  | payloadByte q => exact applyPayloadByte_frame (hp ⟨q, rfl⟩) h
  | addrWrite x => exact applyAddrWrite_frame h
  | addrRead x => exact applyAddrRead_frame h
  | readByte m => exact applyReadByte_frame h
  | i2cStart | i2cStop => exact Host.Outcome.next.inj h ▸ I2cFrame.withI2c a _
  | _ => exact Host.Outcome.next.inj h ▸ I2cFrame.refl a

/-- A strobe that completes no row changes the I2C engine alone. -/
theorem betweenI2c_frame (st : I2cStrobe) (p a : State) : I2cFrame a (betweenI2c st p a) := by
  unfold betweenI2c
  cases st with
  | start | stop => exact I2cFrame.refl a
  | rise sda =>
    dsimp only
    split
    · exact I2cFrame.withI2c a _
    · exact I2cFrame.withI2c a _
    · exact I2cFrame.refl a
  | fall =>
    dsimp only
    split
    · split
      · exact I2cFrame.dataAck p a
      · exact I2cFrame.refl a
    · exact I2cFrame.withI2c a _
    · exact I2cFrame.refl a

/-- A payload byte that the bus presents as such is no SOFT_RESET. -/
theorem decodePayload_payloadByte {c : Byte} {n : BitVec 5} {b q : Byte} (h : decodePayload c n b = .payloadByte q) :
    ¬(c = codeSoftReset ∧ n = 1#5) := by
  rintro ⟨rfl, rfl⟩
  simp [decodePayload, codeSoftReset, codeStage, codeSetAddr, codeCecSend, codeMonitorToggle] at h

/-- No command byte is a payload byte. -/
theorem decodeCommand_ne_payloadByte (c q : Byte) : decodeCommand c ≠ .payloadByte q := by
  unfold decodeCommand
  repeat' split
  all_goals exact fun h => by cases h

/-- The only rises of a data byte that present PAYLOAD_BYTE. -/
theorem fetchI2cOn_payloadByte {st : I2cStrobe} {s : State} {q : Byte} (h : fetchI2cOn st s = some (.payloadByte q)) :
    ¬(s.i2c.cmd = codeSoftReset ∧ s.i2c.byteno = 1#5) := by
  unfold fetchI2cOn at h
  cases st with
  | start | stop => cases h
  | rise sda =>
    dsimp only at h
    split at h
    · split at h
      · simp only [decodeAddress] at h; split at h <;> cases h
      · cases h
    · split at h
      · have h := Option.some.inj h
        split at h
        · exact absurd h (decodeCommand_ne_payloadByte _ q)
        · exact decodePayload_payloadByte h
      · cases h
    · cases h
    · cases h
  | fall =>
    dsimp only at h
    split at h
    · split at h
      · simp only [decodeAddress] at h; split at h <;> cases h
      · cases h
    · split at h <;> cases h
    · cases h
    · cases h
    · cases h

/-- The I2C engine's frame in a cycle without SOFT_RESET. -/
theorem i2cEngine_frame {p a t : State} (hs : softResetNow p = false) (h : i2cEngine p a = .next t) : I2cFrame a t := by
  unfold i2cEngine at h
  split at h
  · rename_i st hst
    unfold i2cOn at h
    split at h
    · rename_i i hi
      refine applyI2c_frame ?_ ?_ h
      · rintro q rfl
        simp [softResetNow, fetchI2c, hst, hi] at hs
      · rintro ⟨q, rfl⟩
        exact fetchI2cOn_payloadByte hi
    · cases h; exact betweenI2c_frame st p a
  · cases h; exact I2cFrame.refl a

/-! ### What the CEC engine leaves alone (45 R277) -/

/-- What the CEC side never changes. -/
structure CecFrame (a t : State) : Prop where
  cfg : t.cfg = a.cfg
  win : t.win = a.win
  i2c : t.i2c = a.i2c
  sync : t.sync = a.sync
  cecAddr : t.shared.cecAddr = a.shared.cecAddr
  monitor : t.shared.monitor = a.shared.monitor
  pins : t.env.pins = a.env.pins
  edges : t.env.edges = a.env.edges
  readTrace : t.env.readTrace = a.env.readTrace

namespace CecFrame

theorem refl (a : State) : CecFrame a a := ⟨rfl, rfl, rfl, rfl, rfl, rfl, rfl, rfl, rfl⟩

theorem trans {a b c : State} (h : CecFrame a b) (k : CecFrame b c) : CecFrame a c :=
  ⟨k.cfg.trans h.cfg, k.win.trans h.win, k.i2c.trans h.i2c, k.sync.trans h.sync, k.cecAddr.trans h.cecAddr,
    k.monitor.trans h.monitor, k.pins.trans h.pins, k.edges.trans h.edges, k.readTrace.trans h.readTrace⟩

/-- Any write to the CEC engine's own registers keeps the frame. -/
theorem withCec (a : State) (r : CecRegs) : CecFrame a { a with cec := r } := ⟨rfl, rfl, rfl, rfl, rfl, rfl, rfl, rfl, rfl⟩

/-- A write to TAKEN keeps the frame. -/
theorem withTaken (a : State) (v : BitVec 16) : CecFrame a { a with shared := { a.shared with taken := v } } :=
  ⟨rfl, rfl, rfl, rfl, rfl, rfl, rfl, rfl, rfl⟩

theorem clearTimer (a : State) : CecFrame a (clearTimer a) := ⟨rfl, rfl, rfl, rfl, rfl, rfl, rfl, rfl, rfl⟩

theorem emit (a : State) (e : Event) : CecFrame a (emit e a) := ⟨rfl, rfl, rfl, rfl, rfl, rfl, rfl, rfl, rfl⟩

theorem frameInit (a : State) : CecFrame a (frameInit a) := withCec a _

theorem headerStore (b : Byte) (own : Bool) (p a : State) : CecFrame a (headerStore b own p a) :=
  ⟨rfl, rfl, rfl, rfl, rfl, rfl, rfl, rfl, rfl⟩

theorem headerDecide (b : Byte) (p a : State) : CecFrame a (headerDecide b p a) := by
  simp only [Machine.headerDecide]
  split
  · exact (withTaken a _).trans (headerStore _ _ _ _)
  · refine trans ?_ (emit _ _)
    exact ⟨rfl, rfl, rfl, rfl, rfl, rfl, rfl, rfl, rfl⟩

theorem dataBlock (b : Byte) (p a : State) : CecFrame a (dataBlock b p a) := by
  simp only [Machine.dataBlock]
  split
  · exact ⟨rfl, rfl, rfl, rfl, rfl, rfl, rfl, rfl, rfl⟩
  · refine trans ?_ (emit _ _)
    exact withCec a _

theorem pingCheck (b : Bool) (p a : State) : CecFrame a (pingCheck b p a) := by
  unfold Machine.pingCheck
  split
  · exact withTaken a _
  · exact refl a

theorem blockEnd (p a : State) : CecFrame a (blockEnd p a) := by
  unfold Machine.blockEnd
  split <;> exact withCec a _

theorem receiveBit (b : Bool) (p a : State) : CecFrame a (receiveBit b p a) := by
  simp only [Machine.receiveBit]
  split
  · exact withCec a _
  split
  · split
    · exact (withCec a _).trans (headerDecide _ _ _)
    · exact (withCec a _).trans (dataBlock _ _ _)
  split
  · exact (withCec a _).trans (pingCheck _ _ _)
  split
  · exact blockEnd p a
  · exact refl a

theorem ackDriveStart (a : State) : CecFrame a (ackDriveStart a) := (withCec a _).trans (clearTimer _)

theorem ackDriveEnd (a : State) : CecFrame a (ackDriveEnd a) := withCec a _

theorem timeoutAbort (p a : State) : CecFrame a (timeoutAbort p a) := by
  refine trans ?_ (emit _ _)
  exact withCec a _

theorem attemptInit (p a : State) : CecFrame a (attemptInit p a) := ⟨rfl, rfl, rfl, rfl, rfl, rfl, rfl, rfl, rfl⟩

theorem arbCheck (v line : Bool) (p a : State) : CecFrame a (arbCheck v line p a) := by
  unfold Machine.arbCheck
  split
  · exact ⟨rfl, rfl, rfl, rfl, rfl, rfl, rfl, rfl, rfl⟩
  · exact refl a

theorem ackCount (p a : State) : CecFrame a (ackCount p a) := ⟨rfl, rfl, rfl, rfl, rfl, rfl, rfl, rfl, rfl⟩

theorem txDone (a : State) : CecFrame a (txDone a) := ⟨rfl, rfl, rfl, rfl, rfl, rfl, rfl, rfl, rfl⟩

theorem ackCheck (line : Bool) (p a : State) : CecFrame a (ackCheck line p a) := by
  unfold Machine.ackCheck
  split
  · split
    · exact (ackCount p a).trans (txDone _)
    · exact ackCount p a
  · exact ⟨rfl, rfl, rfl, rfl, rfl, rfl, rfl, rfl, rfl⟩

end CecFrame

/-- The start of a bit. -/
theorem startTxBit_frame {k j : Nat} {p a t : State} (h : startTxBit k j p a = .next t) : CecFrame a t := by
  unfold startTxBit at h
  split at h
  · exact Host.Outcome.next.inj h ▸ ⟨rfl, rfl, rfl, rfl, rfl, rfl, rfl, rfl, rfl⟩
  · cases h

/-- CEC_BIT1_TX's and CEC_BIT0_TX's frame. -/
theorem txBitCycle_frame {v line : Bool} {p a t : State} (h : txBitCycle v line p a = .next t) : CecFrame a t := by
  unfold txBitCycle at h
  generalize (if v then p.cfg.t1Low else p.cfg.t0Low) = n at h
  split at h
  · split at h
    · exact Host.Outcome.next.inj h ▸ CecFrame.withCec a _
    split at h
    · refine Host.Outcome.next.inj h ▸ ?_
      split
      · exact CecFrame.arbCheck _ _ p a
      · exact CecFrame.ackCheck _ p a
    split at h
    · unfold nextBit at h
      split at h <;> exact startTxBit_frame h
    · exact Host.Outcome.next.inj h ▸ CecFrame.refl a
  · exact Host.Outcome.next.inj h ▸ CecFrame.refl a

/-- CEC_START_TX's frame. -/
theorem applyCecStartTx_frame {p a t : State} (h : applyCecStartTx p a = .next t) : CecFrame a t := by
  unfold applyCecStartTx at h
  split at h
  · split at h
    · exact Host.Outcome.next.inj h ▸ CecFrame.attemptInit p a
    · exact Host.Outcome.next.inj h ▸ CecFrame.refl a
  · split at h
    · exact Host.Outcome.next.inj h ▸ CecFrame.withCec a _
    split at h
    · exact startTxBit_frame h
    · exact Host.Outcome.next.inj h ▸ CecFrame.refl a
  · exact Host.Outcome.next.inj h ▸ CecFrame.refl a

/-- CEC_START_RX's frame. -/
theorem applyCecStartRx_frame {l : BitVec 16} {p a t : State} (h : applyCecStartRx l p a = .next t) : CecFrame a t := by
  unfold applyCecStartRx at h
  split at h
  · split at h
    · exact Host.Outcome.next.inj h ▸ (CecFrame.frameInit a).trans (CecFrame.clearTimer _)
    · exact Host.Outcome.next.inj h ▸ CecFrame.clearTimer a
  · exact Host.Outcome.next.inj h ▸ CecFrame.refl a

/-- CEC_BIT_RX's frame. -/
theorem applyCecBitRx_frame {l : BitVec 16} {p a t : State} (h : applyCecBitRx l p a = .next t) : CecFrame a t := by
  unfold applyCecBitRx at h
  split at h
  · exact Host.Outcome.next.inj h ▸
      ((CecFrame.withCec a _).trans (CecFrame.clearTimer _)).trans (CecFrame.receiveBit _ p _)
  · exact Host.Outcome.next.inj h ▸
      ((CecFrame.withCec a _).trans (CecFrame.clearTimer _)).trans (CecFrame.receiveBit _ p _)
  · exact Host.Outcome.next.inj h ▸ CecFrame.refl a

/-- CEC_ACK_DRIVE's frame. -/
theorem ackDrive_frame {f : Bool} {p a t : State} (h : ackDrive f p a = .next t) : CecFrame a t := by
  unfold ackDrive at h
  split at h
  case h_3 => exact Host.Outcome.next.inj h ▸ CecFrame.refl a
  all_goals
    split at h
    · exact Host.Outcome.next.inj h ▸ CecFrame.ackDriveStart a
    split at h
    · exact Host.Outcome.next.inj h ▸ CecFrame.ackDriveEnd a
    · exact Host.Outcome.next.inj h ▸ CecFrame.refl a

/-- The frame of one instruction of the CEC engine. -/
theorem applyCec_frame {i : Instr} {p a t : State} (h : applyCec i p a = .next t) : CecFrame a t := by
  cases i with
  | cecStartRx l => exact applyCecStartRx_frame h
  | cecStartTx => exact applyCecStartTx_frame h
  | cecBitRx l => exact applyCecBitRx_frame h
  | cecBit1Tx | cecBit0Tx => exact txBitCycle_frame h
  | cecAckDrive => exact ackDrive_frame h
  | _ => exact Host.Outcome.next.inj h ▸ CecFrame.refl a

/-- A cycle without an instruction of the CEC engine. -/
theorem betweenCec_frame (p a : State) : CecFrame a (betweenCec p a) := by
  unfold betweenCec
  split
  case h_4 => exact CecFrame.refl a
  case h_1 =>
    split
    · exact CecFrame.clearTimer a
    · exact CecFrame.refl a
  all_goals
    split
    · exact CecFrame.clearTimer a
    split
    · exact CecFrame.timeoutAbort p a
    · exact CecFrame.refl a

/-- The CEC engine's frame. -/
theorem cecEngine_frame {p a t : State} (h : cecEngine p a = .next t) : CecFrame a t := by
  unfold cecEngine at h
  split at h
  · exact applyCec_frame h
  · exact Host.Outcome.next.inj h ▸ betweenCec_frame p a

end Sys2Proof.Machine
end

