-- ==== Sys2Proof/Laws/Transactions.lean ====
section
/-! SUPPORT. What one bit clock and the first seven clocks of a written byte do, for the transactions of 30 R98. -/

namespace Sys2Proof.Machine

/-- The engine is receiving a byte: an address byte or a data byte (43 R203). -/
def receivingByte (s : State) : Bool := s.i2c.state == .addr || s.i2c.state == .wrData

/-- The I2C registers after `sample()` (43 R203). -/
def sampled (b : Bool) (s : State) : State :=
  { s with i2c := { s.i2c with shift := shiftIn s.i2c.shift b, bitcnt := s.i2c.bitcnt + 1 } }

@[simp] theorem sampled_state (b : Bool) (s : State) : (sampled b s).i2c.state = s.i2c.state := rfl
@[simp] theorem sampled_bitcnt (b : Bool) (s : State) : (sampled b s).i2c.bitcnt = s.i2c.bitcnt + 1 := rfl
@[simp] theorem receivingByte_sampled (b : Bool) (s : State) : receivingByte (sampled b s) = receivingByte s := rfl

/-- A rise before the 8th bit of a byte samples it. -/
theorem i2cOn_rise {s : State} {b : Bool} (h : receivingByte s = true) (hn : s.i2c.bitcnt ≠ 7#4) :
    i2cOn (.rise b) s s = .next (sampled b s) := by
  simp only [receivingByte, Bool.or_eq_true, beq_iff_eq] at h
  rcases h with h | h <;> simp [i2cOn, fetchI2cOn, h, hn, betweenI2c, sampleBit, sampled]

/-- A fall before the 8th bit of a byte does nothing. -/
theorem i2cOn_fall {s : State} (h : receivingByte s = true) (hn : s.i2c.bitcnt ≠ 8#4) : i2cOn .fall s s = .next s := by
  simp only [receivingByte, Bool.or_eq_true, beq_iff_eq] at h
  rcases h with h | h <;> simp [i2cOn, fetchI2cOn, h, hn, betweenI2c]

/-- One bit clock before the 8th bit of a byte. -/
theorem runClocks_bitClock {s : State} (b : Bool) (h : receivingByte s = true) (hn : s.i2c.bitcnt.toNat < 7)
    (l : List I2cStrobe) : runClocks (bitClock b ++ l) s = runClocks l (sampled b s) := by
  have h7 : s.i2c.bitcnt ≠ 7#4 := fun e => by rw [e] at hn; exact absurd hn (by decide)
  have h8 : (sampled b s).i2c.bitcnt ≠ 8#4 := fun e => by
    rw [sampled_bitcnt] at e
    have := congrArg BitVec.toNat e
    rw [BitVec.toNat_add] at this
    simp at this
    omega
  show feed _ (.rise b :: .fall :: l) s = _
  rw [feed_cons, i2cOn_rise h h7, andThen_next, feed_cons, i2cOn_fall (by rwa [receivingByte_sampled]) h8, andThen_next]
  rfl

/-- The first seven bits of a byte, in wire order. -/
theorem runClocks_sevenBits {s : State} (b6 b5 b4 b3 b2 b1 b0 : Bool) (h : receivingByte s = true) (h0 : s.i2c.bitcnt = 0#4)
    (l : List I2cStrobe) :
    runClocks ([b6, b5, b4, b3, b2, b1, b0].flatMap bitClock ++ l) s =
      runClocks l (sampled b0 (sampled b1 (sampled b2 (sampled b3 (sampled b4 (sampled b5 (sampled b6 s))))))) := by
  simp only [List.flatMap_cons, List.flatMap_nil, List.append_assoc, List.nil_append]
  repeat rw [runClocks_bitClock _ (by simpa using h) (by simp [h0])]

/-- What seven samples leave: the byte less its last bit, and the counter at 7. -/
theorem sampled_seven (s : State) (b : Byte) (h0 : s.i2c.bitcnt = 0#4) :
    sampled (b.getLsbD 1) (sampled (b.getLsbD 2) (sampled (b.getLsbD 3) (sampled (b.getLsbD 4) (sampled (b.getLsbD 5)
      (sampled (b.getLsbD 6) (sampled (b.getLsbD 7) s)))))) =
      { s with i2c := { s.i2c with
          shift := [b.getLsbD 7, b.getLsbD 6, b.getLsbD 5, b.getLsbD 4, b.getLsbD 3, b.getLsbD 2, b.getLsbD 1].foldl shiftIn
            s.i2c.shift
          bitcnt := 7#4 } } := by
  simp only [sampled, h0, List.foldl_cons, List.foldl_nil]
  rfl

/-- The 8th bit completes the byte, whatever I2C_SHIFT held before it (43 R203). -/
theorem shiftIn_seven (v b : Byte) :
    shiftIn ([b.getLsbD 7, b.getLsbD 6, b.getLsbD 5, b.getLsbD 4, b.getLsbD 3, b.getLsbD 2, b.getLsbD 1].foldl shiftIn v)
      (b.getLsbD 0) = b := by
  simpa [wireBits] using foldl_shiftIn_wireBits v b

/-- A written byte up to its 8th rise: what stands in the engine when that rise comes. -/
theorem runClocks_writeByte {s : State} (b : Byte) (h : receivingByte s = true) (h0 : s.i2c.bitcnt = 0#4)
    (l : List I2cStrobe) :
    ∃ v, shiftIn v (b.getLsbD 0) = b ∧
      runClocks (writeByteClocks b ++ l) s =
        runClocks (.rise (b.getLsbD 0) :: .fall :: .rise true :: .fall :: l)
          { s with i2c := { s.i2c with shift := v, bitcnt := 7#4 } } := by
  refine ⟨_, shiftIn_seven s.i2c.shift b, ?_⟩
  have hl : writeByteClocks b ++ l =
      [b.getLsbD 7, b.getLsbD 6, b.getLsbD 5, b.getLsbD 4, b.getLsbD 3, b.getLsbD 2, b.getLsbD 1].flatMap bitClock ++
        (.rise (b.getLsbD 0) :: .fall :: .rise true :: .fall :: l) := by
    simp [writeByteClocks, wireBits, bitClock]
  rw [hl, runClocks_sevenBits _ _ _ _ _ _ _ h h0, sampled_seven s b h0]

end Sys2Proof.Machine
end

