-- ==== Sys2Proof/Tests/Slice0.lean ====
section
/-! SUPPORT. The model's own tests: ill-formed terms refused, one word decoded for each constructor, single steps with the
values of spec 95, and for every statement with hypotheses a state that meets them. -/

namespace Sys2Proof.Tests

open Sys2Proof Sys2Proof.Machine

/-! ### Helpers -/

/-- The configuration of the spec's vectors. -/
abbrev cfg : Config := Config.testVectors

/-- The state an answer gives, or the reset state when it stops. -/
def post (r : Result) : State := (nextState r).getD State.reset

/-- An answer that is a next state. -/
def goesOn (r : Result) : Bool := (nextState r).isSome

theorem exists_next {r : Result} (h : goesOn r = true) : ∃ t, r = .next t := by
  cases r <;> simp_all [goesOn, nextState]

theorem exists_two_steps {s : State}
    (h : goesOn (step s) = true ∧ goesOn (step (post (step s))) = true ∧ (currentSample (post (step s))).rstN = true) :
    ∃ t u, step s = .next t ∧ step t = .next u ∧ (currentSample t).rstN = true := by
  obtain ⟨t, ht⟩ := exists_next h.1
  have hp : post (step s) = t := by rw [ht]; rfl
  rw [hp] at h
  obtain ⟨u, hu⟩ := exists_next h.2.1
  exact ⟨t, u, ht, hu, h.2.2⟩

/-- The I2C engine in one state of its cycle. -/
def i2cIn (st : I2cState) (bitcnt : BitVec 4) (shift : Byte) (cmd : Byte) (byteno : BitVec 5) : State :=
  { State.reset with i2c := { State.reset.i2c with state := st, bitcnt := bitcnt, shift := shift, cmd := cmd, byteno := byteno } }

/-- The last bit of a payload byte comes in: byte number `n` under `cmd`. -/
def payloadAt (cmd : Byte) (n : BitVec 5) : State := i2cIn .wrData 7#4 0#8 cmd n

/-- The receiver in a frame to CEC_ADDR = 4. -/
def frameAt (st : CecState) (blk : BitVec 5) (bit : BitVec 4) (own : Bool) : State :=
  { State.reset with
    shared := { State.reset.shared with cecAddr := 0x4#4 }
    cec := { State.reset.cec with
      state := st, blk := blk, bit := bit, own := own, keep := st == .rxData || Nat.ble 8 bit.toNat } }

/-- The transmitter sending 40 04 (two blocks). -/
def sendingAt (st : CecState) (blk : BitVec 5) (bit : BitVec 4) (v oe : Bool) : State :=
  { State.reset with
    cec := { State.reset.cec with state := st, blk := blk, bit := bit, oe := oe }
    tx := { State.reset.tx with pending := true, buf := [(0, 0x40#8), (1, 0x04#8)], len := 2#5, v := v }
    shared := { State.reset.shared with buf := [(0, 0x40#8), (1, 0x04#8)], length := 2#5 } }

/-- The same state in the cycle of reach(n). -/
def atReach (n : Nat) (s : State) : State := waitReach n s

/-- The same state with these levels behind the edge detector: P, S2 and S1 of SCL, SDA and CEC. -/
def withLines (scl sda cec : Bool × Bool × Bool) (s : State) : State :=
  { s with sync := {
      scl := { p := scl.1, s2 := scl.2.1, s1 := scl.2.2 }
      sda := { p := sda.1, s2 := sda.2.1, s1 := sda.2.2 }
      cec := { p := cec.1, s2 := cec.2.1, s1 := cec.2.2 } } }

/-- A line that stays high, one that rises, one that falls, one that stays low. -/
abbrev high : Bool × Bool × Bool := (true, true, true)
abbrev rising : Bool × Bool × Bool := (false, true, true)
abbrev falling : Bool × Bool × Bool := (true, false, false)
abbrev low : Bool × Bool × Bool := (false, false, false)

/-- The same state with one queued pin sample. -/
def withPins (scl sda cec : Line) (s : State) : State :=
  { s with env := { s.env with pins := [{ rstN := true, scl := scl, sda := sda, cec := cec }] } }

/-- The same state with rst_n low at the coming clock edge. -/
def withReset (s : State) : State :=
  { s with env := { s.env with pins := [{ rstN := false, scl := .released, sda := .released, cec := .released }] } }

/-! ### Well-formedness: an ill-formed term for each check -/

theorem test_wf_reserved_code : (Instr.reservedCommand 0x81#8).wellFormed cfg = false := by decide
theorem test_wf_reserved_load_code : (Instr.reservedCommand 0x00#8).wellFormed cfg = false := by decide
theorem test_wf_header_that_is_a_ping : (Instr.cecHeaderBlock 0x4#4 0x4#4 true false).wellFormed cfg = false := by decide
theorem test_wf_short_start : (Instr.cecStartRx 354#16).wellFormed cfg = false := by decide
theorem test_wf_long_start : (Instr.cecStartRx 720#16).wellFormed cfg = false := by decide
theorem test_wf_no_bytes_read : (Instr.getBuffer 0).wellFormed cfg = false := by decide
theorem test_wf_too_many_bytes_read : (Instr.getBuffer 17).wellFormed cfg = false := by decide
theorem test_wf_send_nothing : (Instr.send []).wellFormed cfg = false := by decide
theorem test_wf_send_a_ping : (Instr.send [0x44#8]).wellFormed cfg = false := by decide
theorem test_wf_send_too_much : (Instr.send (List.replicate 17 0x40#8)).wellFormed cfg = false := by decide
theorem test_wf_accepts : (Instr.send (List.replicate 16 0x40#8)).wellFormed cfg = true ∧
    (Instr.getBuffer 16).wellFormed cfg = true ∧ (Instr.cecStartRx 355#16).wellFormed cfg = true ∧
    (Instr.cecStartRx 719#16).wellFormed cfg = true := by decide

/-! ### Decoding: one word written out for each constructor, from 30 R81 to R98 -/

theorem test_decode_load_id : decode cfg [.fc 0b00000000#8] = .ok .loadId := by decide
theorem test_decode_load_addr : decode cfg [.fc 0b00000001#8] = .ok .loadAddr := by decide
theorem test_decode_load_taken : decode cfg [.fc 0b00000010#8] = .ok .loadTaken := by decide
theorem test_decode_load_length : decode cfg [.fc 0b00000011#8] = .ok .loadLength := by decide
theorem test_decode_load_buffer : decode cfg [.fc 0b00000100#8] = .ok .loadBuffer := by decide
theorem test_decode_set_addr : decode cfg [.fc 0b10000001#8, .fp 0b11110111#8] = .ok (.setAddr (some 0xF7#8)) := by decide
theorem test_decode_stage : decode cfg [.fc 0b10000100#8, .fp 0b01000000#8] = .ok (.stage (some 0x40#8)) := by decide
theorem test_decode_cec_send : decode cfg [.fc 0b10000101#8, .fp 0b00000000#8] = .ok (.cecSend (some 0x00#8)) := by decide
theorem test_decode_monitor_toggle : decode cfg [.fc 0b10000110#8, .fp 0b00000000#8] = .ok (.monitorToggle (some 0x00#8)) := by decide
theorem test_decode_soft_reset : decode cfg [.fc 0b10001111#8, .fp 0b00000000#8] = .ok (.softReset (some 0x00#8)) := by decide
/-- 44 R244: an action's command byte alone. -/
theorem test_decode_action_bytes :
    decode cfg [.fc 0b10000001#8] = .ok (.setAddr none) ∧ decode cfg [.fc 0b10000100#8] = .ok (.stage none) ∧
    decode cfg [.fc 0b10000101#8] = .ok (.cecSend none) ∧ decode cfg [.fc 0b10000110#8] = .ok (.monitorToggle none) ∧
    decode cfg [.fc 0b10001111#8] = .ok (.softReset none) := by decide
theorem test_decode_reserved : decode cfg [.fc 0b10000010#8] = .ok (.reservedCommand 0x82#8) := by decide
theorem test_decode_payload_byte : decode cfg [.fp 0b00000101#8] = .ok (.payloadByte 0x05#8) := by decide
theorem test_decode_addr_write : decode cfg [.fa 0b01010100#8] = .ok (.addrWrite 0x2A#7) := by decide
theorem test_decode_addr_read : decode cfg [.fa 0b01010101#8] = .ok (.addrRead 0x2A#7) := by decide
theorem test_decode_read_byte : decode cfg [.fr true] = .ok (.readByte true) := by decide
theorem test_decode_start : decode cfg [.condition false] = .ok .i2cStart := by decide
theorem test_decode_stop : decode cfg [.condition true] = .ok .i2cStop := by decide
theorem test_decode_header : decode cfg [.fh 0b0000010001#10] = .ok (.cecHeaderBlock 0x0#4 0x4#4 false true) := by decide
theorem test_decode_ping : decode cfg [.fh 0b0100010010#10] = .ok (.cecPing 0x4#4 false) := by decide
theorem test_decode_data_block : decode cfg [.fb 0b0011011010#10] = .ok (.cecDataBlock 0x36#8 true false) := by decide
theorem test_decode_tx_block : decode cfg [.fbSent 0b0100000000#10] = .ok (.cecTxBlock 0x40#8 false false) := by decide
theorem test_decode_start_rx : decode cfg [.pulseIdle 369#16] = .ok (.cecStartRx 369#16) := by decide
theorem test_decode_start_tx : decode cfg [.sent 370 450] = .ok .cecStartTx := by decide
theorem test_decode_bit_rx : decode cfg [.pulseFrame 59#16] = .ok (.cecBitRx 59#16) := by decide
theorem test_decode_bit1_tx : decode cfg [.sent 60 240] = .ok .cecBit1Tx := by decide
theorem test_decode_bit0_tx : decode cfg [.sent 150 240] = .ok .cecBit0Tx := by decide
theorem test_decode_ack_drive : decode cfg [.ackSlot] = .ok .cecAckDrive := by decide

/-- `S 54 00 Sr 55 [.]a [.]a [.]a [.]a [.]n P` (95 V5). -/
theorem test_decode_read_id :
    decode cfg [.condition false, .fa 0x54#8, .fc 0x00#8, .condition false, .fa 0x55#8,
      .fr false, .fr false, .fr false, .fr false, .fr true, .condition true] = .ok .readId := by decide
theorem test_decode_get_addr :
    decode cfg [.condition false, .fa 0x54#8, .fc 0x01#8, .condition false, .fa 0x55#8, .fr true, .condition true] =
      .ok .getAddr := by decide
theorem test_decode_get_taken :
    decode cfg [.condition false, .fa 0x54#8, .fc 0x02#8, .condition false, .fa 0x55#8, .fr false, .fr true,
      .condition true] = .ok .getTaken := by decide
theorem test_decode_get_length :
    decode cfg [.condition false, .fa 0x54#8, .fc 0x03#8, .condition false, .fa 0x55#8, .fr true, .condition true] =
      .ok .getLength := by decide
theorem test_decode_get_buffer :
    decode cfg [.condition false, .fa 0x54#8, .fc 0x04#8, .condition false, .fa 0x55#8, .fr false, .fr true,
      .condition true] = .ok (.getBuffer 2) := by decide
theorem test_decode_set_addr_a :
    decode cfg [.condition false, .fa 0x54#8, .fc 0x81#8, .fp 0x04#8, .condition true] = .ok (.setAddrA 0x4#4) := by decide
theorem test_decode_send :
    decode cfg [.condition false, .fa 0x54#8, .fc 0x84#8, .fp 0x40#8, .fp 0x04#8, .condition true, .condition false,
      .fa 0x54#8, .fc 0x85#8, .fp 0x00#8, .condition true] = .ok (.send [0x40#8, 0x04#8]) := by decide
theorem test_decode_ping_a :
    decode cfg [.condition false, .fa 0x54#8, .fc 0x84#8, .fp 0x44#8, .condition true, .condition false,
      .fa 0x54#8, .fc 0x85#8, .fp 0x00#8, .condition true] = .ok (.pingA 0x4#4) := by decide
theorem test_decode_monitor :
    decode cfg [.condition false, .fa 0x54#8, .fc 0x86#8, .fp 0x00#8, .condition true] = .ok .monitor := by decide
theorem test_decode_reset :
    decode cfg [.condition false, .fa 0x54#8, .fc 0x8F#8, .fp 0x00#8, .condition true] = .ok .reset := by decide

/-- What is no instruction is refused by name (30 R90, R94; 44 R243). -/
theorem test_decode_rejects :
    decode cfg [] = .error .nothing ∧ decode cfg [.sent 61 240] = .error .unknownSymbol ∧
    decode cfg [.fc 0x00#8, .fp 0x00#8] = .error .payloadNotTaken ∧ decode cfg [.pulseIdle 354#16] = .error .noise ∧
    decode cfg [.pulseIdle 720#16] = .error .wedgedBus ∧ decode cfg [.sent 60 241] = .error .unknownSymbol ∧
    decode cfg [.condition false, .fa 0x56#8, .fc 0x86#8, .fp 0x00#8, .condition true] = .error .otherSlave ∧
    decode cfg [.ackSlot, .ackSlot] = .error .noInstruction := by decide

/-- The table's words: a command byte, an action with its operand byte of zeros, a received header (log 9). -/
theorem test_table_words :
    decodeTableWord 8 0x04 = some .loadBuffer ∧ decodeTableWord 8 0x8F = some (.softReset (some 0x00#8)) ∧
    decodeTableWord 10 0b0000010010 = some (.cecHeaderBlock 0x0#4 0x4#4 true false) := by decide

/-! ### Single steps, with the values of spec 95 -/

/-- 95 H1. -/
theorem test_load_id : (post (exec .loadId State.reset)).win = { readSel := .id, readLen := 5#5, wrIdx := 0#5 } := by decide
/-- 95 H1. -/
theorem test_load_addr : (post (exec .loadAddr State.reset)).win = { readSel := .addr, readLen := 1#5, wrIdx := 0#5 } := by
  decide
/-- 95 H1. -/
theorem test_load_taken : (post (exec .loadTaken State.reset)).win = { readSel := .taken, readLen := 2#5, wrIdx := 0#5 } := by
  decide
/-- 95 H1. -/
theorem test_load_length :
    (post (exec .loadLength State.reset)).win = { readSel := .length, readLen := 1#5, wrIdx := 0#5 } := by decide
/-- 95 H1: LENGTH = 2 before. -/
theorem test_load_buffer : (post (exec .loadBuffer (sendingAt .idle 0#5 0#4 false false))).win.readLen = 2#5 := by decide
/-- 95 H2: 81 F7 gives CEC_ADDR = 7. -/
theorem test_set_addr : (post (exec (.setAddr (some 0xF7#8)) State.reset)).shared.cecAddr = 0x7#4 := by decide
/-- 44 R244: `8Fa` alone leaves CEC_ADDR, and is ACKed. -/
theorem test_action_byte :
    (post (exec (.softReset none) (frameAt .idle 0#5 0#4 false))).shared.cecAddr = 0x4#4 ∧
    (post (exec (.softReset none) (frameAt .idle 0#5 0#4 false))).i2c.accept = true := by decide
/-- 95 H2: staging 44 over 40 04 keeps BUF[1]. -/
theorem test_stage :
    (post (exec (.stage (some 0x44#8)) { sendingAt .idle 0#5 0#4 false false with i2c := (payloadAt 0x84#8 1#5).i2c })).shared.buf =
      [(0, 0x44#8), (1, 0x04#8)] := by decide
/-- 95 H2: byte 17 is BUSY. -/
theorem test_stage_full : (post (exec (.stage (some 0x10#8)) (payloadAt 0x84#8 17#5))).env.events = [.busy 0x84#8] := by decide
/-- 95 H2: CEC_SEND with LENGTH = 0, after reset, is BUSY. -/
theorem test_cec_send_empty : (post (exec (.cecSend (some 0x00#8)) State.reset)).env.events = [.busy 0x85#8] := by decide
/-- 95 H2: CEC_SEND with LENGTH = 2. -/
theorem test_cec_send :
    (post (exec (.cecSend (some 0x00#8))
      { State.reset with shared := { State.reset.shared with buf := [(0, 0x40#8), (1, 0x04#8)], length := 2#5 } })).tx =
      { pending := true, buf := [(0, 0x40#8), (1, 0x04#8)], len := 2#5, bcast := false, v := false, retry := 0#8 } := by
  decide
/-- 95 H2: MONITOR 0 to 1. -/
theorem test_monitor_toggle : (post (exec (.monitorToggle (some 0x00#8)) State.reset)).shared.monitor = true := by decide
/-- 95 H2: TAKEN and CEC_ADDR after 8F 00. -/
theorem test_soft_reset :
    (post (exec (.softReset (some 0x00#8))
      { State.reset with shared := { State.reset.shared with taken := 0x0011#16, cecAddr := 0x4#4 } })).shared =
      State.reset.shared := by decide
/-- 95 H1: 05 is BAD_CMD(05), NAKed. -/
theorem test_reserved_command :
    (post (exec (.reservedCommand 0x05#8) State.reset)).env.events = [.badCmd 0x05#8] ∧
    (post (exec (.reservedCommand 0x05#8) State.reset)).i2c.accept = false := by decide
/-- 95 H2: 81 04 05: the 05 is BAD_CMD(81). -/
theorem test_payload_byte : (post (exec (.payloadByte 0x05#8) (payloadAt 0x81#8 2#5))).env.events = [.badCmd 0x81#8] := by
  decide
/-- 95 H2: 81 04: the first payload byte acts. -/
theorem test_payload_byte_acts : (post (exec (.payloadByte 0x04#8) (payloadAt 0x81#8 1#5))).shared.cecAddr = 0x4#4 := by
  decide
/-- 95 I1: 0x54 is accepted and 0x56 is not. -/
theorem test_addr_write :
    (post (exec (.addrWrite 0x2A#7) (i2cIn .addr 7#4 0x2A#8 0#8 0#5))).i2c.accept = true ∧
    (post (exec (.addrWrite 0x2B#7) (i2cIn .addr 7#4 0x2B#8 0#8 0#5))).i2c.accept = false := by decide
/-- An address byte in IDLE, outside its cycles (log 6). -/
theorem test_addr_write_outside : exec (.addrWrite 0x2A#7) State.reset = .next State.reset := rfl
/-- 95 I1: an address that is not accepted goes to IGNORE at the 8th fall. -/
theorem test_addr_write_ignored : (post (exec (.addrWrite 0x2B#7) (i2cIn .addr 8#4 0x56#8 0#8 0#5))).i2c.state = .ignore := by
  decide
/-- 95 I3: the first byte of the identification, 0x49, is driven from its bit 7 = 0. -/
theorem test_addr_read :
    (post (exec (.addrRead 0x2A#7)
      { i2cIn .addrAck 0#4 0x55#8 0#8 0#5 with win := { readSel := .id, readLen := 5#5, wrIdx := 0#5 } })).i2c.txbyte = 0x49#8 ∧
    (post (exec (.addrRead 0x2A#7)
      { i2cIn .addrAck 0#4 0x55#8 0#8 0#5 with win := { readSel := .id, readLen := 5#5, wrIdx := 0#5 } })).i2c.sdaOe = true := by
  decide
/-- 95 I3: bit 6 of 0x49 is 1: SDA is released at the fall that ends clock 1. -/
theorem test_read_byte :
    (post (exec (.readByte false)
      { i2cIn .rdData 0#4 0#8 0#8 0#5 with
        i2c := { (i2cIn .rdData 0#4 0#8 0#8 0#5).i2c with txbyte := 0x49#8, sdaOe := true } })).i2c.sdaOe = false := by decide
/-- 95 I5: the master's NAK gives IGNORE. -/
theorem test_read_byte_nak : (post (exec (.readByte true) (i2cIn .rdAck 0#4 0#8 0#8 0#5))).i2c.state = .ignore := by decide
/-- 95 I5: a START in WR_DATA with three bits in. -/
theorem test_start :
    (post (exec .i2cStart (i2cIn .wrData 3#4 0x05#8 0#8 0#5))).i2c.state = .addr ∧
    (post (exec .i2cStart (i2cIn .wrData 3#4 0x05#8 0#8 0#5))).i2c.bitcnt = 0#4 := by decide
/-- 95 I4. -/
theorem test_stop : (post (exec .i2cStop (i2cIn .wrData 1#4 0#8 0x81#8 2#5))).i2c.state = .idle := by decide
/-- 95 R1: header 04 with EOM = 1 sets TAKEN 0x0011; R4: the owned block is ACKed and released. -/
theorem test_header_block :
    (post (exec (.cecHeaderBlock 0x0#4 0x4#4 true true) (frameAt .rxWho 0#5 0#4 false))).shared.taken = 0x0011#16 := by
  decide
/-- 95 R4: after the header of 04 36. -/
theorem test_header_block_goes_on :
    (post (exec (.cecHeaderBlock 0x0#4 0x4#4 false true) (frameAt .rxWho 0#5 0#4 false))).cec.state = .rxData ∧
    (post (exec (.cecHeaderBlock 0x0#4 0x4#4 false true) (frameAt .rxWho 0#5 0#4 false))).cec.oe = false := by
  decide
/-- 95 R1: header 44 with EOM = 1. -/
theorem test_ping :
    (post (exec (.cecPing 0x4#4 true) (frameAt .rxWho 0#5 0#4 false))).shared.taken = 0x0010#16 := by decide
/-- 95 R4: block 1 of 04 36. -/
theorem test_data_block :
    (post (exec (.cecDataBlock 0x36#8 true true) (frameAt .rxData 1#5 0#4 true))).shared.buf = [(1, 0x36#8)] ∧
    (post (exec (.cecDataBlock 0x36#8 true true) (frameAt .rxData 1#5 0#4 true))).shared.length = 2#5 := by decide
/-- 95 R5: block 17. -/
theorem test_data_block_overrun :
    (post (exec (.cecDataBlock 0x36#8 false true) (frameAt .rxData 16#5 0#4 true))).env.events = [.overrun 16#5] := by
  decide
/-- 95 X5: block 0 of 40 04 ACKed: LENGTH = 1 and the TAKEN bit of the header's low nibble. -/
theorem test_tx_block :
    (post (exec (.cecTxBlock 0x40#8 false false) (sendingAt .txBit 0#5 0#4 false true))).shared.length = 1#5 ∧
    (post (exec (.cecTxBlock 0x40#8 false false) (sendingAt .txBit 0#5 0#4 false true))).shared.taken = 0x0001#16 := by
  decide
/-- 95 V3, X4: another device pulls bit 1 low: ARB_LOST(0, 1). -/
theorem test_tx_block_lost :
    (post (exec (.cecTxBlock 0x30#8 false true) (sendingAt .txBit 0#5 0#4 false true))).env.events =
      [.arbLost 0#5 1#4] := by decide
/-- 95 V1: 369 is a START, 349 is not. -/
theorem test_start_rx :
    (post (exec (.cecStartRx 369#16) State.reset)).cec.state = .rxWho ∧
    (post (exec (.cecStartRx 349#16) State.reset)).cec.state = .idle := by decide
/-- 95 X1: no attempt at 719, an attempt at 720. -/
theorem test_start_tx :
    (post (exec .cecStartTx { sendingAt .idle 0#5 0#4 false false with timer := { t := 719#16, pre := 0#16 } })).cec.oe =
      false ∧
    (post (exec .cecStartTx { sendingAt .idle 0#5 0#4 false false with timer := { t := 720#16, pre := 0#16 } })).cec.state =
      .txStart := by decide
/-- 95 V3: the first bit of 0x40 is 0. -/
theorem test_start_tx_first_bit :
    (post (exec .cecStartTx (atReach 450 (sendingAt .txStart 0#5 0#4 true false)))).tx.v = false := by decide
/-- 95 T5: 104 is a 1 and 105 is a 0. -/
theorem test_bit_rx :
    (post (exec (.cecBitRx 104#16) (frameAt .rxData 1#5 0#4 false))).cec.shift = 0x01#8 ∧
    (post (exec (.cecBitRx 105#16) (frameAt .rxData 1#5 0#4 false))).cec.shift = 0x00#8 := by decide
/-- 95 V3: bit 1 of block 0 reads back low at jiffy 105: RETRY_COUNT = 1, LENGTH = 2, TX_PENDING = 1. -/
theorem test_bit1_tx_lost :
    (post (exec .cecBit1Tx (withLines high high low (atReach 105 (sendingAt .txBit 0#5 1#4 true false))))).tx.retry = 1#8 ∧
    (post (exec .cecBit1Tx (withLines high high low (atReach 105 (sendingAt .txBit 0#5 1#4 true false))))).tx.pending =
      true := by decide
/-- 95 X5: a missing ACK of block 1: LENGTH stays, NO_ACK(1). -/
theorem test_bit1_tx_no_ack :
    (post (exec .cecBit1Tx (atReach 105 (sendingAt .txBit 1#5 9#4 true false)))).env.events = [.noAck 1#5] := by decide
/-- 95 V3: a 0 is released at jiffy 150. -/
theorem test_bit0_tx : (post (exec .cecBit0Tx (atReach 150 (sendingAt .txBit 0#5 0#4 false true)))).cec.oe = false := by
  decide
/-- 95 R4: the fall of bit 9 starts the ACK drive. -/
theorem test_ack_drive :
    (post (exec .cecAckDrive (withLines high high falling
      { frameAt .rxWho 0#5 9#4 true with cec := { (frameAt .rxWho 0#5 9#4 true).cec with ackpend := true } }))).cec.oe = true := by
  decide
/-- 95 V5: READ_ID returns 49 32 43 45 43. -/
theorem test_read_id :
    (post (exec .readId State.reset)).env.readTrace = [0x49#8, 0x32#8, 0x43#8, 0x45#8, 0x43#8] := by decide
/-- 44 R246: GET_ADDR after reset returns 0F. -/
theorem test_get_addr : (post (exec .getAddr State.reset)).env.readTrace = [0x0F#8] := by decide
/-- 95 V5: TAKEN = 0x0011 returns 11 00. -/
theorem test_get_taken :
    (post (exec .getTaken { State.reset with shared := { State.reset.shared with taken := 0x0011#16 } })).env.readTrace =
      [0x11#8, 0x00#8] := by decide
/-- 95 V5: LENGTH = 2. -/
theorem test_get_length :
    (post (exec .getLength (sendingAt .idle 0#5 0#4 false false))).env.readTrace = [0x02#8] := by decide
/-- 44 R241: past LENGTH the block sends FF. -/
theorem test_get_buffer :
    (post (exec (.getBuffer 3) (sendingAt .idle 0#5 0#4 false false))).env.readTrace = [0x40#8, 0x04#8, 0xFF#8] := by
  decide
/-- 95 I4. -/
theorem test_set_addr_a : (post (exec (.setAddrA 0x4#4) State.reset)).shared.cecAddr = 0x4#4 := by decide
/-- 95 H2, P3: 40 04 staged and pending. -/
theorem test_send :
    (post (exec (.send [0x40#8, 0x04#8]) State.reset)).tx =
      { pending := true, buf := [(0, 0x40#8), (1, 0x04#8)], len := 2#5, bcast := false, v := false, retry := 0#8 } := by
  decide
/-- 95 X7: PING 4 stages 0x44. -/
theorem test_ping_a : (post (exec (.pingA 0x4#4) State.reset)).tx.buf = [(0, 0x44#8)] := by decide
/-- 95 H2. -/
theorem test_monitor : (post (exec .monitor State.reset)).shared.monitor = true := by decide
/-- 95 H2. -/
theorem test_reset :
    (post (exec .reset (sendingAt .idle 0#5 0#4 false false))).shared = State.reset.shared := by decide

/-! ### The step -/

/-- 95 T1: 79 cycles into a jiffy, the next cycle ends it. -/
theorem test_step_jiffy :
    (post (step { State.reset with timer := { t := 0#16, pre := 79#16 } })).timer = { t := 1#16, pre := 0#16 } := by
  decide
/-- 10 R40: a pin pulled low is in the first stage after one cycle. -/
theorem test_step_synchroniser : (post (step (withPins .pulled .released .released State.reset))).sync.scl =
    { s1 := false, s2 := true, p := true } := by decide
/-- 70 R338: a wire this block has pulled low reads low while another device lets go of it. -/
theorem test_step_own_pull : (post (step (withPins .released .changing .released
    { withLines high low high State.reset with i2c := { State.reset.i2c with state := .addrAck, sdaOe := true } }))).sync.sda =
      { s1 := false, s2 := false, p := false } := by decide
/-- 70 R330. -/
theorem test_step_reset : (post (step (withReset (frameAt .rxData 1#5 0#4 true)))).cec = State.reset.cec := by decide
/-- The table's first word runs as the first instruction after reset (log 10). -/
theorem test_step_fetched_word : (post (step (State.reset.withFetchWord 8 0x01))).win.readSel = .addr := by decide

/-! ### Witnesses: states and operands that meet the hypotheses of each statement, at the ends of their ranges -/

theorem valid_cfg : cfg.Valid := by decide

/-- T_1_LOW + T_0_LOW = 211: T_MID is 105 or 106 and nothing else (log 30). -/
theorem test_valid_midpoint :
    ({ cfg with t1Low := 61, tMid := 105 } : Config).Valid ∧ ({ cfg with t1Low := 61, tMid := 106 } : Config).Valid ∧
    ¬({ cfg with t1Low := 61, tMid := 104 } : Config).Valid ∧ ¬({ cfg with tMid := 106 } : Config).Valid := by
  refine ⟨?_, ?_, ?_, ?_⟩ <;> decide
/-- 93 U5, 00 R7: the decided parameters have their one value (log 28). -/
theorem test_valid_decided :
    ¬({ cfg with bufCap := 17 } : Config).Valid ∧ ¬({ cfg with jiffyUs := 20 } : Config).Valid ∧
    ¬({ cfg with timerW := 17 } : Config).Valid ∧ ¬({ cfg with cecBcast := 0xE#4 } : Config).Valid ∧
    ¬({ cfg with idSeq := [] } : Config).Valid := by
  refine ⟨?_, ?_, ?_, ?_, ?_⟩ <;> decide

/-- A received frame to this block, its first data block next. -/
abbrev receiving : State := frameAt .rxData 1#5 0#4 true
/-- A header about to start. -/
abbrev awaitingHeader : State := frameAt .rxWho 0#5 0#4 false
/-- The first bit of 40 04 has started. -/
abbrev sending : State := sendingAt .txBit 0#5 0#4 false true
/-- The block drives the ACK of an owned header. -/
abbrev ackDriving : State :=
  { frameAt .rxWho 0#5 9#4 true with cec := { (frameAt .rxWho 0#5 9#4 true).cec with oe := true, ackdrv := true } }

theorem inv_reset : Inv State.reset := by constructor <;> decide
theorem inv_receiving : Inv receiving := by constructor <;> decide
theorem inv_awaitingHeader : Inv awaitingHeader := by constructor <;> decide
theorem inv_sending : Inv sending := by constructor <;> decide

theorem witness_DecodeInvertsEncode :
    cfg.Valid ∧ ∀ i ∈ [Instr.cecStartRx 355#16, .cecStartRx 719#16, .getBuffer 1, .getBuffer 16, .send [0x40#8],
      .send (List.replicate 16 0x44#8), .pingA 0xF#4, .reservedCommand 0x05#8, .cecHeaderBlock 0x4#4 0x4#4 false true],
      i.wellFormed cfg = true := by decide
theorem witness_EncodeInvertsDecode : decode cfg [.fh 0b1111111110#10] = .ok (.cecPing 0xF#4 false) := by decide
theorem witness_MemoryIsItsBytes :
    Memory.wf [(0, 0x40#8), (15, 0x04#8)] = true ∧
      (∀ a, a < 16 → readMem [(0, 0x40#8), (15, 0x04#8)] a = readMem (writeMem [(15, 0x04#8)] 0 0x40#8) a) ∧
      Memory.wf (writeMem [(15, 0x04#8)] 0 0x40#8) = true := by decide

/-- This block pulls SDA and CEC, and its pull has been captured; the other devices change what they do. -/
abbrev pullingBoth : State :=
  withPins .released .changing .changing
    (withLines high low low
      { ackDriving with i2c := { State.reset.i2c with state := .addrAck, sdaOe := true } })

/-- Every pin sampled low, every pin sampled high, and two changing ones under the block's own pull. -/
theorem witness_SynchronisersShift :
    (∃ t, step (withPins .pulled .pulled .pulled State.reset) = .next t) ∧
    (currentSample (withPins .pulled .pulled .pulled State.reset)).rstN = true ∧
    (∃ t, step (withPins .released .released .released State.reset) = .next t) ∧
    (currentSample (withPins .released .released .released State.reset)).rstN = true ∧
    (∃ t, step pullingBoth = .next t) ∧ (currentSample pullingBoth).rstN = true ∧ portSdaOe pullingBoth = true ∧
    portCecOe pullingBoth = true ∧ pullingBoth.sync.sda.s1 = false ∧ pullingBoth.sync.cec.s1 = false :=
  ⟨exists_next (by decide), by decide, exists_next (by decide), by decide, exists_next (by decide), by decide, by decide,
    by decide, by decide, by decide⟩

/-- The block has just started to pull SDA and CEC; both were high. -/
abbrev startsToPull : State :=
  withPins .released .released .released
    { ackDriving with i2c := { State.reset.i2c with state := .addrAck, sdaOe := true } }

/-- Every pin falls, pulled by other devices; every pin rises; SDA and CEC fall by the block's own pull. -/
theorem witness_PinEdgeIsAStrobeTwoCyclesLater :
    (∀ s ∈ [withPins .pulled .pulled .pulled State.reset,
        withPins .released .released .released (withLines low low low State.reset), startsToPull],
      (∃ t u, step s = .next t ∧ step t = .next u ∧ (currentSample t).rstN = true) ∧ (currentSample s).rstN = true) ∧
    portSdaOe State.reset = false ∧ portCecOe State.reset = false ∧ portSdaOe startsToPull = true ∧
    portCecOe startsToPull = true ∧ startsToPull.sync.sda.s1 = true ∧ startsToPull.sync.cec.s1 = true := by
  refine ⟨?_, by decide, by decide, by decide, by decide, by decide, by decide⟩
  intro s hs
  simp only [List.mem_cons, List.not_mem_nil, or_false] at hs
  rcases hs with rfl | rfl | rfl <;>
    refine ⟨exists_two_steps ?_, ?_⟩ <;> decide

/-- The last bit of SOFT_RESET's payload byte on the I2C bus, while a frame is received. -/
abbrev softResetting : State :=
  { withLines rising low falling receiving with i2c := (payloadAt 0x8F#8 1#5).i2c }

/-- One state for each branch: rst_n, SOFT_RESET, a clear, the end of a jiffy, the middle of one. -/
theorem witness_TimerOfEveryCycle :
    (∃ t, step (withReset receiving) = .next t) ∧ (currentSample (withReset receiving)).rstN = false ∧
    (∃ t, step softResetting = .next t) ∧ softResetNow softResetting = true ∧
    (∃ t, step (withLines high high falling receiving) = .next t) ∧
      timerClear (withLines high high falling receiving) = true ∧
    (∃ t, step (waitReach 65536 receiving) = .next t) ∧ timerClear (waitReach 65536 receiving) = false ∧
    (∃ t, step receiving = .next t) ∧ timerClear receiving = false := by
  refine ⟨exists_next ?_, ?_, exists_next ?_, ?_, exists_next ?_, ?_, exists_next ?_, ?_, exists_next ?_, ?_⟩ <;>
    decide
theorem witness_TimerMeasuresJiffies : State.reset.cfg.Valid := by decide
/-- n = 1 and n = 0xFFFF. -/
theorem witness_ReachComesAfterNJiffies :
    State.reset.cfg.Valid ∧ 80 = 1 * State.reset.cfg.jiffyCycles ∧ 5242800 = 0xFFFF * State.reset.cfg.jiffyCycles := by
  decide
theorem witness_ResetMeetsInv : cfg.Valid := valid_cfg
theorem witness_StepKeepsInv :
    (Inv receiving ∧ ∃ t, step receiving = .next t) ∧ (Inv sending ∧ ∃ t, step sending = .next t) :=
  ⟨⟨inv_receiving, exists_next (by decide)⟩, ⟨inv_sending, exists_next (by decide)⟩⟩
theorem witness_InvStepNeverStops : Inv awaitingHeader := inv_awaitingHeader
theorem witness_ResetEdgeSetsEveryRegister :
    (withReset receiving).cfg.Valid ∧ (currentSample (withReset receiving)).rstN = false := by decide

/-- An engine in an unused encoding. -/
abbrev badCec (c : CecState) : State := { State.reset with cec := { State.reset.cec with state := c } }
abbrev badI2c (c : I2cState) : State := { State.reset with i2c := { State.reset.i2c with state := c } }
/-- A window of 16 bytes with an unused READ_SEL, at the fall that loads byte number `n`. -/
abbrev badWindow (c : ReadSel) (st : I2cState) (n : BitVec 5) : State :=
  withLines falling high high
    { State.reset with
      win := { readSel := c, readLen := 16#5, wrIdx := 0#5 }
      i2c := { State.reset.i2c with state := st, rw := true, rdptr := n } }
theorem witness_WhatAStepStopsOn :
    ¬({ State.reset with cfg := { cfg with i2c10Bit := true } } : State).cfg.Valid ∧
    (∀ c ∈ [CecState.unused5, .unused7], (badCec c).cfg.Valid ∧ (currentSample (badCec c)).rstN = true ∧
      5 ≤ (cecStateCode (badCec c).cec.state).toNat) ∧
    (∀ c ∈ [I2cState.unused9, .unused15], (badI2c c).cfg.Valid ∧ (currentSample (badI2c c)).rstN = true ∧
      (cecStateCode (badI2c c).cec.state).toNat < 5 ∧ 9 ≤ (i2cStateCode (badI2c c).i2c.state).toNat) ∧
    (∀ s ∈ [badWindow .unused6 .addrAck 0#5, badWindow .unused7 .rdAcked 15#5],
      s.cfg.Valid ∧ (currentSample s).rstN = true ∧ unusedEncoding s = none ∧ 6 ≤ (readSelCode s.win.readSel).toNat ∧
      i2cStrobe s = some .fall ∧
      ((s.i2c.state = .addrAck ∧ s.i2c.rw = true ∧ 0 < s.win.readLen.toNat) ∨
        (s.i2c.state = .rdAcked ∧ s.i2c.rdptr.toNat < s.win.readLen.toNat))) := by
  refine ⟨?_, ?_, ?_, ?_⟩ <;> decide
theorem witness_TakenIsOnlyOredOrReset :
    (∃ t, step softResetting = .next t) ∧ softResetNow softResetting = true ∧
    (∃ t, step (withLines high high rising (frameAt .rxWho 0#5 7#4 false)) = .next t) ∧
    softResetNow (withLines high high rising (frameAt .rxWho 0#5 7#4 false)) = false := by
  refine ⟨exists_next ?_, ?_, exists_next ?_, ?_⟩ <;> decide

/-- The fall after an accepted address, and a START while SDA is driven. -/
abbrev ackingAddress : State :=
  withLines falling high high
    { State.reset with i2c := { State.reset.i2c with state := .addr, bitcnt := 8#4, shift := 0x54#8, accept := true } }
abbrev startWhileDriving : State :=
  withLines high falling high { State.reset with i2c := { State.reset.i2c with state := .rdData, sdaOe := true } }
theorem witness_SdaChangesOnlyAtSclFall :
    (∃ t, step ackingAddress = .next t ∧ portSdaOe t ≠ portSdaOe ackingAddress) ∧
    (∃ t, step startWhileDriving = .next t ∧ portSdaOe t ≠ portSdaOe startWhileDriving) ∧
    (currentSample ackingAddress).rstN = true ∧ (currentSample startWhileDriving).rstN = true :=
  ⟨⟨post (step ackingAddress), rfl, by decide⟩, ⟨post (step startWhileDriving), rfl, by decide⟩, by decide,
    by decide⟩

/-- The same CEC side, with the I2C bus quiet and with a START on it. -/
theorem witness_CecEngineIgnoresTheI2cBus :
    let s₁ := withLines high high rising (frameAt .rxWho 0#5 7#4 false)
    let s₂ := withLines high falling rising (frameAt .rxWho 0#5 7#4 false)
    (∃ t, step s₁ = .next t) ∧ (∃ t, step s₂ = .next t) ∧ (currentSample s₁).rstN = true ∧ (currentSample s₂).rstN = true ∧
      softResetNow s₁ = false ∧ softResetNow s₂ = false ∧ s₁.cfg = s₂.cfg ∧ s₁.cec = s₂.cec ∧ s₁.tx = s₂.tx ∧
      s₁.timer = s₂.timer ∧ s₁.sync.cec = s₂.sync.cec ∧ s₁.shared.cecAddr = s₂.shared.cecAddr ∧
      s₁.shared.monitor = s₂.shared.monitor ∧ s₁.shared.taken = s₂.shared.taken := by
  refine ⟨exists_next ?_, exists_next ?_, ?_⟩ <;> decide

/-- The last bit of SET_ADDR's payload byte, with the CEC bus quiet and with an edge on it. -/
theorem witness_I2cEngineIgnoresTheCecBus :
    let s₁ := withLines rising high high (payloadAt 0x81#8 1#5)
    let s₂ := withLines rising high falling (payloadAt 0x81#8 1#5)
    (∃ t, step s₁ = .next t) ∧ (∃ t, step s₂ = .next t) ∧ (currentSample s₁).rstN = true ∧ (currentSample s₂).rstN = true ∧
      s₁.cfg = s₂.cfg ∧ s₁.i2c = s₂.i2c ∧ s₁.win = s₂.win ∧ s₁.shared = s₂.shared ∧ s₁.sync.scl = s₂.sync.scl ∧
      s₁.sync.sda = s₂.sync.sda ∧ s₁.cec.keep = s₂.cec.keep ∧ s₁.tx.pending = s₂.tx.pending := by
  refine ⟨exists_next ?_, exists_next ?_, ?_⟩ <;> decide

/-- A STAGE byte and a header's last bit in one cycle: header 04, whose last bit is a 0 of 150 jiffies. -/
abbrev stageMeetsHeader (n : BitVec 5) : State :=
  withLines rising low rising
    { frameAt .rxWho 0#5 7#4 false with
      i2c := (payloadAt 0x84#8 n).i2c
      cec := { (frameAt .rxWho 0#5 7#4 false).cec with shift := 0x02#8 }
      timer := { t := 150#16, pre := 0#16 } }
theorem witness_StageLosesToAKeptHeader : ∀ n ∈ [1#5, 16#5],
    let s := stageMeetsHeader n
    s.cfg.Valid ∧ (currentSample s).rstN = true ∧ unusedEncoding s = none ∧ Memory.wf s.shared.buf = true ∧
      fetchI2c s = some (.stage (some 0x00#8)) ∧ 1 ≤ s.i2c.byteno.toNat ∧ s.i2c.byteno.toNat ≤ 16 ∧
      fetchCec s = some (.cecBitRx 150#16) ∧ s.cec.state = .rxWho ∧ s.cec.bit = 7#4 ∧ s.cec.keep = false ∧
      0x04#8 = shiftIn s.cec.shift (decide ((150#16).toNat < s.cfg.tMid)) ∧ isKept s (destinationOf 0x04#8) = true := by
  decide
theorem witness_SoftResetWinsItsCycle :
    (∃ t, step softResetting = .next t) ∧ (currentSample softResetting).rstN = true ∧ softResetNow softResetting = true := by
  refine ⟨exists_next ?_, ?_, ?_⟩ <;> decide

/-- LOAD_ADDR's last bit comes in; and a read of an index that ID_SEQ does not have, which faults. -/
abbrev loadingAddr : State := withLines rising high high (i2cIn .wrData 7#4 0#8 0#8 0#5)
abbrev readingTooFar : State :=
  withLines falling high high
    { State.reset with
      i2c := { State.reset.i2c with state := .rdAcked, rdptr := 7#5 }, win := { readSel := .id, readLen := 9#5, wrIdx := 0#5 } }
theorem witness_StepRunsTheI2cInstruction :
    (∀ s ∈ [loadingAddr, readingTooFar],
      s.cfg.Valid ∧ (currentSample s).rstN = true ∧ unusedEncoding s = none ∧ cecQuiet s = true) ∧
    fetchI2c loadingAddr = some .loadAddr ∧ (∃ t, exec .loadAddr loadingAddr = .next t) ∧
    fetchI2c readingTooFar = some (.readByte false) ∧ exec (.readByte false) readingTooFar = .fault .idIndex :=
  ⟨by decide, by decide, ⟨_, rfl⟩, by decide, rfl⟩

/-- A bit of a received frame ends; and a transmission past block 15, which faults. -/
abbrev receivingBit : State := withLines high high rising receiving
abbrev sendingTooFar : State := atReach 240 (sendingAt .txBit 15#5 9#4 true false)
theorem witness_StepRunsTheCecInstruction :
    (∀ s ∈ [receivingBit, sendingTooFar],
      s.cfg.Valid ∧ (currentSample s).rstN = true ∧ unusedEncoding s = none ∧ i2cStrobe s = none) ∧
    fetchCec receivingBit = some (.cecBitRx 0#16) ∧ (∃ t, exec (.cecBitRx 0#16) receivingBit = .next t) ∧
    fetchCec sendingTooFar = some .cecBit1Tx ∧ exec .cecBit1Tx sendingTooFar = .fault .bufferIndex :=
  ⟨by decide, by decide, ⟨_, rfl⟩, by decide, rfl⟩

/-- CEC_T = 720 exactly, in a header and in a data block. -/
theorem witness_TimeoutAbortsTheFrame :
    ∀ f ∈ [awaitingHeader, receiving],
      let s : State := { f with timer := { t := 720#16, pre := 0#16 } }
      s.cfg.Valid ∧ (currentSample s).rstN = true ∧ unusedEncoding s = none ∧ i2cStrobe s = none ∧
        (s.cec.state = .rxWho ∨ s.cec.state = .rxData) ∧ s.sync.cec.rise = false ∧ s.sync.cec.fall = false ∧
        s.cfg.tTimeout ≤ s.timer.t.toNat := by decide

/-- LENGTH 0 and 16. -/
abbrev withLength (n : BitVec 5) : State := { State.reset with shared := { State.reset.shared with length := n } }
theorem witness_LoadIdSelectsTheIdentification : State.reset.cfg.Valid := valid_cfg
theorem witness_LoadBufferSelectsTheBuffer :
    (withLength 0#5).cfg.Valid ∧ (withLength 0#5).shared.length.toNat ≤ 16 ∧
      (withLength 16#5).shared.length.toNat ≤ 16 := by decide
theorem witness_ReservedCommandIsRefused :
    (∀ c ∈ [0x05#8, 0x80#8, 0x82#8, 0x8E#8, 0x90#8, 0xFF#8], isReserved c = true) ∧
    (payloadAt 0#8 0#5).i2c.state = .wrData ∧ (payloadAt 0#8 0#5).i2c.bitcnt = 7#4 := by decide
/-- The command byte 0x81's last bit; the other cycles at the ends of their ranges; and six bits of a payload byte. -/
theorem witness_ActionWithoutPayloadDoesNothing :
    (∀ s ∈ [i2cIn .wrData 7#4 0x40#8 0#8 0#5], s.i2c.state = .wrData ∧ s.i2c.bitcnt = 7#4 ∧ s.i2c.byteno = 0#5 ∧
      0x81#8 = shiftIn s.i2c.shift true ∧ isAction 0x81#8 = true) ∧
    (∀ n ∈ [0#4, 6#4], (i2cIn .addr n 0#8 0#8 0#5).i2c.state = .addr ∧ (i2cIn .addr n 0#8 0#8 0#5).i2c.bitcnt.toNat < 7) ∧
    (i2cIn .wrData 7#4 0#8 0#8 0#5).i2c.bitcnt.toNat < 8 ∧ (i2cIn .wrData 8#4 0#8 0#8 0#5).i2c.bitcnt = 8#4 ∧
    (∀ st ∈ [I2cState.wrAck, .idle, .ignore, .addrAck, .rdData, .rdAcked, .rdAck], (i2cIn st 0#4 0#8 0#8 0#5).i2c.state = st) ∧
    (∀ c ∈ [0x81#8, 0x84#8, 0x85#8, 0x86#8, 0x8F#8], isAction c = true) ∧ ([] : List Bool).length < 7 ∧
    (List.replicate 6 true).length < 7 := by decide
theorem witness_PayloadByteByItsCommand :
    (∀ c ∈ [0x81#8, 0x84#8, 0x85#8, 0x86#8, 0x8F#8], 1 ≤ (payloadAt c 1#5).i2c.byteno.toNat ∧ (payloadAt c 1#5).i2c.cmd = c ∧
      (payloadAt c 1#5).i2c.byteno = 1#5) ∧
    (1 ≤ (payloadAt 0x04#8 1#5).i2c.byteno.toNat ∧ isAction (payloadAt 0x04#8 1#5).i2c.cmd = false) ∧
    (∀ n ∈ [2#5, 31#5], (payloadAt 0x81#8 n).i2c.cmd ≠ 0x84#8 ∧ 2 ≤ (payloadAt 0x81#8 n).i2c.byteno.toNat) := by decide
theorem witness_StageWritesOneByte :
    State.reset.cfg.Valid ∧ (∀ n ∈ [1#5, 16#5], 1 ≤ (payloadAt 0x84#8 n).i2c.byteno.toNat ∧ (payloadAt 0x84#8 n).cec.keep = false ∧
      (payloadAt 0x84#8 n).i2c.byteno.toNat ≤ 16 ∧ Memory.wf (payloadAt 0x84#8 n).shared.buf = true) ∧
    (∀ n ∈ [17#5, 31#5], 16 < (payloadAt 0x84#8 n).i2c.byteno.toNat) ∧
    (1 ≤ ({ receiving with i2c := (payloadAt 0x84#8 1#5).i2c } : State).i2c.byteno.toNat ∧ receiving.cec.keep = true) := by
  decide
theorem witness_CecSendTakesTheSnapshot :
    (∀ n ∈ [1#5, 16#5], (withLength n).tx.pending = false ∧ (withLength n).cec.keep = false ∧
      (withLength n).shared.length ≠ 0#5) ∧
    sending.tx.pending = true ∧ receiving.cec.keep = true ∧ State.reset.shared.length = 0#5 := by decide
theorem witness_AddressWriteInThreeCycles :
    ((i2cIn .addr 7#4 0x2A#8 0#8 0#5).i2c.state = .addr ∧ (i2cIn .addr 7#4 0x2A#8 0#8 0#5).i2c.bitcnt = 7#4) ∧
    (ackingAddress.i2c.state = .addr ∧ ackingAddress.i2c.bitcnt = 8#4) ∧
    (i2cIn .addrAck 0#4 0x54#8 0#8 0#5).i2c.state = .addrAck := by decide
theorem witness_AddressReadInThreeCycles :
    ((i2cIn .addr 7#4 0x2A#8 0#8 0#5).i2c.state = .addr ∧ (i2cIn .addr 7#4 0x2A#8 0#8 0#5).i2c.bitcnt = 7#4) ∧
    (ackingAddress.i2c.state = .addr ∧ ackingAddress.i2c.bitcnt = 8#4) ∧
    ((i2cIn .addrAck 0#4 0x55#8 0#8 0#5).i2c.state = .addrAck ∧
      readOut (i2cIn .addrAck 0#4 0x55#8 0#8 0#5) 0#5 = .ok 0xFF#8) := by decide
theorem witness_ReadByteInItsCycles :
    (∀ n ∈ [0#4, 6#4], (i2cIn .rdData n 0#8 0#8 0#5).i2c.state = .rdData ∧ (i2cIn .rdData n 0#8 0#8 0#5).i2c.bitcnt.toNat < 7) ∧
    ((i2cIn .rdData 7#4 0#8 0#8 0#5).i2c.state = .rdData ∧ (i2cIn .rdData 7#4 0#8 0#8 0#5).i2c.bitcnt = 7#4) ∧
    (i2cIn .rdAck 0#4 0#8 0#8 0#5).i2c.state = .rdAck ∧
    ((i2cIn .rdAcked 0#4 0#8 0#8 0#5).i2c.state = .rdAcked ∧
      readOut (i2cIn .rdAcked 0#4 0#8 0#8 0#5) (i2cIn .rdAcked 0#4 0#8 0#8 0#5).i2c.rdptr = .ok 0xFF#8) := by decide

/-- The pulses 355 and 719 are STARTs; 354 and 720 are none. -/
theorem witness_StartPulseOpensAFrame :
    State.reset.cec.state = .idle ∧ cfg.tStartLow - cfg.tErr = 355 ∧ (355#16).toNat = 355 ∧ cfg.tTimeout = 720 ∧
      (719#16).toNat < cfg.tTimeout := by decide
theorem witness_DataBitsAreShiftedIn :
    (awaitingHeader.cec.state = .rxWho ∧ awaitingHeader.cec.bit.toNat < 7) ∧
    ((frameAt .rxData 1#5 6#4 true).cec.state = .rxData ∧ (frameAt .rxData 1#5 6#4 true).cec.bit.toNat < 7) := by decide

/-- Headers 04 (kept) and 05 (abandoned), whose last bits are 0 (105 jiffies) and 1 (104 jiffies). -/
theorem witness_HeaderIsDecidedAtItsLastBit :
    let s := { frameAt .rxWho 0#5 7#4 false with cec := { (frameAt .rxWho 0#5 7#4 false).cec with shift := 0x02#8 } }
    s.cfg.Valid ∧ s.cec.state = .rxWho ∧ s.cec.bit = 7#4 ∧ Memory.wf s.shared.buf = true ∧
    (false = decide ((105#16).toNat < s.cfg.tMid) ∧ 0x04#8 = shiftIn s.cec.shift false ∧
      destinationOf 0x04#8 = s.shared.cecAddr) ∧
    (true = decide ((104#16).toNat < s.cfg.tMid) ∧ 0x05#8 = shiftIn s.cec.shift true ∧
      ¬(destinationOf 0x05#8 = 0xF#4 ∨ destinationOf 0x05#8 = s.shared.cecAddr ∨ s.shared.monitor = true)) := by
  decide

/-- Block 15 is the last that BUF has a place for. -/
theorem witness_DataByteIsStoredOrOverruns :
    ∀ x ∈ [(15#5, true), (16#5, false)],
      let s := frameAt .rxData x.1 7#4 true
      s.cfg.Valid ∧ s.cec.state = .rxData ∧ s.cec.bit = 7#4 ∧ Memory.wf s.shared.buf = true ∧
        true = decide ((59#16).toNat < s.cfg.tMid) ∧ 0x01#8 = shiftIn s.cec.shift true ∧
        decide (s.cec.blk.toNat < 16) = x.2 := by decide
theorem witness_EomAndAckBitsEndTheBlock :
    (∀ b ∈ [8#4, 9#4], (frameAt .rxWho 0#5 b true).cec.state = .rxWho ∧ (frameAt .rxWho 0#5 b true).cec.bit = b) ∧
    (∀ b ∈ [8#4, 9#4], (frameAt .rxData 1#5 b true).cec.state = .rxData ∧ (frameAt .rxData 1#5 b true).cec.bit = b) ∧
    true = decide ((59#16).toNat < cfg.tMid) := by decide

/-- The fall that opens bit 9, and the end of the drive. -/
abbrev ackSlotOpens : State :=
  withLines high high falling
    { frameAt .rxWho 0#5 9#4 true with cec := { (frameAt .rxWho 0#5 9#4 true).cec with ackpend := true } }
abbrev ackDriven : State :=
  atReach 150
    { frameAt .rxWho 0#5 9#4 true with cec := { (frameAt .rxWho 0#5 9#4 true).cec with ackdrv := true, oe := true } }
theorem witness_OwnedBlockIsAcked :
    (ackSlotOpens.cec.state = .rxWho ∧ ackSlotOpens.sync.cec.fall = true ∧ ackSlotOpens.cec.bit = 9#4 ∧
      ackSlotOpens.cec.ackpend = true) ∧
    (ackDriven.cec.state = .rxWho ∧
      ¬(ackDriven.sync.cec.fall = true ∧ ackDriven.cec.bit = 9#4 ∧ ackDriven.cec.ackpend = true) ∧
      ackDriven.cec.ackdrv = true ∧ reach ackDriven ackDriven.cfg.t0Low = true) := by decide

/-- A kept destination (4), a broadcast and an abandoned one (5). -/
theorem witness_HeaderBlockIsReceived :
    Inv awaitingHeader ∧ awaitingHeader.cec.state = .rxWho ∧ awaitingHeader.cec.bit = 0#4 ∧
      awaitingHeader.cec.ackdrv = false ∧ awaitingHeader.cec.oe = false ∧ awaitingHeader.shared.cecAddr = 0x4#4 ∧
      ¬(0x5#4 = 0xF#4 ∨ 0x5#4 = awaitingHeader.shared.cecAddr ∨ awaitingHeader.shared.monitor = true) :=
  ⟨inv_awaitingHeader, by decide, by decide, by decide, by decide, by decide, by decide⟩

/-- Blocks 1, 15 and 16. -/
theorem witness_DataBlockIsReceived :
    ∀ k ∈ [1#5, 15#5, 16#5], Inv (frameAt .rxData k 0#4 true) ∧ (frameAt .rxData k 0#4 true).cec.state = .rxData ∧
      (frameAt .rxData k 0#4 true).cec.bit = 0#4 ∧ (frameAt .rxData k 0#4 true).cec.ackdrv = false ∧
      (frameAt .rxData k 0#4 true).cec.oe = false := by
  intro k hk
  simp only [List.mem_cons, List.not_mem_nil, or_false] at hk
  rcases hk with rfl | rfl | rfl <;> exact ⟨by constructor <;> decide, by decide, by decide, by decide, by decide⟩

/-- CEC_T = 720 exactly. -/
abbrev readyToSend : State := { sendingAt .idle 0#5 0#4 false false with timer := { t := 720#16, pre := 0#16 } }
theorem witness_AttemptStartsInThreeCycles :
    (readyToSend.cfg.Valid ∧ readyToSend.cec.state = .idle ∧ readyToSend.tx.pending = true ∧
      readyToSend.sync.cec.s2 = true ∧ readyToSend.sync.cec.p = true ∧ readyToSend.cfg.tFree ≤ readyToSend.timer.t.toNat) ∧
    (∀ n ∈ [370, 450], (atReach n (sendingAt .txStart 0#5 0#4 false true)).cec.state = .txStart ∧
      reach (atReach n (sendingAt .txStart 0#5 0#4 false true)) n = true) ∧
    cfg.tStartLow = 370 ∧ cfg.tStartTotal = 450 := by decide
theorem witness_BitsAreReleasedAtTheirLowTime :
    sending.cec.state = .txBit ∧ reach (atReach 60 sending) sending.cfg.t1Low = true ∧
      reach (atReach 150 sending) sending.cfg.t0Low = true := by decide

/-- Bits 0 and 8, with the line in agreement and not. -/
theorem witness_ArbitrationIsCheckedAtTSample :
    (∀ b ∈ [0#4, 8#4],
      let s := atReach 105 (sendingAt .txBit 0#5 b true false)
      s.cfg.Valid ∧ s.cec.state = .txBit ∧ s.cec.bit.toNat ≤ 8 ∧ reach s s.cfg.tMid = true ∧ s.sync.cec.s2 = true) ∧
    (∀ b ∈ [0#4, 8#4],
      let s := withLines high high low (atReach 105 (sendingAt .txBit 0#5 b true false))
      s.cfg.Valid ∧ s.cec.state = .txBit ∧ s.cec.bit.toNat ≤ 8 ∧ reach s s.cfg.tMid = true ∧ s.sync.cec.s2 ≠ true) := by
  constructor <;> decide

/-- The first and the last block of two, with a good ACK (a low line) and without one. -/
theorem witness_AckIsReadAtTSample :
    ∀ l ∈ [high, low], ∀ k ∈ [0#5, 1#5],
      let s := withLines high high l (atReach 105 (sendingAt .txBit k 9#4 true false))
      s.cfg.Valid ∧ s.cec.state = .txBit ∧ s.cec.bit = 9#4 ∧ reach s s.cfg.tMid = true ∧
        s.cec.blk.toNat < s.tx.len.toNat := by decide

/-- From bit 8 to bit 9 of block 15, and from bit 9 of block 14 to block 15. -/
theorem witness_NextBitStartsAtTBit :
    ∀ x ∈ [(15#5, 8#4, 15, 9), (14#5, 9#4, 15, 0), (0#5, 0#4, 0, 1)],
      let s := atReach 240 (sendingAt .txBit x.1 x.2.1 true false)
      s.cfg.Valid ∧ s.cec.state = .txBit ∧ s.cec.bit.toNat ≤ 9 ∧ reach s s.cfg.tBit = true ∧
        x.2.2.1 = (if s.cec.bit.toNat < 9 then s.cec.blk.toNat else s.cec.blk.toNat + 1) ∧
        x.2.2.2 = (if s.cec.bit.toNat < 9 then s.cec.bit.toNat + 1 else 0) ∧ x.2.2.1 < 16 := by decide

/-- The first block of 40 04 and the last. -/
theorem witness_AckedBlockIsSent :
    ∀ x ∈ [(0#5, 0x40#8, false), (1#5, 0x04#8, true)],
      let s := sendingAt .txBit x.1 0#4 false true
      Inv s ∧ s.cec.state = .txBit ∧ s.cec.bit = 0#4 ∧ s.cec.oe = true ∧ x.2.1 = readMem s.tx.buf s.cec.blk.toNat ∧
        s.tx.v = x.2.1.getLsbD 7 ∧ x.2.2 = decide (s.cec.blk.toNat + 1 = s.tx.len.toNat) ∧ false = s.tx.bcast := by
  intro x hx
  simp only [List.mem_cons, List.not_mem_nil, or_false] at hx
  rcases hx with rfl | rfl <;>
    exact ⟨by constructor <;> decide, by decide, by decide, by decide, by decide, by decide, by decide, by decide⟩

theorem witness_ReadIdReturnsTheSequence : State.reset.cfg.Valid := valid_cfg

/-- One byte and sixteen, of an empty buffer and a full one. -/
theorem witness_GetBufferReturnsTheMessage :
    ∀ n ∈ [1, 16], ∀ l ∈ [0#5, 16#5], (withLength l).cfg.Valid ∧ 1 ≤ n ∧ n ≤ 16 ∧ (withLength l).shared.length.toNat ≤ 16 := by decide
theorem witness_SendStagesAndRequests :
    (∀ bs ∈ [[0x40#8], List.replicate 16 0x40#8], 1 ≤ bs.length ∧ bs.length ≤ 16) ∧ [0x44#8] = [0x4#4 ++ 0x4#4] ∧
    State.reset.cfg.Valid ∧ Memory.wf State.reset.shared.buf = true ∧ State.reset.cec.keep = false ∧ State.reset.tx.pending = false := by decide

end Sys2Proof.Tests
end

section
/-! SUPPORT. A step is the effect of the instruction that a bus presents, with the clock edge around it (00 R10, 45 R287;
log 5). The idea: an engine computes from the pre-state, and what it writes does not depend on the background of the cycle
that it writes over, so running it after the edge is running it before and adding the edge. -/

namespace Sys2Proof.Machine

/-! ### An answer with the clock edge added -/

/-- `clocked` for an answer: a next state gets the clock edge, a fault or a refusal stays. -/
def clockedResult (cleared : Bool) (s : State) (r : Result) : Result := andThen r fun t => .next (clocked cleared s t)

@[simp] theorem clockedResult_next (cleared : Bool) (s t : State) :
    clockedResult cleared s (.next t) = .next (clocked cleared s t) := rfl
@[simp] theorem clockedResult_fault (cleared : Bool) (s : State) (f : Fault) :
    clockedResult cleared s (.fault f) = .fault f := rfl

/-- The background of a cycle is the clock edge alone. -/
theorem background_eq_clocked (s : State) : background s = clocked false s s := rfl

theorem andThen_next_right (r : Result) : andThen r .next = r := by
  cases r <;> rfl

/-- What "the step is the instruction's effect with the edge around it" says of each answer that the effect can have. -/
theorem outcomes_of_clockedResult {s : State} {r : Result} {cleared : Bool} (h : step s = clockedResult cleared s r) :
    (∀ t, r = .next t → step s = .next (clocked cleared s t)) ∧ (∀ f, r = .fault f → step s = .fault f) := by
  constructor <;> rintro _ rfl <;> exact h

/-! ### The rows of the I2C bus (43 R200) -/

/-- The bus presents a row in a cycle with a strobe. -/
theorem fetchI2c_eq_some {s : State} {i : Instr} :
    fetchI2c s = some i ↔ ∃ st, i2cStrobe s = some st ∧ fetchI2cOn st s = some i := by
  unfold fetchI2c
  cases i2cStrobe s <;> simp

/-- The rows that the I2C engine executes at a strobe. -/
def onI2cBus : Instr → Bool
  | .loadId | .loadAddr | .loadTaken | .loadLength | .loadBuffer | .setAddr _ | .stage _ | .cecSend _ |
    .monitorToggle _ | .softReset _ | .reservedCommand _ | .payloadByte _ | .addrWrite _ | .addrRead _ | .readByte _ |
    .i2cStart | .i2cStop => true
  | _ => false

/-- The meaning of such a row is what the engine does with it. -/
theorem exec_eq_applyI2c {i : Instr} (h : onI2cBus i = true) (s : State) : exec i s = applyI2c i s s := by
  cases i with
  | loadId | loadAddr | loadTaken | loadLength | loadBuffer | setAddr | stage | cecSend | monitorToggle | softReset
  | reservedCommand | payloadByte | addrWrite | addrRead | readByte | i2cStart | i2cStop => rfl
  | _ => cases h

theorem decodeAddress_onI2cBus (c : Config) (b : Byte) :
    onI2cBus (decodeAddress b) = true ∧ (decodeAddress b).wellFormed c = true := by
  unfold decodeAddress
  split <;> exact ⟨rfl, rfl⟩

/-- A command byte is decoded as reserved only when it is none of the ten commands (30 R93). -/
theorem decodeCommand_onI2cBus (c : Config) (b : Byte) :
    onI2cBus (decodeCommand b) = true ∧ (decodeCommand b).wellFormed c = true := by
  unfold decodeCommand
  iterate 10 (split; · exact ⟨rfl, rfl⟩)
  refine ⟨rfl, ?_⟩
  simp_all [Instr.wellFormed, isReserved, isLoad, isAction]

theorem decodePayload_onI2cBus (c : Config) (cmd : Byte) (n : BitVec 5) (b : Byte) :
    onI2cBus (decodePayload cmd n b) = true ∧ (decodePayload cmd n b).wellFormed c = true := by
  unfold decodePayload
  split_ifs <;> exact ⟨rfl, rfl⟩

/-- What a strobe presents is a row of the I2C bus, and well formed. -/
theorem fetchI2cOn_onI2cBus {st : I2cStrobe} {s : State} {i : Instr} (c : Config) (h : fetchI2cOn st s = some i) :
    onI2cBus i = true ∧ i.wellFormed c = true := by
  cases st with
  | start | stop => cases h; exact ⟨rfl, rfl⟩
  | rise sda =>
    simp only [fetchI2cOn] at h
    split at h
    · split at h
      · cases h; exact decodeAddress_onI2cBus c _
      · cases h
    · split at h
      · cases h
        split
        · exact decodeCommand_onI2cBus c _
        · exact decodePayload_onI2cBus c _ _ _
      · cases h
    · cases h; exact ⟨rfl, rfl⟩
    · cases h
  | fall =>
    simp only [fetchI2cOn] at h
    split at h
    · split at h
      · cases h; exact decodeAddress_onI2cBus c _
      · cases h
    · cases h; split <;> exact ⟨rfl, rfl⟩
    · cases h; exact ⟨rfl, rfl⟩
    · cases h; exact ⟨rfl, rfl⟩
    · cases h

/-! ### The I2C engine and the clock edge -/

theorem addressCycle_clocked (x : BitVec 7) (r : Bool) (c : Bool) (s p a : State) :
    addressCycle x r p (clocked c s a) = clocked c s (addressCycle x r p a) := by
  unfold addressCycle addressAck
  split_ifs <;> rfl

theorem stagePayload_clocked (b : Byte) (c : Bool) (s p a : State) :
    stagePayload b p (clocked c s a) = clockedResult c s (stagePayload b p a) := by
  simp only [stagePayload]
  split <;> rfl

theorem cecSendPayload_clocked (b : Byte) (c : Bool) (s p a : State) :
    cecSendPayload b p (clocked c s a) = clockedResult c s (cecSendPayload b p a) := by
  simp only [cecSendPayload]
  split <;> rfl

/-- SOFT_RESET clears the timer (44 R255, 45 R275). -/
theorem softResetPayload_clocked (b : Byte) (c : Bool) (s p a : State) :
    softResetPayload b p (clocked c s a) = clockedResult true s (softResetPayload b p a) := rfl

/-- An action's row, when its payload byte lets the edge through. -/
theorem applyAction_clocked {code : Byte} {effect : Byte → State → State → Result} {q : Option Byte} {c : Bool}
    {s p a : State} (he : ∀ b, q = some b → effect b p (clocked c s a) = clockedResult c s (effect b p a)) :
    applyAction code effect q p (clocked c s a) = clockedResult c s (applyAction code effect q p a) := by
  cases q with
  | none => rfl
  | some b => exact he b rfl

/-- A payload byte, except as the payload of SOFT_RESET. -/
theorem applyPayloadByte_clocked {b : Byte} {c : Bool} {s p a : State}
    (hp : ¬(p.i2c.cmd = codeSoftReset ∧ p.i2c.byteno = 1#5)) :
    applyPayloadByte b p (clocked c s a) = clockedResult c s (applyPayloadByte b p a) := by
  unfold applyPayloadByte
  split
  · exact stagePayload_clocked b c s p a
  split
  · split
    · rfl
    split
    · exact cecSendPayload_clocked b c s p a
    split
    · rfl
    split
    · exact absurd ⟨by assumption, by assumption⟩ hp
    · rfl
  · rfl

theorem applyAddrWrite_clocked (x : BitVec 7) (c : Bool) (s p a : State) :
    applyAddrWrite x p (clocked c s a) = clockedResult c s (applyAddrWrite x p a) := by
  unfold applyAddrWrite
  split
  · rw [addressCycle_clocked]; rfl
  · rfl
  · rfl

theorem applyAddrRead_clocked (x : BitVec 7) (c : Bool) (s p a : State) :
    applyAddrRead x p (clocked c s a) = clockedResult c s (applyAddrRead x p a) := by
  unfold applyAddrRead
  split
  · rw [addressCycle_clocked]; rfl
  · unfold toRead; split <;> rfl
  · rfl

theorem applyReadByte_clocked (m : Bool) (c : Bool) (s p a : State) :
    applyReadByte m p (clocked c s a) = clockedResult c s (applyReadByte m p a) := by
  unfold applyReadByte
  split
  · unfold nextRead; split <;> rfl
  · unfold readClock; split_ifs <;> rfl
  · rfl
  · rfl

/-- Every row of the I2C bus but SOFT_RESET's payload byte lets the edge through. -/
theorem applyI2c_clocked {i : Instr} {c : Bool} {s p a : State} (hi : ∀ q, i ≠ .softReset (some q))
    (hp : (∃ q, i = .payloadByte q) → ¬(p.i2c.cmd = codeSoftReset ∧ p.i2c.byteno = 1#5)) :
    applyI2c i p (clocked c s a) = clockedResult c s (applyI2c i p a) := by
  cases i with
  | softReset q => exact applyAction_clocked fun b hb => absurd (hb ▸ rfl) (hi b)
  | stage q => exact applyAction_clocked fun b _ => stagePayload_clocked b c s p a
  | cecSend q => exact applyAction_clocked fun b _ => cecSendPayload_clocked b c s p a
  | setAddr q | monitorToggle q => exact applyAction_clocked fun _ _ => rfl
  | payloadByte q => exact applyPayloadByte_clocked (hp ⟨q, rfl⟩)
  | addrWrite x => exact applyAddrWrite_clocked x c s p a
  | addrRead x => exact applyAddrRead_clocked x c s p a
  | readByte m => exact applyReadByte_clocked m c s p a
  | _ => rfl

/-- The row the I2C bus presents, run in a cycle: its effect with the edge around it. -/
theorem applyI2c_background {s : State} {i : Instr} (h : fetchI2c s = some i) :
    applyI2c i s (background s) = clockedResult (softResetNow s) s (applyI2c i s s) := by
  rw [background_eq_clocked]
  by_cases hi : ∃ q, i = .softReset (some q)
  · obtain ⟨q, rfl⟩ := hi
    simp only [softResetNow, h]
    exact softResetPayload_clocked q false s s s
  · have hi : ∀ q, i ≠ .softReset (some q) := fun q hq => hi ⟨q, hq⟩
    have hs : softResetNow s = false := by
      simp only [softResetNow, h]
      split
      · rename_i q hq
        exact absurd (Option.some.inj hq) (hi q)
      · rfl
    rw [hs]
    refine applyI2c_clocked hi ?_
    rintro ⟨q, rfl⟩
    obtain ⟨st, -, hst⟩ := fetchI2c_eq_some.1 h
    exact fetchI2cOn_payloadByte hst

/-! ### A cycle in which one engine is quiet -/

theorem i2cEngine_of_fetch {s : State} {i : Instr} (h : fetchI2c s = some i) (a : State) :
    i2cEngine s a = applyI2c i s a := by
  obtain ⟨st, hst, hi⟩ := fetchI2c_eq_some.1 h
  simp only [i2cEngine, hst, i2cOn, hi]

theorem cecEngine_of_fetch {s : State} {i : Instr} (h : fetchCec s = some i) (a : State) :
    cecEngine s a = applyCec i s a := by
  simp only [cecEngine, h]

/-- Without an edge, a row or a timeout the CEC engine changes nothing. -/
theorem cecEngine_of_quiet {s : State} (h : cecQuiet s = true) : cecEngine s = .next := by
  funext a
  simp only [cecQuiet, Bool.and_eq_true, Bool.not_eq_true', Option.isNone_iff_eq_none] at h
  obtain ⟨⟨⟨hrise, hfall⟩, hfetch⟩, htime⟩ := h
  simp only [cecEngine, hfetch, betweenCec, hrise, hfall, Bool.or_false, Bool.false_eq_true, if_false]
  cases hs : s.cec.state <;> simp_all

theorem i2cEngine_of_no_strobe {s : State} (h : i2cStrobe s = none) : i2cEngine s = .next := by
  funext a
  simp only [i2cEngine, h]

theorem softResetNow_of_no_strobe {s : State} (h : i2cStrobe s = none) : softResetNow s = false := by
  simp only [softResetNow, fetchI2c, h]

theorem cycle_of_cecQuiet {s : State} (h : cecQuiet s = true) : cycle s = i2cEngine s (background s) := by
  unfold cycle
  rw [cecEngine_of_quiet h]
  split
  · rfl
  · exact andThen_next_right _

theorem cycle_of_no_strobe {s : State} (h : i2cStrobe s = none) : cycle s = cecEngine s (background s) := by
  rw [cycle_of_no_softReset (softResetNow_of_no_strobe h), i2cEngine_of_no_strobe h, andThen_next]

/-- Settles O24. The I2C engine's cycle is the presented row's, and the edge passes through it. -/
theorem stepRunsTheI2cInstruction : Obligations.StepRunsTheI2cInstruction := by
  intro s i hv hr hu hq hi
  obtain ⟨st, -, hst⟩ := fetchI2c_eq_some.1 hi
  obtain ⟨hbus, hwf⟩ := fetchI2cOn_onI2cBus s.cfg hst
  have hstep : step s = clockedResult (softResetNow s) s (exec i s) := calc
    step s = i2cEngine s (background s) := by rw [step_eq_cycle hv hr hu, cycle_of_cecQuiet hq]
    _ = applyI2c i s (background s) := i2cEngine_of_fetch hi _
    _ = clockedResult (softResetNow s) s (applyI2c i s s) := applyI2c_background hi
    _ = clockedResult (softResetNow s) s (exec i s) := by rw [exec_eq_applyI2c hbus]
  exact ⟨hwf, outcomes_of_clockedResult hstep⟩

/-! ### The rows of the CEC engine (41 R140, 42 R170) -/

/-- The cycles in which the CEC engine executes a row, and which one. -/
inductive CecPresents (s : State) : Instr → Prop where
  /-- 40 R113. -/
  | startRx (hs : s.cec.state = .idle) (hr : s.sync.cec.rise = true) (hl : isStartPulse s.cfg s.timer.t = true) :
      CecPresents s (.cecStartRx s.timer.t)
  /-- 42 R171. -/
  | attempt (hs : s.cec.state = .idle) (hgo : txGo s = true) : CecPresents s .cecStartTx
  /-- 40 R112. -/
  | bitRx (hs : s.cec.state.Receiving) (hr : s.sync.cec.rise = true) : CecPresents s (.cecBitRx s.timer.t)
  /-- The fall that opens bit 9 of an owned block (41 R151). -/
  | ackOpens (hs : s.cec.state.Receiving) (hf : s.sync.cec.fall = true) (ho : opensAck s = true) :
      CecPresents s .cecAckDrive
  /-- The end of the ACK drive (41 R151). -/
  | ackEnds (hs : s.cec.state.Receiving) (hr : s.sync.cec.rise = false) (hf : s.sync.cec.fall = false)
      (he : endsAck s = true) : CecPresents s .cecAckDrive
  /-- 40 R115. -/
  | startTx (hs : s.cec.state = .txStart) : CecPresents s .cecStartTx
  /-- 42 R170. -/
  | bitTx (hs : s.cec.state = .txBit) : CecPresents s (if s.tx.v then .cecBit1Tx else .cecBit0Tx)

/-- What the engine fetches in a received frame is one of these. -/
theorem cecPresents_of_receiving {s : State} {i : Instr} (hs : s.cec.state.Receiving) (h : fetchCec s = some i) :
    CecPresents s i := by
  have h' : (if s.sync.cec.rise then some (.cecBitRx s.timer.t)
      else if s.sync.cec.fall then (if opensAck s then some .cecAckDrive else none)
      else if endsAck s then some .cecAckDrive else none) = some i := by
    rcases hs with hs | hs <;> simpa only [fetchCec, hs] using h
  split at h'
  next hr => cases h'; exact .bitRx hs hr
  next hr =>
    split at h'
    next hf =>
      split at h'
      next ho => cases h'; exact .ackOpens hs hf ho
      next => cases h'
    next hf =>
      split at h'
      next he => cases h'; exact .ackEnds hs (Bool.eq_false_iff.2 hr) (Bool.eq_false_iff.2 hf) he
      next => cases h'

/-- What the CEC engine fetches is one of these, in every state of it. -/
theorem cecPresents_of_fetch {s : State} {i : Instr} (h : fetchCec s = some i) : CecPresents s i := by
  cases hs : s.cec.state with
  | idle =>
    simp only [fetchCec, hs] at h
    split at h
    next hr =>
      split at h
      next hl => cases h; exact .startRx hs hr hl
      next => cases h
    next =>
      split at h
      next hgo => cases h; exact .attempt hs hgo
      next => cases h
  | rxWho => exact cecPresents_of_receiving (.inl hs) h
  | rxData => exact cecPresents_of_receiving (.inr hs) h
  | txStart => simp only [fetchCec, hs] at h; cases h; exact .startTx hs
  | txBit => simp only [fetchCec, hs] at h; cases h; exact .bitTx hs
  | unused5 | unused6 | unused7 => simp only [fetchCec, hs] at h; cases h

theorem wellFormed_of_cecPresents {s : State} {i : Instr} (h : CecPresents s i) : i.wellFormed s.cfg = true := by
  cases h with
  | startRx _ _ hl => exact hl
  | bitTx => split <;> rfl
  | _ => rfl

/-- The meaning of such a row is what the engine does with it. -/
theorem exec_eq_applyCec {s : State} {i : Instr} (h : CecPresents s i) : exec i s = applyCec i s s := by
  cases h with
  | bitTx => split <;> rfl
  | _ => rfl

/-! ### The timer's clear in each state of the CEC engine (45 R275) -/

theorem timerClear_receiving {s : State} (hs : s.cec.state.Receiving) :
    timerClear s = (s.sync.cec.rise || s.sync.cec.fall) := by
  rcases hs with hs | hs <;> simp only [timerClear, hs]

/-- Two different times are reached in two different cycles (45 R274). -/
theorem reach_exclusive {s : State} {m n : Nat} (hm : reach s m = true) (hne : m ≠ n) : reach s n = false := by
  simp only [reach, Bool.and_eq_true, beq_iff_eq] at hm
  obtain ⟨-, rfl⟩ := hm
  simp [reach, hne]

/-! ### The CEC engine and the clock edge -/

/-- No received bit touches the timer of its own: the edge that brings it has cleared it. -/
theorem receiveBit_clocked (b : Bool) (c : Bool) (s p a : State) :
    receiveBit b p (clocked c s a) = clocked c s (receiveBit b p a) := by
  simp only [receiveBit, headerDecide, dataBlock, pingCheck, blockEnd]
  split_ifs <;> rfl

theorem applyCecBitRx_clocked {l : BitVec 16} {c : Bool} {s p a : State} (hs : p.cec.state.Receiving) :
    applyCecBitRx l p (clocked c s a) = clockedResult true s (applyCecBitRx l p a) := by
  have h : ∀ q, applyCecBitRx l p q = .next (receiveBit (classify p.cfg l) p
      (clearTimer { q with cec := { q.cec with lastbit := classify p.cfg l } })) := by
    rcases hs with hs | hs <;> simp [applyCecBitRx, hs]
  rw [h, h, clockedResult_next, ← receiveBit_clocked]
  rfl

/-- The start of a sent bit clears the timer (42 R173, R175). -/
theorem startTxBit_clocked (k j : Nat) (c : Bool) (s p a : State) :
    startTxBit k j p (clocked c s a) = clockedResult true s (startTxBit k j p a) := by
  unfold startTxBit
  split <;> rfl

theorem nextBit_clocked (c : Bool) (s p a : State) :
    nextBit p (clocked c s a) = clockedResult true s (nextBit p a) := by
  unfold nextBit
  split <;> exact startTxBit_clocked _ _ c s p a

/-- A lost arbitration clears the timer, and a won one leaves it alone (42 R176, R177). -/
theorem arbCheck_clocked (v line : Bool) (s p a : State) :
    arbCheck v line p (clocked false s a) = clocked (line != v) s (arbCheck v line p a) := by
  cases h : line != v <;> simp only [arbCheck, h] <;> rfl

/-- The end of a transmission clears the timer, and the good ACK of a block that is not the last leaves it alone
(42 R178, R179). -/
theorem ackCheck_clocked (line : Bool) (s p a : State) :
    ackCheck line p (clocked false s a) =
      clocked (!ackGood line p || p.cec.blk == p.tx.len - 1) s (ackCheck line p a) := by
  unfold ackCheck
  cases ackGood line p with
  | false => rfl
  | true =>
    by_cases hl : p.cec.blk = p.tx.len - 1
    · rw [if_pos hl, if_pos hl, beq_iff_eq.2 hl]; rfl
    · rw [if_neg hl, if_neg hl, beq_eq_false_iff_ne.2 hl]; rfl

/-- The three instants of a sent bit come at three different times (00 R9), and the timer is cleared as `timerClear` says. -/
theorem txBitCycle_clocked {s : State} (hv : s.cfg.Valid) (hs : s.cec.state = .txBit) (a : State) :
    txBitCycle s.tx.v s.sync.cec.s2 s (clocked false s a) =
      clockedResult (timerClear s) s (txBitCycle s.tx.v s.sync.cec.s2 s a) := by
  obtain ⟨hlow, hsample, hbit⟩ : (if s.tx.v then s.cfg.t1Low else s.cfg.t0Low) ≠ s.cfg.tSample ∧
      (if s.tx.v then s.cfg.t1Low else s.cfg.t0Low) ≠ s.cfg.tBit ∧ s.cfg.tSample ≠ s.cfg.tBit := by
    obtain ⟨-, -, -, -, -, -, -, -, -, -, -, -, -, -, h1, h2, h3, -⟩ := hv
    unfold Config.tSample
    split <;> omega
  simp only [txBitCycle, timerClear, hs]
  generalize (if s.tx.v then s.cfg.t1Low else s.cfg.t0Low) = low at hlow hsample ⊢
  by_cases hr : reach s low = true
  · rw [reach_exclusive hr hlow, reach_exclusive hr hsample, if_pos hr, if_pos hr]
    rfl
  rw [if_neg hr, if_neg hr]
  by_cases hm : reach s s.cfg.tSample = true
  · rw [reach_exclusive hm hbit, hm, if_pos rfl, if_pos rfl, Bool.false_or, Bool.true_and, clockedResult_next]
    split
    · rw [arbCheck_clocked]
    · rw [ackCheck_clocked]
  rw [if_neg hm, if_neg hm, Bool.eq_false_iff.2 hm, Bool.false_and, Bool.or_false]
  by_cases hb : reach s s.cfg.tBit = true
  · rw [hb, if_pos rfl, if_pos rfl]
    exact nextBit_clocked false s s a
  · rw [Bool.eq_false_iff.2 hb]
    rfl

/-- The row the CEC engine executes, run in a cycle: its effect with the edge around it. -/
theorem applyCec_background {s : State} {i : Instr} (hv : s.cfg.Valid) (h : CecPresents s i) :
    applyCec i s (background s) = clockedResult (timerClear s) s (applyCec i s s) := by
  rw [background_eq_clocked]
  cases h with
  | startRx hs hr hl => simp only [applyCec, applyCecStartRx, timerClear, hs, hr, hl, Bool.true_or]; rfl
  | attempt hs hgo => simp only [applyCec, applyCecStartTx, timerClear, hs, hgo, Bool.or_true]; rfl
  | bitRx hs hr =>
    rw [timerClear_receiving hs, hr, Bool.true_or]
    exact applyCecBitRx_clocked hs
  | ackOpens hs hf ho =>
    rw [timerClear_receiving hs, hf, Bool.or_true]
    rcases hs with hs | hs <;> simp only [applyCec, applyCecAckDrive, ackDrive, hs, hf, ho] <;> rfl
  | ackEnds hs hr hf he =>
    rw [timerClear_receiving hs, hr, hf]
    rcases hs with hs | hs <;> simp only [applyCec, applyCecAckDrive, ackDrive, hs, hf, he] <;> rfl
  | startTx hs =>
    simp only [applyCec, applyCecStartTx, timerClear, hs]
    split
    next hr =>
      obtain ⟨-, -, -, -, -, -, -, -, -, -, -, -, -, -, -, -, -, -, -, hlt, -⟩ := hv
      rw [reach_exclusive hr hlt.ne]
      rfl
    next =>
      split
      next ht => rw [ht]; exact startTxBit_clocked 0 0 false s s s
      next ht => rw [Bool.eq_false_iff.2 ht]; rfl
  | bitTx hs =>
    have h := txBitCycle_clocked hv hs s
    cases hb : s.tx.v <;> rw [hb] at h <;> exact h

/-- Settles O25. The CEC engine's cycle is the executed row's, and the edge passes through it, the timer cleared where
45 R275 has it. -/
theorem stepRunsTheCecInstruction : Obligations.StepRunsTheCecInstruction := by
  intro s i hv hr hu hn hi
  have hp : CecPresents s i := cecPresents_of_fetch hi
  have hstep : step s = clockedResult (timerClear s) s (exec i s) := calc
    step s = cecEngine s (background s) := by rw [step_eq_cycle hv hr hu, cycle_of_no_strobe hn]
    _ = applyCec i s (background s) := cecEngine_of_fetch hi _
    _ = clockedResult (timerClear s) s (applyCec i s s) := applyCec_background hv hp
    _ = clockedResult (timerClear s) s (exec i s) := by rw [exec_eq_applyCec hp]
  exact ⟨wellFormed_of_cecPresents hp, outcomes_of_clockedResult hstep⟩

end Sys2Proof.Machine
end

section
/-! SUPPORT. Memories as their bytes, FLAGS, and what a cycle does to the synchronisers whatever the engines do (10 R28,
R40; log 18). -/

namespace Sys2Proof.Machine

/-! ### Canonical memories (log 18) -/

@[simp] theorem readMem_cons_same (a : Nat) (v : Byte) (m : Memory) : readMem ((a, v) :: m) a = v := by
  simp [readMem]

theorem readMem_cons_ne {a x : Nat} (v : Byte) (m : Memory) (h : x ≠ a) : readMem ((a, v) :: m) x = readMem m x := by
  simp [readMem, h]

/-- Below or at the first listed index the rest of a canonical memory reads as unlisted. -/
theorem readMem_tail_of_le {a x : Nat} {v : Byte} {m : Memory} (h : Memory.wf ((a, v) :: m) = true) (hx : x ≤ a) :
    readMem m x = unlistedByte := by
  obtain ⟨-, -, hlt, -⟩ := wf_cons.1 h
  exact readMem_of_lt fun c hc => lt_of_le_of_lt hx (hlt c hc)

/-- The first listed index is the first place whose byte is not the unlisted one, so memories that read the same list no
first index before the other's. -/
theorem head_le_of_readMem_eq {a b : Nat} {v w : Byte} {m n : Memory} (hm : Memory.wf ((a, v) :: m) = true)
    (hn : Memory.wf ((b, w) :: n) = true)
    (h : ∀ x, x < bufSize → readMem ((a, v) :: m) x = readMem ((b, w) :: n) x) : b ≤ a := by
  by_contra hab
  rw [Nat.not_le] at hab
  obtain ⟨ha, hv, -, -⟩ := wf_cons.1 hm
  have hread := h a ha
  rw [readMem_cons_same, readMem_cons_ne w n hab.ne, readMem_tail_of_le hn hab.le] at hread
  exact hv hread

/-- A canonical memory that reads as unlisted everywhere lists nothing. -/
theorem eq_nil_of_readMem {m : Memory} (hm : Memory.wf m = true) (h : ∀ x, x < bufSize → readMem m x = unlistedByte) :
    m = [] := by
  cases m with
  | nil => rfl
  | cons c rest =>
    obtain ⟨a, v⟩ := c
    obtain ⟨ha, hv, -, -⟩ := wf_cons.1 hm
    exact absurd ((readMem_cons_same a v rest).symm.trans (h a ha)) hv

/-- Canonical memories with the same bytes are the same list. -/
theorem eq_of_readMem_eq {m n : Memory} (hm : Memory.wf m = true) (hn : Memory.wf n = true)
    (h : ∀ x, x < bufSize → readMem m x = readMem n x) : m = n := by
  induction m generalizing n with
  | nil => exact (eq_nil_of_readMem hn fun x hx => (h x hx).symm).symm
  | cons c rest ih =>
    obtain ⟨a, v⟩ := c
    cases n with
    | nil => exact eq_nil_of_readMem hm h
    | cons d rest' =>
      obtain ⟨b, w⟩ := d
      obtain rfl : b = a :=
        le_antisymm (head_le_of_readMem_eq hm hn h) (head_le_of_readMem_eq hn hm fun x hx => (h x hx).symm)
      obtain ⟨hb, -, -, hwf⟩ := wf_cons.1 hm
      obtain ⟨-, -, -, hwf'⟩ := wf_cons.1 hn
      obtain rfl : v = w := by simpa using h b hb
      have hrest : ∀ x, x < bufSize → readMem rest x = readMem rest' x := by
        intro x hx
        by_cases hxb : x ≤ b
        · rw [readMem_tail_of_le hm hxb, readMem_tail_of_le hn hxb]
        · have hne : x ≠ b := fun e => hxb e.le
          simpa [readMem_cons_ne v _ hne] using h x hx
      rw [ih hwf hwf' hrest]

/-- Settles O5. By induction on the listed bytes: two canonical memories that read the same begin with the same index. -/
theorem memoryIsItsBytes : Obligations.MemoryIsItsBytes :=
  fun _ _ => eq_of_readMem_eq

/-! ### FLAGS (10 R28) -/

/-- Settles O6. Each bit of the concatenation is the bit of the part that covers it. -/
theorem flagsPackTheFlagRegisters : Obligations.FlagsPackTheFlagRegisters := by
  intro s
  simp only [flags]
  generalize s.cec.own = own, s.shared.monitor = monitor, s.i2c.rw = rw, s.cec.ackpend = ackpend,
    s.cec.lastbit = lastbit
  revert own monitor rw ackpend lastbit
  decide

/-! ### The cycle's order of writes (45 R279) -/

/-- A cycle that goes on ran both engines, SOFT_RESET over the CEC engine and else the CEC engine over the I2C engine. -/
theorem cycle_eq_next {s t : State} (h : cycle s = .next t) :
    (softResetNow s = false ∧ ∃ a, i2cEngine s (background s) = .next a ∧ cecEngine s a = .next t) ∨
      (softResetNow s = true ∧ ∃ a, cecEngine s (background s) = .next a ∧ i2cEngine s a = .next t) := by
  cases hs : softResetNow s with
  | false => exact .inl ⟨rfl, andThen_eq_next.1 (cycle_of_no_softReset hs ▸ h)⟩
  | true => exact .inr ⟨rfl, andThen_eq_next.1 (cycle_of_softReset hs ▸ h)⟩

/-- SOFT_RESET's cycle is the one in which the bus presents its payload byte. -/
theorem softResetNow_eq_true {s : State} : softResetNow s = true ↔ ∃ b, fetchI2c s = some (.softReset (some b)) := by
  unfold softResetNow
  split
  next b hb => simp [hb]
  next hne => simpa using hne

/-- What the I2C engine writes in SOFT_RESET's cycle (44 R255). -/
theorem i2cEngine_of_softReset {s a t : State} (hs : softResetNow s = true) (h : i2cEngine s a = .next t) :
    ∃ b, t = setAccept true (dataByteArrives b s (softResetRegisters a)) := by
  obtain ⟨b, hb⟩ := softResetNow_eq_true.1 hs
  rw [i2cEngine_of_fetch hb] at h
  exact ⟨b, (Host.Outcome.next.inj h).symm⟩

/-! ### The synchronisers (10 R40, 45 R270) -/

/-- Neither engine writes a synchroniser: a cycle shifts them. -/
theorem cycle_sync {s t : State} (h : cycle s = .next t) : t.sync = shiftSyncs s := by
  rcases cycle_eq_next h with ⟨hs, a, hi, hc⟩ | ⟨hs, a, hc, hi⟩
  · rw [(cecEngine_frame hc).sync, (i2cEngine_frame hs hi).sync, background_sync]
  · obtain ⟨b, rfl⟩ := i2cEngine_of_softReset hs hi
    exact (cecEngine_frame hc).sync

/-- A step with rst_n high shifts the synchronisers. -/
theorem step_sync {s t : State} (h : step s = .next t) (hr : (currentSample s).rstN = true) : t.sync = shiftSyncs s := by
  obtain ⟨-, ⟨hlow, -⟩ | ⟨-, -, hcycle⟩⟩ := step_eq_next.1 h
  · rw [hr] at hlow; cases hlow
  · exact cycle_sync hcycle

@[simp] theorem Sync.shift_s1 (x : Sync) (pin : Bool) : (x.shift pin).s1 = pin := rfl
@[simp] theorem Sync.shift_s2 (x : Sync) (pin : Bool) : (x.shift pin).s2 = x.s1 := rfl
@[simp] theorem Sync.shift_p (x : Sync) (pin : Bool) : (x.shift pin).p = x.s2 := rfl

/-- Settles O8. The step shifts each synchroniser by the level `captured` from the wire. -/
theorem synchronisersShift : Obligations.SynchronisersShift := by
  intro s t h hr
  rw [step_sync h hr]
  simp only [shiftSyncs, Sync.shift_s1, Sync.shift_s2, Sync.shift_p, portSdaOe, portCecOe, true_and]
  refine ⟨?_, ?_, ?_, ?_, ?_, ?_, ?_, ?_⟩
  case refine_7 | refine_8 =>
    intro hoe hlast
    rw [hoe, hlast]
    exact captured_of_oe (.inr rfl) _
  all_goals
    intro hline
    rw [hline]
    rfl

/-- Two shifts on, the stages that the edge detector compares are the level captured first and the level before it. -/
theorem fall_shift_shift (x : Sync) (pin pin' : Bool) : ((x.shift pin).shift pin').fall = (x.s1 && !pin) := rfl

theorem rise_shift_shift (x : Sync) (pin pin' : Bool) : ((x.shift pin).shift pin').rise = (!x.s1 && pin) := rfl

/-- A wire that another device pulls, or this block while nobody else drives it, is captured low (70 R338). -/
theorem captured_eq_false {l : Line} {oe : Bool} (h : l = .pulled ∨ (l = .released ∧ oe = true)) (last free : Bool) :
    captured l oe last free = false := by
  rcases h with rfl | ⟨rfl, rfl⟩ <;> rfl

/-- Settles O9. Two steps shift each synchroniser twice, so the level captured by the first stands against the one before
it. -/
theorem pinEdgeIsAStrobeTwoCyclesLater : Obligations.PinEdgeIsAStrobeTwoCyclesLater := by
  intro s t u hst htu hrs hrt
  rw [step_sync htu hrt]
  simp only [shiftSyncs, step_sync hst hrs, fall_shift_shift, rise_shift_shift, portSdaOe, portCecOe]
  refine ⟨?_, ?_, ?_, ?_, ?_, ?_⟩
  case refine_1 => intro hline hs1; rw [hline, hs1]; rfl
  case refine_2 => intro hline hs1; rw [hline, hs1]; rfl
  case refine_3 | refine_5 => intro hlow hs1; rw [captured_eq_false hlow, hs1]; rfl
  case refine_4 | refine_6 => intro hline hoe hs1; rw [hline, hoe, hs1]; rfl

end Sys2Proof.Machine
end

section
/-! SUPPORT. What the CEC engine can do in a cycle, said once (41 R140, 42 R170), and what that leaves in TAKEN (10 R26). -/

namespace Sys2Proof.Machine

/-! ### A received bit (41 R143 to R149) -/

/-- Everything a received bit can leave in the CEC engine's registers and in the shared state: `s` is the pre-state, `a` the
state it writes over. -/
inductive BitMove (b : Bool) (s a : State) : CecRegs → Shared → Prop where
  /-- Bits 0 to 6. -/
  | shifted (hn : s.cec.bit.toNat < 7) :
      BitMove b s a { a.cec with shift := shiftIn s.cec.shift b, bit := s.cec.bit + 1 } a.shared
  /-- Bit 7 of a header that is kept (41 R146). -/
  | headerKept (hs : s.cec.state = .rxWho) (hb : s.cec.bit = 7#4)
      (hk : isKept s (destinationOf (shiftIn s.cec.shift b)) = true) :
      BitMove b s a
        { a.cec with
          shift := shiftIn s.cec.shift b, keep := true, own := isOwned s (destinationOf (shiftIn s.cec.shift b))
          ackpend := isOwned s (destinationOf (shiftIn s.cec.shift b)), bit := 8#4 }
        { a.shared with
          buf := writeMem s.shared.buf (0#4).toNat (shiftIn s.cec.shift b), length := 1#5
          taken := orTaken s.shared.taken (sourceOf (shiftIn s.cec.shift b)) }
  /-- Bit 7 of a header that is not kept (41 R145). -/
  | headerDropped (hs : s.cec.state = .rxWho) (hb : s.cec.bit = 7#4)
      (hk : isKept s (destinationOf (shiftIn s.cec.shift b)) = false) :
      BitMove b s a { a.cec with shift := shiftIn s.cec.shift b, state := .idle }
        { a.shared with taken := orTaken s.shared.taken (sourceOf (shiftIn s.cec.shift b)) }
  /-- Bit 7 of a data block that BUF has a place for (41 R147). -/
  | stored (hs : s.cec.state ≠ .rxWho) (hb : s.cec.bit = 7#4) (hblk : s.cec.blk.toNat < s.cfg.bufCap) :
      BitMove b s a { a.cec with shift := shiftIn s.cec.shift b, ackpend := s.cec.own, bit := 8#4 }
        { a.shared with
          buf := writeMem s.shared.buf (s.cec.blk.setWidth 4).toNat (shiftIn s.cec.shift b), length := s.cec.blk + 1 }
  /-- Bit 7 of a data block beyond BUF (41 R147). -/
  | overrun (hs : s.cec.state ≠ .rxWho) (hb : s.cec.bit = 7#4) (hblk : s.cfg.bufCap ≤ s.cec.blk.toNat) :
      BitMove b s a
        { a.cec with shift := shiftIn s.cec.shift b, state := .idle, keep := false, own := false, ackpend := false }
        a.shared
  /-- The EOM bit, with the record of a ping (41 R148). -/
  | eom {sh : Shared} (hb : s.cec.bit = 8#4)
      (hsh : sh = a.shared ∨ sh = { a.shared with taken := orTaken s.shared.taken s.shared.cecAddr }) :
      BitMove b s a { a.cec with eom := b, bit := 9#4 } sh
  /-- The ACK bit of the last block (41 R149). -/
  | frameEnds (hb : s.cec.bit = 9#4) (he : s.cec.eom = true) :
      BitMove b s a { a.cec with state := .idle, keep := false, own := false } a.shared
  /-- The ACK bit of another block (41 R149). -/
  | blockEnds (hb : s.cec.bit = 9#4) (he : s.cec.eom = false) :
      BitMove b s a { a.cec with state := .rxData, blk := s.cec.blk + 1, bit := 0#4 } a.shared
  /-- A bit index that no block has. -/
  | beyond (hb : 9 < s.cec.bit.toNat) : BitMove b s a a.cec a.shared

theorem receiveBit_move (b : Bool) (s a : State) :
    BitMove b s a (receiveBit b s a).cec (receiveBit b s a).shared := by
  simp only [receiveBit]
  split
  next hn => exact .shifted hn
  split
  next h7 =>
    split
    next hs =>
      have hs := beq_iff_eq.1 hs
      simp only [headerDecide]
      split
      next hk => exact .headerKept hs h7 hk
      next hk => exact .headerDropped hs h7 (Bool.eq_false_iff.2 hk)
    next hs =>
      have hs := fun e => hs (beq_iff_eq.2 e)
      simp only [dataBlock]
      split
      next hblk => exact .stored hs h7 hblk
      next hblk => exact .overrun hs h7 (Nat.not_lt.1 hblk)
  split
  next h8 =>
    simp only [pingCheck]
    split
    · exact .eom h8 (.inr rfl)
    · exact .eom h8 (.inl rfl)
  split
  next h9 =>
    simp only [blockEnd]
    split
    next he => exact .frameEnds h9 he
    next he => exact .blockEnds h9 (Bool.eq_false_iff.2 he)
  exact .beyond (by bv_omega)

/-- A received bit writes the CEC engine's registers, the shared state and the event trace alone. -/
theorem receiveBit_tx_timer (b : Bool) (s a : State) :
    (receiveBit b s a).tx = a.tx ∧ (receiveBit b s a).timer = a.timer := by
  simp only [receiveBit, headerDecide, dataBlock, pingCheck, blockEnd]
  split_ifs <;> exact ⟨rfl, rfl⟩

/-! ### The moves of the CEC engine -/

/-- The state after a bit of value `v` has started (42 R173, R175). -/
def bitStarted (k j : Nat) (v : Bool) (acc : State) : State :=
  clearTimer { acc with
    cec := { acc.cec with state := .txBit, bit := BitVec.ofNat 4 j, blk := BitVec.ofNat 5 k, oe := true }
    tx := { acc.tx with v := v } }

theorem startTxBit_eq_next {k j : Nat} {p a t : State} (h : startTxBit k j p a = .next t) :
    ∃ v, t = bitStarted k j v a := by
  unfold startTxBit at h
  split at h
  next v _ => exact ⟨v, (Host.Outcome.next.inj h).symm⟩
  next => cases h

/-- Everything the CEC engine can do in a cycle, each with what its guard says of the pre-state `s` that the invariant turns
on; `a` is the state it writes over. -/
inductive CecMove (s a : State) : State → Prop where
  /-- Nothing; in a frame no edge comes, and an ACK bit on the wire is not at its sample point. -/
  | quiet (hr : s.cec.state.Receiving → s.sync.cec.rise = false ∧ s.sync.cec.fall = false)
      (ht : s.cec.state = .txBit → s.cec.bit = 9#4 → reach s s.cfg.tSample = false) : CecMove s a a
  /-- An edge in IDLE that is no START (41 R141). -/
  | idleEdge (hs : s.cec.state = .idle) : CecMove s a (clearTimer a)
  /-- A START (41 R142). -/
  | frameStart (hs : s.cec.state = .idle) : CecMove s a (clearTimer (frameInit a))
  /-- An attempt begins (42 R171, R172). -/
  | attempt (hs : s.cec.state = .idle) (hgo : txGo s = true) : CecMove s a (attemptInit s a)
  /-- A fall in a frame, outside the ACK slot of an owned block (41 R152). -/
  | frameFall (hs : s.cec.state.Receiving) (hf : s.sync.cec.fall = true) (ho : opensAck s = false) :
      CecMove s a (clearTimer a)
  /-- The fall that opens the ACK slot of an owned block (41 R151). -/
  | ackOpens (hs : s.cec.state.Receiving) (ho : opensAck s = true) : CecMove s a (ackDriveStart a)
  /-- The end of the ACK drive (41 R151). -/
  | ackEnds (hs : s.cec.state.Receiving) (hr : s.sync.cec.rise = false) (hf : s.sync.cec.fall = false) :
      CecMove s a (ackDriveEnd a)
  /-- A received bit (41 R143). -/
  | bit (hs : s.cec.state.Receiving) (hr : s.sync.cec.rise = true) (b : Bool) :
      CecMove s a (receiveBit b s (clearTimer { a with cec := { a.cec with lastbit := b } }))
  /-- A missing edge (41 R150). -/
  | timeout (hs : s.cec.state.Receiving) : CecMove s a (timeoutAbort s a)
  /-- The release of the line in a pulse this block sends (40 R114, R115). -/
  | release (hs : s.cec.state.Sending) (ht : s.cec.state = .txBit → reach s s.cfg.tSample = false) :
      CecMove s a (releaseCec a)
  /-- The first bit of an attempt (42 R173). -/
  | firstBit (hs : s.cec.state = .txStart) (v : Bool) : CecMove s a (bitStarted 0 0 v a)
  /-- The next bit of a block (42 R175). -/
  | nextBit (hs : s.cec.state = .txBit) (hb : s.cec.bit.toNat < 9) (v : Bool) :
      CecMove s a (bitStarted s.cec.blk.toNat (s.cec.bit.toNat + 1) v a)
  /-- The first bit of the next block, a bit time after the ACK bit began (42 R175). -/
  | nextBlock (hs : s.cec.state = .txBit) (hb : 9 ≤ s.cec.bit.toNat) (ht : reach s s.cfg.tBit = true) (v : Bool) :
      CecMove s a (bitStarted (s.cec.blk.toNat + 1) 0 v a)
  /-- Arbitration is lost (42 R177). -/
  | arbLost (hs : s.cec.state = .txBit) : CecMove s a (arbLost s a)
  /-- A block that is not the last is ACKed (42 R178). -/
  | blockAcked (hs : s.cec.state = .txBit) (hl : s.cec.blk ≠ s.tx.len - 1) : CecMove s a (ackCount s a)
  /-- The last block is ACKed (42 R178). -/
  | sent (hs : s.cec.state = .txBit) : CecMove s a (txDone (ackCount s a))
  /-- A block is not ACKed (42 R179). -/
  | notAcked (hs : s.cec.state = .txBit) : CecMove s a (ackFail s a)

/-- In a transmission or in IDLE no condition is put on the edges. -/
theorem CecMove.quiet_of_not_receiving {s : State} (a : State) (hs : ¬s.cec.state.Receiving)
    (ht : s.cec.state = .txBit → s.cec.bit = 9#4 → reach s s.cfg.tSample = false) : CecMove s a a :=
  .quiet (fun h => absurd h hs) ht

theorem applyCecStartRx_move {s a t : State} {l : BitVec 16} (hs : s.cec.state = .idle)
    (h : applyCecStartRx l s a = .next t) : CecMove s a t := by
  simp only [applyCecStartRx, hs] at h
  split at h <;> cases h
  · exact .frameStart hs
  · exact .idleEdge hs

theorem applyCecBitRx_move {s a t : State} {l : BitVec 16} (hs : s.cec.state.Receiving) (hr : s.sync.cec.rise = true)
    (h : applyCecBitRx l s a = .next t) : CecMove s a t := by
  have hb : t = receiveBit (classify s.cfg l) s
      (clearTimer { a with cec := { a.cec with lastbit := classify s.cfg l } }) := by
    rcases hs with hs' | hs' <;> simp only [applyCecBitRx, hs'] at h <;> exact (Host.Outcome.next.inj h).symm
  exact hb ▸ .bit hs hr _

/-- The samples of a sent bit: the read-back, or the ACK (42 R176, R178, R179). -/
theorem sample_move {s : State} (a : State) (hs : s.cec.state = .txBit) (v line : Bool) :
    CecMove s a (if s.cec.bit.toNat ≤ 8 then arbCheck v line s a else ackCheck line s a) := by
  split
  next hb =>
    have h9 : s.cec.bit ≠ 9#4 := fun e => by rw [e] at hb; exact absurd hb (by decide)
    unfold arbCheck
    split
    · exact .arbLost hs
    · exact .quiet_of_not_receiving a (by simp [hs]) fun _ e => absurd e h9
  next =>
    unfold ackCheck
    split
    · split
      · exact .sent hs
      next hl => exact .blockAcked hs hl
    · exact .notAcked hs

theorem nextBit_move {s a t : State} (hs : s.cec.state = .txBit) (ht : reach s s.cfg.tBit = true)
    (h : nextBit s a = .next t) : CecMove s a t := by
  unfold nextBit at h
  split at h
  next hb =>
    obtain ⟨v, rfl⟩ := startTxBit_eq_next h
    exact .nextBit hs hb v
  next hb =>
    obtain ⟨v, rfl⟩ := startTxBit_eq_next h
    exact .nextBlock hs (Nat.not_lt.1 hb) ht v

/-- The release of a sent bit and its sample come at different times (00 R9). -/
theorem txBitCycle_move {s a t : State} {v line : Bool} (hv : s.cfg.Valid) (hs : s.cec.state = .txBit)
    (h : txBitCycle v line s a = .next t) : CecMove s a t := by
  have hne : (if v then s.cfg.t1Low else s.cfg.t0Low) ≠ s.cfg.tSample := by
    obtain ⟨-, h1, h0, -⟩ := valid_bit_times hv
    unfold Config.tSample
    split <;> omega
  simp only [txBitCycle, hs] at h
  generalize (if v then s.cfg.t1Low else s.cfg.t0Low) = low at h hne
  split at h
  next hlow => cases h; exact .release (.inr hs) fun _ => reach_exclusive hlow hne
  next =>
    split at h
    next => exact Host.Outcome.next.inj h ▸ sample_move a hs v line
    next hsample =>
      split at h
      next ht => exact nextBit_move hs ht h
      next =>
        cases h
        exact .quiet_of_not_receiving a (by simp [hs]) fun _ _ => Bool.eq_false_iff.2 hsample

theorem applyCecStartTx_move {s a t : State} (hs : s.cec.state = .txStart) (h : applyCecStartTx s a = .next t) :
    CecMove s a t := by
  simp only [applyCecStartTx, hs] at h
  split at h
  next => cases h; exact .release (.inl hs) fun e => by simp [hs] at e
  next =>
    split at h
    next =>
      obtain ⟨v, rfl⟩ := startTxBit_eq_next h
      exact .firstBit hs v
    next => cases h; exact .quiet_of_not_receiving a (by simp [hs]) fun e => by simp [hs] at e

/-- A row of the CEC engine is one of its moves. -/
theorem applyCec_move {s a t : State} {i : Instr} (hv : s.cfg.Valid) (hi : CecPresents s i)
    (h : applyCec i s a = .next t) : CecMove s a t := by
  cases hi with
  | startRx hs => exact applyCecStartRx_move hs h
  | attempt hs hgo =>
    simp only [applyCec, applyCecStartTx, hs, hgo, if_true] at h
    cases h
    exact .attempt hs hgo
  | bitRx hs hr => exact applyCecBitRx_move hs hr h
  | ackOpens hs hf ho =>
    have ht : t = ackDriveStart a := by
      rcases hs with hs | hs <;> simp [applyCec, applyCecAckDrive, ackDrive, hs, hf, ho] at h <;> exact h.symm
    exact ht ▸ .ackOpens hs ho
  | ackEnds hs hr hf he =>
    have ht : t = ackDriveEnd a := by
      rcases hs with hs | hs <;> simp [applyCec, applyCecAckDrive, ackDrive, hs, hf, he] at h <;> exact h.symm
    exact ht ▸ .ackEnds hs hr hf
  | startTx hs => exact applyCecStartTx_move hs h
  | bitTx hs =>
    cases hb : s.tx.v <;> rw [hb] at h <;> exact txBitCycle_move hv hs h

/-- What the engine fetches in a frame (41 R140). -/
theorem fetchCec_of_receiving {s : State} (hs : s.cec.state.Receiving) :
    fetchCec s =
      if s.sync.cec.rise then some (.cecBitRx s.timer.t)
      else if s.sync.cec.fall then (if opensAck s then some .cecAckDrive else none)
      else if endsAck s then some .cecAckDrive else none := by
  rcases hs with hs | hs <;> simp only [fetchCec, hs]

/-- In a frame a cycle with no row has no rise, and no fall that opens an ACK slot. -/
theorem no_row_of_receiving {s : State} (hs : s.cec.state.Receiving) (h : fetchCec s = none) :
    s.sync.cec.rise = false ∧ (s.sync.cec.fall = true → opensAck s = false) := by
  rw [fetchCec_of_receiving hs] at h
  split at h
  next => cases h
  next hr =>
    refine ⟨Bool.eq_false_iff.2 hr, fun hf => ?_⟩
    rw [if_pos hf] at h
    split at h
    next => cases h
    next ho => exact Bool.eq_false_iff.2 ho

/-- A cycle without a row of the CEC engine is one of its moves. -/
theorem betweenCec_move {s : State} (a : State) (hf : fetchCec s = none) : CecMove s a (betweenCec s a) := by
  have hframe : s.cec.state.Receiving →
      CecMove s a (if s.sync.cec.fall then clearTimer a else if timedOut s then timeoutAbort s a else a) := by
    intro hs
    obtain ⟨hr, ho⟩ := no_row_of_receiving hs hf
    split
    next hfall => exact .frameFall hs hfall (ho hfall)
    next hfall =>
      split
      · exact .timeout hs
      · exact .quiet (fun _ => ⟨hr, Bool.eq_false_iff.2 hfall⟩) fun e => by rcases hs with hs | hs <;> simp [hs] at e
  cases hs : s.cec.state with
  | idle =>
    simp only [betweenCec, hs]
    split
    · exact .idleEdge hs
    · exact .quiet_of_not_receiving a (by simp [hs]) fun e => by simp [hs] at e
  | rxWho => simpa only [betweenCec, hs] using hframe (.inl hs)
  | rxData => simpa only [betweenCec, hs] using hframe (.inr hs)
  | txBit => simp [fetchCec, hs] at hf
  | txStart | unused5 | unused6 | unused7 =>
    simp only [betweenCec, hs]
    exact .quiet_of_not_receiving a (by simp [hs]) fun e => by simp [hs] at e

/-- What the CEC engine does in a cycle is one of its moves. -/
theorem cecEngine_move {s a t : State} (hv : s.cfg.Valid) (h : cecEngine s a = .next t) : CecMove s a t := by
  unfold cecEngine at h
  split at h
  next hi => exact applyCec_move hv (cecPresents_of_fetch hi) h
  next hi => exact Host.Outcome.next.inj h ▸ betweenCec_move a hi

/-! ### TAKEN (10 R26) -/

/-- One address at most is OR-ed into a value of TAKEN. -/
def OredOnce (v w : BitVec 16) : Prop := w = v ∨ ∃ x : BitVec 4, w = orTaken v x

theorem bitMove_taken {b : Bool} {s a : State} {r : CecRegs} {sh : Shared} (h : BitMove b s a r sh)
    (ha : a.shared.taken = s.shared.taken) : OredOnce s.shared.taken sh.taken := by
  cases h with
  | headerKept | headerDropped => exact .inr ⟨_, rfl⟩
  | eom _ hsh =>
    rcases hsh with rfl | rfl
    · exact .inl ha
    · exact .inr ⟨_, rfl⟩
  | _ => exact .inl ha

theorem cecMove_taken {s a t : State} (h : CecMove s a t) (ha : a.shared.taken = s.shared.taken) :
    OredOnce s.shared.taken t.shared.taken := by
  cases h with
  | bit hs hr b => exact bitMove_taken (receiveBit_move b s _) ha
  | blockAcked | sent =>
    simp only [ackCount, txDone, clearTimer_shared]
    split
    · exact .inr ⟨_, rfl⟩
    · exact .inl ha
  | _ => exact .inl ha

/-- Settles O18. Of the engines the CEC engine alone writes TAKEN, in a header, a ping and an ACKed header block. -/
theorem takenIsOnlyOredOrReset : Obligations.TakenIsOnlyOredOrReset := by
  intro s t h
  obtain ⟨hv, ⟨hr, rfl⟩ | ⟨hr, -, hcycle⟩⟩ := step_eq_next.1 h
  · rw [if_pos (.inl hr)]
    rfl
  rcases cycle_eq_next hcycle with ⟨hs, a, hi, hc⟩ | ⟨hs, a, hc, hi⟩
  · rw [if_neg (by simp [hr, hs])]
    exact cecMove_taken (cecEngine_move hv hc) (i2cEngine_frame hs hi).taken
  · rw [if_pos (.inr hs)]
    obtain ⟨b, rfl⟩ := i2cEngine_of_softReset hs hi
    rfl

end Sys2Proof.Machine
end

section
/-! SUPPORT. The invariant in parts: each part reads the registers of one owner, so that each engine keeps its own part and
leaves the others alone (45 R277, R282). -/

namespace Sys2Proof.Machine

/-! ### The parts -/

/-- The encodings of CEC_STATE in use (10 R33). -/
def CecState.Used (c : CecState) : Prop := c = .idle ∨ c.Receiving ∨ c.Sending

/-- The encodings of I2C_STATE in use (10 R35). -/
abbrev I2cState.Used (c : I2cState) : Prop := (i2cStateCode c).toNat < 9

theorem unusedEncoding_eq_none {s : State} : unusedEncoding s = none ↔ s.cec.state.Used ∧ s.i2c.state.Used := by
  unfold unusedEncoding CecState.Used
  cases hc : s.cec.state with
  | unused5 | unused6 | unused7 => simp
  | idle | rxWho | rxData | txStart | txBit =>
    cases s.i2c.state <;> simp [CecState.Receiving, CecState.Sending, I2cState.Used, i2cStateCode]

/-- BUF, TX_BUF and their lengths: what both engines write (10 R23, R24, R34). -/
structure BuffersOk (c : Config) (sh : Shared) (tx : TxRegs) : Prop where
  bufWf : Memory.wf sh.buf = true
  txBufWf : Memory.wf tx.buf = true
  length : sh.length.toNat ≤ c.bufCap
  txLen : tx.len.toNat ≤ c.bufCap ∧ (tx.pending = true → 1 ≤ tx.len.toNat)

/-- The host's windows, which the dispatcher alone writes (10 R29 to R31). -/
structure WindowOk (c : Config) (w : Window) : Prop where
  readSel : w.readSel ≠ .unused6 ∧ w.readSel ≠ .unused7
  wrIdx : w.wrIdx.toNat ≤ c.bufCap
  readLen : w.readLen.toNat ≤ w.readSel.capacity

/-- The I2C engine's registers, with SCL_P (10 R35, R36). -/
structure I2cOk (r : I2cRegs) (sclP : Bool) : Prop where
  used : r.state.Used
  readBits : r.state = .rdData → r.bitcnt.toNat ≤ 7
  writtenBits : r.state = .addr ∨ r.state = .wrData → r.bitcnt.toNat ≤ 8 ∧ (r.bitcnt = 8#4 → sclP = true)
  sdaOe : r.sdaOe = true → r.state = .addrAck ∨ r.state = .wrAck ∨ r.state = .rdData

/-- The CEC engine's registers, with the transmit registers, CEC_T and CEC_P (10 R33, R34). -/
structure CecOk (c : Config) (r : CecRegs) (tx : TxRegs) (now : BitVec 16) (cecP : Bool) : Prop where
  used : r.state.Used
  sending : r.state.Sending → tx.pending = true ∧ r.blk.toNat < tx.len.toNat ∧ r.bit.toNat ≤ 9
  lastAck : r.state = .txBit → r.bit = 9#4 → r.blk.toNat + 1 = tx.len.toNat → now.toNat < c.tMid
  keep : r.keep = true ↔ r.state = .rxData ∨ (r.state = .rxWho ∧ 8 ≤ r.bit.toNat)
  own : r.own = true → r.keep = true
  ackpend : r.ackpend = true → r.own = true ∧ (r.bit = 8#4 ∨ r.bit = 9#4)
  ackTaken : r.state.Receiving → r.bit = 9#4 → cecP = false → r.ackpend = false
  receiving : r.state.Receiving → r.bit.toNat ≤ 9
  headerBlock : r.state = .rxWho → r.blk = 0#5
  dataBlocks : r.state = .rxData →
    1 ≤ r.blk.toNat ∧ r.blk.toNat ≤ c.bufCap ∧ (8 ≤ r.bit.toNat → r.blk.toNat < c.bufCap)

/-- The invariant is its parts. -/
theorem inv_iff {s : State} : Inv s ↔
    s.cfg.Valid ∧ BuffersOk s.cfg s.shared s.tx ∧ WindowOk s.cfg s.win ∧ s.timer.pre.toNat < s.cfg.jiffyCycles ∧
      I2cOk s.i2c s.sync.scl.p ∧ CecOk s.cfg s.cec s.tx s.timer.t s.sync.cec.p := by
  constructor
  · intro h
    obtain ⟨hcec, hi2c⟩ := unusedEncoding_eq_none.1 h.encodings
    exact ⟨h.valid, ⟨h.bufWf, h.txBufWf, h.length, h.txLen⟩, ⟨h.readSel, h.wrIdx, h.readLen⟩, h.pre,
      ⟨hi2c, h.readBits, h.writtenBits, h.sdaOe⟩,
      ⟨hcec, h.sending, h.lastAck, h.keep, h.own, h.ackpend, h.ackTaken, h.receiving, h.headerBlock, h.dataBlocks⟩⟩
  · rintro ⟨hv, hb, hw, hpre, hi, hc⟩
    exact {
      valid := hv, bufWf := hb.bufWf, txBufWf := hb.txBufWf
      encodings := unusedEncoding_eq_none.2 ⟨hc.used, hi.used⟩
      readSel := hw.readSel, length := hb.length, wrIdx := hw.wrIdx, readLen := hw.readLen, pre := hpre, txLen := hb.txLen
      sending := hc.sending, lastAck := hc.lastAck, keep := hc.keep, own := hc.own, ackpend := hc.ackpend
      ackTaken := hc.ackTaken, receiving := hc.receiving, headerBlock := hc.headerBlock, dataBlocks := hc.dataBlocks
      readBits := hi.readBits, writtenBits := hi.writtenBits, sdaOe := hi.sdaOe }

/-! ### The CEC part in each kind of state -/

section

variable {c : Config} {r : CecRegs} {tx : TxRegs} {now : BitVec 16} {cecP : Bool}

/-- Outside a frame no frame is kept, owned or waiting for an ACK (45 R280). -/
theorem CecOk.flags_off (h : CecOk c r tx now cecP) (hs : ¬r.state.Receiving) :
    r.keep = false ∧ r.own = false ∧ r.ackpend = false := by
  have hk : r.keep = false := Bool.eq_false_iff.2 fun hk =>
    hs ((h.keep.1 hk).elim .inr fun hw => .inl hw.1)
  have ho : r.own = false := Bool.eq_false_iff.2 fun ho => by simpa [hk] using h.own ho
  exact ⟨hk, ho, Bool.eq_false_iff.2 fun ha => by simpa [ho] using (h.ackpend ha).1⟩

theorem cecOk_of_idle (hs : r.state = .idle) (hk : r.keep = false) (ho : r.own = false) (ha : r.ackpend = false) :
    CecOk c r tx now cecP := by
  constructor <;> simp [CecState.Used, CecState.Receiving, CecState.Sending, hs, hk, ho, ha]

theorem cecOk_of_sending (hs : r.state.Sending) (hk : r.keep = false) (ho : r.own = false) (ha : r.ackpend = false)
    (hpos : tx.pending = true ∧ r.blk.toNat < tx.len.toNat ∧ r.bit.toNat ≤ 9)
    (hlast : r.state = .txBit → r.bit = 9#4 → r.blk.toNat + 1 = tx.len.toNat → now.toNat < c.tMid) :
    CecOk c r tx now cecP where
  used := .inr (.inr hs)
  sending _ := hpos
  lastAck := hlast
  keep := by rcases hs with hs | hs <;> simp [hk, hs]
  own := by simp [ho]
  ackpend := by simp [ha]
  ackTaken _ _ _ := ha
  receiving := by rcases hs with hs | hs <;> simp [hs]
  headerBlock := by rcases hs with hs | hs <;> simp [hs]
  dataBlocks := by rcases hs with hs | hs <;> simp [hs]

/-- The header block of a frame. -/
theorem cecOk_of_rxWho (hs : r.state = .rxWho) (hblk : r.blk = 0#5) (hbit : r.bit.toNat ≤ 9)
    (hk : r.keep = true ↔ 8 ≤ r.bit.toNat) (ho : r.own = true → r.keep = true)
    (ha : r.ackpend = true → r.own = true ∧ (r.bit = 8#4 ∨ r.bit = 9#4))
    (ht : r.bit = 9#4 → cecP = false → r.ackpend = false) : CecOk c r tx now cecP where
  used := .inr (.inl (.inl hs))
  sending := by simp [hs]
  lastAck := by simp [hs]
  keep := by simpa [hs] using hk
  own := ho
  ackpend := ha
  ackTaken _ := ht
  receiving _ := hbit
  headerBlock _ := hblk
  dataBlocks := by simp [hs]

/-- A later block of a frame. -/
theorem cecOk_of_rxData (hs : r.state = .rxData) (hbit : r.bit.toNat ≤ 9) (hk : r.keep = true)
    (hblk : 1 ≤ r.blk.toNat ∧ r.blk.toNat ≤ c.bufCap ∧ (8 ≤ r.bit.toNat → r.blk.toNat < c.bufCap))
    (ha : r.ackpend = true → r.own = true ∧ (r.bit = 8#4 ∨ r.bit = 9#4))
    (ht : r.bit = 9#4 → cecP = false → r.ackpend = false) : CecOk c r tx now cecP where
  used := .inr (.inl (.inr hs))
  sending := by simp [hs]
  lastAck := by simp [hs]
  keep := by simp [hs, hk]
  own _ := hk
  ackpend := ha
  ackTaken _ := ht
  receiving _ := hbit
  headerBlock := by simp [hs]
  dataBlocks _ := hblk

end

/-! ### The reset state (70 R330) -/

theorem inv_resetWith {c : Config} (hv : c.Valid) : Inv (State.resetWith c) := by
  obtain ⟨-, -, -, -, -, -, hj, -⟩ := valid_bit_times hv
  have hbuffers : BuffersOk c (State.resetWith c).shared (State.resetWith c).tx :=
    ⟨rfl, rfl, Nat.zero_le _, Nat.zero_le _, fun h => by cases h⟩
  have hwindow : WindowOk c (State.resetWith c).win := ⟨by simp [State.resetWith], Nat.zero_le _, Nat.zero_le _⟩
  have hi2c : I2cOk (State.resetWith c).i2c (State.resetWith c).sync.scl.p := by
    constructor <;> simp [State.resetWith, I2cState.Used, i2cStateCode]
  exact inv_iff.2 ⟨hv, hbuffers, hwindow, hj, hi2c, cecOk_of_idle rfl rfl rfl rfl⟩

theorem valid_testVectors : Config.testVectors.Valid := by decide

/-- Settles O13. In the reset state every register of the parts is 0, idle or empty. -/
theorem resetMeetsInv : Obligations.ResetMeetsInv :=
  ⟨fun _ => inv_resetWith, inv_resetWith valid_testVectors⟩

/-- The invariant is about the registers, not about the environment and the traces. -/
theorem inv_withEnv {s : State} (h : Inv s) (e : Env) : Inv { s with env := e } :=
  inv_iff.2 (inv_iff.1 h :)

/-! ### What one register operation keeps -/

/-- CEC_PRE stays within a jiffy (40 R110). -/
theorem tickTimer_pre_lt {s : State} (hv : s.cfg.Valid) (h : s.timer.pre.toNat < s.cfg.jiffyCycles) :
    (tickTimer s).pre.toNat < s.cfg.jiffyCycles := by
  obtain ⟨-, -, -, -, -, -, hj, hj'⟩ := valid_bit_times hv
  unfold tickTimer jiffyEnds
  split
  next => exact hj
  next hne =>
    rw [beq_iff_eq] at hne
    show (s.timer.pre + 1).toNat < s.cfg.jiffyCycles
    clear hv
    bv_omega

theorem toNat_satInc_le {n : Nat} (v : BitVec n) : (satInc v).toNat ≤ v.toNat + 1 := by
  unfold satInc
  split
  · exact Nat.le_succ _
  · rw [BitVec.toNat_add]
    exact (Nat.mod_le _ _).trans (Nat.add_le_add_left (by simpa using Nat.mod_le _ _) _)

/-- The timer stays below a time that this cycle does not reach (45 R274). -/
theorem tickTimer_t_lt {s : State} {n : Nat} (h : s.timer.t.toNat < n) (hr : reach s n = false) :
    (tickTimer s).t.toNat < n := by
  unfold tickTimer
  split
  next hj =>
    have hne : s.timer.t.toNat + 1 ≠ n := by simpa [reach, hj] using hr
    have := toNat_satInc_le s.timer.t
    show (satInc s.timer.t).toNat < n
    omega
  next => exact h

/-- Without an edge the two stages that the detector compares are equal (45 R270). -/
theorem Sync.s2_eq_p_of_no_edge {x : Sync} (hr : x.rise = false) (hf : x.fall = false) : x.s2 = x.p := by
  simp only [Sync.rise, Sync.fall] at hr hf
  cases hp : x.p <;> cases hs : x.s2 <;> simp_all

theorem Sync.of_rise {x : Sync} (h : x.rise = true) : x.p = false ∧ x.s2 = true := by
  simpa [Sync.rise] using h

end Sys2Proof.Machine
end

section
/-! SUPPORT. The CEC engine keeps the invariant's parts: each of its moves leaves registers that the parts allow (41, 42;
45 R280). -/

namespace Sys2Proof.Machine

/-! ### A received bit -/

/-- A rise in the ACK slot finds the pending ACK taken by the fall before it (41 R151). -/
theorem CecOk.not_ackpend_at_rise {c : Config} {r : CecRegs} {tx : TxRegs} {now : BitVec 16} {x : Sync}
    (h : CecOk c r tx now x.p) (hs : r.state.Receiving) (hr : x.rise = true) (hb : r.bit ≠ 8#4) : r.ackpend = false :=
  Bool.eq_false_iff.2 fun ha => by
    rcases (h.ackpend ha).2 with h8 | h9
    · exact hb h8
    · simpa [ha] using h.ackTaken hs h9 (Sync.of_rise hr).1

/-- The bit after a bit before the EOM bit. -/
theorem bit_add_one {v : BitVec 4} (h : v.toNat < 9) : (v + 1).toNat = v.toNat + 1 := by bv_omega

theorem blk_add_one {v : BitVec 5} (h : v.toNat < 16) : (v + 1).toNat = v.toNat + 1 := by bv_omega

section

variable {c : Config} {r : CecRegs} {tx : TxRegs} {now : BitVec 16} {x : Sync}

/-- Bits 0 to 6 of a block. -/
theorem CecOk.shifted (h : CecOk c r tx now x.p) (hs : r.state.Receiving) (hr : x.rise = true) (hn : r.bit.toNat < 7)
    (v : Byte) (last : Bool) (tx' : TxRegs) (now' : BitVec 16) :
    CecOk c { r with lastbit := last, shift := v, bit := r.bit + 1 } tx' now' true := by
  have hack : r.ackpend = false := h.not_ackpend_at_rise hs hr fun e => by rw [e] at hn; exact absurd hn (by decide)
  have hnext : (r.bit + 1).toNat = r.bit.toNat + 1 := bit_add_one (by omega)
  rcases hs with hs | hs
  · have hkeep : ¬r.keep = true := fun hk => by
      have := h.keep.1 hk
      simp only [hs, reduceCtorEq, false_or, true_and] at this
      omega
    exact cecOk_of_rxWho hs (h.headerBlock hs) (by simp only [hnext]; omega)
      (iff_of_false hkeep (by simp only [hnext]; omega)) h.own (by simp [hack]) (by simp)
  · obtain ⟨h1, hle, -⟩ := h.dataBlocks hs
    exact cecOk_of_rxData hs (by simp only [hnext]; omega) (h.keep.2 (.inl hs))
      ⟨h1, hle, fun h8 => by simp only [hnext] at h8; omega⟩ (by simp [hack]) (by simp)

/-- The EOM bit of a block. -/
theorem CecOk.eomBit (h : CecOk c r tx now x.p) (hs : r.state.Receiving) (hb : r.bit = 8#4) (e last : Bool)
    (tx' : TxRegs) (now' : BitVec 16) : CecOk c { r with lastbit := last, eom := e, bit := 9#4 } tx' now' true := by
  have hack : r.ackpend = true → r.own = true ∧ ((9#4 : BitVec 4) = 8#4 ∨ (9#4 : BitVec 4) = 9#4) :=
    fun ha => ⟨(h.ackpend ha).1, .inr rfl⟩
  have h8 : 8 ≤ r.bit.toNat := by rw [hb]; decide
  rcases hs with hs | hs
  · exact cecOk_of_rxWho hs (h.headerBlock hs) (by simp)
      (iff_of_true (h.keep.2 (.inr ⟨hs, h8⟩)) (by simp)) h.own hack (by simp)
  · obtain ⟨h1, hle, hlt⟩ := h.dataBlocks hs
    exact cecOk_of_rxData hs (by simp) (h.keep.2 (.inl hs)) ⟨h1, hle, fun _ => hlt h8⟩ hack (by simp)

/-- The ACK bit of a block that is not the last: the next block has an index in BUF or the one after it. -/
theorem CecOk.nextBlock (h : CecOk c r tx now x.p) (hcap : c.bufCap = 16) (hs : r.state.Receiving) (hr : x.rise = true)
    (hb : r.bit = 9#4) (last : Bool) (tx' : TxRegs) (now' : BitVec 16) :
    CecOk c { r with lastbit := last, state := .rxData, blk := r.blk + 1, bit := 0#4 } tx' now' true := by
  have hack : r.ackpend = false := h.not_ackpend_at_rise hs hr (by simp [hb])
  have h8 : 8 ≤ r.bit.toNat := by rw [hb]; decide
  have hkeep : r.keep = true := h.keep.2 (hs.symm.imp_right fun hs => ⟨hs, h8⟩)
  have hblk : r.blk.toNat < 16 := by
    rcases hs with hs | hs
    · rw [h.headerBlock hs]; decide
    · obtain ⟨-, -, hlt⟩ := h.dataBlocks hs
      exact hcap ▸ hlt h8
  have hnext := blk_add_one hblk
  exact cecOk_of_rxData rfl (by simp) hkeep ⟨by simp only [hnext]; omega, by simp only [hnext, hcap]; omega, by simp⟩
    (by simp [hack]) (by simp)

end

/-- A received bit keeps the CEC part; the rise that brings it leaves the line high, so no pending ACK is asked about. -/
theorem bitMove_cecOk {b last : Bool} {s a : State} {r : CecRegs} {sh : Shared} (h : BitMove b s a r sh) (hv : s.cfg.Valid)
    (hok : CecOk s.cfg s.cec s.tx s.timer.t s.sync.cec.p) (hs : s.cec.state.Receiving) (hr : s.sync.cec.rise = true)
    (ha : a.cec = { s.cec with lastbit := last }) (tx : TxRegs) (now : BitVec 16) : CecOk s.cfg r tx now true := by
  obtain ⟨-, -, hcap, -⟩ := valid_decided hv
  cases h with
  | shifted hn => rw [ha]; exact hok.shifted hs hr hn _ last tx now
  | headerKept hs' =>
    rw [ha]
    exact cecOk_of_rxWho hs' (hok.headerBlock hs') (by simp) (by simp) (fun _ => rfl) (fun h => ⟨h, .inl rfl⟩) (by simp)
  | headerDropped hs' hb =>
    rw [ha]
    have hk : s.cec.keep = false := Bool.eq_false_iff.2 fun hk => by simpa [hs', hb] using hok.keep.1 hk
    have ho : s.cec.own = false := Bool.eq_false_iff.2 fun ho => by simpa [hk] using hok.own ho
    exact cecOk_of_idle rfl hk ho (hok.not_ackpend_at_rise hs hr (by simp [hb]))
  | stored hs' hb hblk =>
    rw [ha]
    have hdata : s.cec.state = .rxData := hs.resolve_left hs'
    obtain ⟨h1, hle, -⟩ := hok.dataBlocks hdata
    exact cecOk_of_rxData hdata (by simp) (hok.keep.2 (.inl hdata)) ⟨h1, hle, fun _ => hblk⟩
      (fun h => ⟨h, .inl rfl⟩) (by simp)
  | overrun => exact cecOk_of_idle rfl rfl rfl rfl
  | eom hb => rw [ha]; exact hok.eomBit hs hb b last tx now
  | frameEnds hb => rw [ha]; exact cecOk_of_idle rfl rfl rfl (hok.not_ackpend_at_rise hs hr (by simp [hb]))
  | blockEnds hb => rw [ha]; exact hok.nextBlock hcap hs hr hb last tx now
  | beyond hb =>
    have hle := hok.receiving hs
    omega

/-- Within a frame a cycle that moves to no other bit keeps the CEC part, when it keeps or takes the pending ACK. -/
theorem CecOk.hold {c : Config} {r q : CecRegs} {tx : TxRegs} {now : BitVec 16} {cecP : Bool}
    (h : CecOk c r tx now cecP) (hs : r.state.Receiving)
    (hstate : q.state = r.state ∧ q.bit = r.bit ∧ q.blk = r.blk) (hflags : q.keep = r.keep ∧ q.own = r.own)
    (hack : q.ackpend = true → r.ackpend = true) {cecP' : Bool} (ht : q.bit = 9#4 → cecP' = false → q.ackpend = false)
    (tx' : TxRegs) (now' : BitVec 16) : CecOk c q tx' now' cecP' := by
  obtain ⟨hst, hbit, hblk⟩ := hstate
  obtain ⟨hkeep, hown⟩ := hflags
  have hpend : q.ackpend = true → q.own = true ∧ (q.bit = 8#4 ∨ q.bit = 9#4) := by
    rw [hown, hbit]
    exact fun ha => h.ackpend (hack ha)
  rcases hs with hs | hs
  · refine cecOk_of_rxWho (hst.trans hs) (hblk.trans (h.headerBlock hs)) (hbit ▸ h.receiving (.inl hs)) ?_ ?_ hpend ht
    · rw [hkeep, hbit, h.keep]
      simp [hs]
    · rw [hown, hkeep]
      exact h.own
  · refine cecOk_of_rxData (hst.trans hs) (hbit ▸ h.receiving (.inr hs)) (hkeep ▸ h.keep.2 (.inl hs)) ?_ hpend ht
    rw [hblk, hbit]
    exact h.dataBlocks hs

/-! ### A cycle of the CEC engine -/

section

variable {s a t : State}

/-- What a move starts from: the pre-state's CEC part, and a state to write over in which the I2C engine has left the CEC
engine's registers, the ticking timer and a pending transmission alone (45 R277). -/
structure CecReady (s a : State) : Prop where
  valid : s.cfg.Valid
  ok : CecOk s.cfg s.cec s.tx s.timer.t s.sync.cec.p
  buffers : BuffersOk s.cfg s.shared s.tx
  cec : a.cec = s.cec
  timer : a.timer = tickTimer s
  tx : s.tx.pending = true → a.tx = s.tx

/-- A transmission in progress, as the state to write over holds it. -/
theorem CecReady.sending (h : CecReady s a) (hs : s.cec.state.Sending) :
    a.tx = s.tx ∧ s.tx.pending = true ∧ s.cec.blk.toNat < s.tx.len.toNat ∧ s.cec.bit.toNat ≤ 9 ∧
      s.tx.len.toNat ≤ 16 := by
  obtain ⟨hp, hblk, hbit⟩ := h.ok.sending hs
  obtain ⟨-, -, hcap, -⟩ := valid_decided h.valid
  exact ⟨h.tx hp, hp, hblk, hbit, hcap ▸ h.buffers.txLen.1⟩

/-- The flags outside a frame, as the state to write over holds them. -/
theorem CecReady.flags_off (h : CecReady s a) (hs : ¬s.cec.state.Receiving) :
    a.cec.keep = false ∧ a.cec.own = false ∧ a.cec.ackpend = false := by
  rw [h.cec]
  exact h.ok.flags_off hs

/-- A move to IDLE from outside a frame. -/
theorem CecReady.to_idle (h : CecReady s a) (hs : ¬s.cec.state.Receiving) {r : CecRegs} (hidle : r.state = .idle)
    (hflags : r.keep = a.cec.keep ∧ r.own = a.cec.own ∧ r.ackpend = a.cec.ackpend) (tx : TxRegs) (now : BitVec 16)
    (cecP : Bool) : CecOk s.cfg r tx now cecP := by
  obtain ⟨hk, ho, ha⟩ := hflags
  obtain ⟨hk', ho', ha'⟩ := h.flags_off hs
  exact cecOk_of_idle hidle (hk.trans hk') (ho.trans ho') (ha.trans ha')

/-- A transmission goes on at the same bit: the ACK of the last block is still before its sample point, which this cycle
does not reach. -/
theorem CecReady.sending_on (h : CecReady s a) (hs : s.cec.state.Sending) {r : CecRegs} {tx : TxRegs}
    (hstate : r.state = a.cec.state ∧ r.bit = a.cec.bit ∧ r.blk = a.cec.blk)
    (hflags : r.keep = a.cec.keep ∧ r.own = a.cec.own ∧ r.ackpend = a.cec.ackpend) (htx : tx = a.tx)
    (ht : s.cec.state = .txBit → s.cec.bit = 9#4 → s.cec.blk.toNat + 1 = s.tx.len.toNat →
      reach s s.cfg.tSample = false) (cecP : Bool) : CecOk s.cfg r tx a.timer.t cecP := by
  obtain ⟨hst, hbit, hblk⟩ := hstate
  obtain ⟨hk, ho, ha⟩ := hflags
  have hnot : ¬s.cec.state.Receiving := by rcases hs with hs | hs <;> simp [hs, CecState.Receiving]
  obtain ⟨hk', ho', ha'⟩ := h.flags_off hnot
  obtain ⟨htx', hp, hblk', hbit', -⟩ := h.sending hs
  rw [h.cec] at hst hbit hblk
  rw [htx, htx', h.timer]
  refine cecOk_of_sending (hst ▸ hs) (hk.trans hk') (ho.trans ho') (ha.trans ha') ?_ ?_
  · rw [hblk, hbit]
    exact ⟨hp, hblk', hbit'⟩
  · rw [hst, hbit, hblk]
    exact fun h1 h2 h3 => tickTimer_t_lt (h.ok.lastAck h1 h2 h3) (ht h1 h2 h3)

/-- A bit of a block that the transmission has begins. -/
theorem CecReady.bitStarted (h : CecReady s a) (hs : s.cec.state.Sending) {k j : Nat} (hk : k < s.tx.len.toNat)
    (hj : j ≤ 9) (v cecP : Bool) :
    CecOk s.cfg (bitStarted k j v a).cec (bitStarted k j v a).tx (bitStarted k j v a).timer.t cecP := by
  have hnot : ¬s.cec.state.Receiving := by rcases hs with hs | hs <;> simp [hs, CecState.Receiving]
  obtain ⟨hk', ho', ha'⟩ := h.flags_off hnot
  obtain ⟨htx, hp, -, -, hlen⟩ := h.sending hs
  obtain ⟨h0, h1, -⟩ := valid_bit_times h.valid
  refine cecOk_of_sending (.inr rfl) hk' ho' ha' ?_ fun _ _ _ => h0.trans h1
  simp only [Machine.bitStarted, clearTimer_cec, clearTimer_tx, htx, BitVec.toNat_ofNat]
  exact ⟨hp, by omega, by omega⟩

/-- Every move of the CEC engine keeps the CEC part. -/
theorem cecMove_cecOk (h : CecMove s a t) (hr : CecReady s a) :
    CecOk s.cfg t.cec t.tx t.timer.t s.sync.cec.s2 := by
  have hcec := hr.cec
  cases h with
  | quiet hedge ht =>
    rcases hr.ok.used with hs | hs | hs
    · exact hr.to_idle (by simp [hs, CecState.Receiving]) (by rwa [hcec]) ⟨rfl, rfl, rfl⟩ _ _ _
    · obtain ⟨hrise, hfall⟩ := hedge hs
      rw [hcec, Sync.s2_eq_p_of_no_edge hrise hfall]
      exact hr.ok.hold hs ⟨rfl, rfl, rfl⟩ ⟨rfl, rfl⟩ id (hr.ok.ackTaken hs) _ _
    · exact hr.sending_on hs ⟨rfl, rfl, rfl⟩ ⟨rfl, rfl, rfl⟩ rfl (fun h1 h2 _ => ht h1 h2) _
  | idleEdge hs => exact hr.to_idle (by simp [hs, CecState.Receiving]) (by simpa [hcec]) ⟨rfl, rfl, rfl⟩ _ _ _
  | frameStart hs => exact cecOk_of_rxWho rfl rfl (by simp) (by simp) (by simp) (by simp) (by simp)
  | attempt hs hgo =>
    obtain ⟨hk, ho, ha⟩ := hr.flags_off (by simp [hs, CecState.Receiving])
    have hp : s.tx.pending = true := by simp only [txGo, Bool.and_eq_true] at hgo; simp_all
    have htx := hr.tx hp
    refine cecOk_of_sending (.inl rfl) hk ho ha ?_ (fun h => by cases h)
    refine ⟨?_, ?_, by simp [attemptInit]⟩
    · exact (congrArg TxRegs.pending htx).trans hp
    · show 0 < a.tx.len.toNat
      rw [htx]
      exact hr.buffers.txLen.2 hp
  | frameFall hs hf ho =>
    refine hr.ok.hold hs (by simp [hcec]) (by simp [hcec]) (by simp [hcec]) (fun h9 _ => ?_) _ _
    simpa [opensAck, ← hcec, show a.cec.bit = 9#4 from h9] using ho
  | ackOpens hs => exact hr.ok.hold hs (by simp [hcec]) (by simp [hcec]) (by simp) (fun _ _ => rfl) _ _
  | ackEnds hs hrise hfall =>
    rw [Sync.s2_eq_p_of_no_edge hrise hfall]
    refine hr.ok.hold hs (by simp [hcec]) (by simp [hcec]) (by simp [hcec]) ?_ _ _
    simpa [hcec] using hr.ok.ackTaken hs
  | bit hs hrise b =>
    rw [(Sync.of_rise hrise).2]
    exact bitMove_cecOk (receiveBit_move b s _) hr.valid hr.ok hs hrise (last := b) (by rw [← hcec]; rfl) _ _
  | timeout => exact cecOk_of_idle rfl rfl rfl rfl
  | release hs ht => exact hr.sending_on hs (by simp) (by simp) (by simp) (fun h1 _ _ => ht h1) _
  | firstBit hs v =>
    obtain ⟨-, -, hblk, -⟩ := hr.sending (.inl hs)
    exact hr.bitStarted (.inl hs) (by omega) (by omega) v _
  | nextBit hs hb v =>
    obtain ⟨-, -, hblk, -⟩ := hr.sending (.inr hs)
    exact hr.bitStarted (.inr hs) hblk hb v _
  | nextBlock hs hb ht v =>
    obtain ⟨-, -, hblk, hbit, -⟩ := hr.sending (.inr hs)
    refine hr.bitStarted (.inr hs) ?_ (by omega) v _
    by_contra hlast
    have h9 : s.cec.bit = 9#4 := by bv_omega
    have hlt := hr.ok.lastAck hs h9 (by omega)
    obtain ⟨-, -, h0, hbit, -⟩ := valid_bit_times hr.valid
    simp only [reach, Bool.and_eq_true, beq_iff_eq] at ht
    omega
  | arbLost hs | sent hs | notAcked hs =>
    exact hr.to_idle (by simp [hs, CecState.Receiving]) (by rfl) (by exact ⟨rfl, rfl, rfl⟩) _ _ _
  | blockAcked hs hl =>
    obtain ⟨-, -, hblk, -, hlen⟩ := hr.sending (.inr hs)
    refine hr.sending_on (.inr hs) ⟨rfl, rfl, rfl⟩ ⟨rfl, rfl, rfl⟩ rfl (fun _ _ hlast => absurd ?_ hl) _
    bv_omega

/-- A received bit writes BUF and LENGTH within their bounds. -/
theorem bitMove_buffersOk {b : Bool} {s a : State} {r : CecRegs} {sh : Shared} {tx : TxRegs} (h : BitMove b s a r sh)
    (hcap : s.cfg.bufCap = 16) (hs : Memory.wf s.shared.buf = true) (ha : BuffersOk s.cfg a.shared tx) :
    BuffersOk s.cfg sh tx := by
  obtain ⟨hwf, htxWf, hlen, htxLen⟩ := ha
  cases h with
  | headerKept => exact ⟨wf_writeMem hs (by decide) _, htxWf, by simp [hcap], htxLen⟩
  | stored hs' hb hblk =>
    refine ⟨wf_writeMem hs (BitVec.isLt _) _, htxWf, ?_, htxLen⟩
    have hnext := blk_add_one (hcap ▸ hblk)
    simp only [hnext]
    omega
  | eom hb hsh => rcases hsh with rfl | rfl <;> exact ⟨hwf, htxWf, hlen, htxLen⟩
  | _ => exact ⟨hwf, htxWf, hlen, htxLen⟩

/-- What is left to send after a block that the transmission has (42 R178). -/
theorem CecReady.rest_le (h : CecReady s a) (hs : s.cec.state = .txBit) :
    (s.tx.len - (s.cec.blk + 1)).toNat ≤ s.cfg.bufCap := by
  obtain ⟨-, -, hblk, -, hlen⟩ := h.sending (.inr hs)
  have hle := h.buffers.txLen.1
  bv_omega

/-- Every move of the CEC engine keeps the buffers' part. -/
theorem cecMove_buffersOk (h : CecMove s a t) (hr : CecReady s a) (hb : BuffersOk s.cfg a.shared a.tx) :
    BuffersOk s.cfg t.shared t.tx := by
  obtain ⟨hwf, htxWf, hlen, htxLen⟩ := hb
  obtain ⟨-, -, hcap, -⟩ := valid_decided hr.valid
  cases h with
  | bit hs hrise b =>
    rw [(receiveBit_tx_timer b s _).1]
    exact bitMove_buffersOk (receiveBit_move b s _) hcap hr.buffers.bufWf ⟨hwf, htxWf, hlen, htxLen⟩
  | attempt | arbLost => exact ⟨hwf, htxWf, hr.buffers.txLen.1, htxLen⟩
  | blockAcked hs => exact ⟨hwf, htxWf, hr.rest_le hs, htxLen⟩
  | sent hs => exact ⟨hwf, htxWf, hr.rest_le hs, htxLen.1, by simp [txDone]⟩
  | notAcked => exact ⟨hwf, htxWf, hlen, htxLen.1, by simp [ackFail]⟩
  | _ => exact ⟨hwf, htxWf, hlen, htxLen⟩

end

/-- A move leaves the timer as it ticked or clears it (45 R275). -/
theorem cecMove_timer {s a t : State} (h : CecMove s a t) :
    t.timer = a.timer ∨ t.timer = { t := 0#16, pre := 0#16 } := by
  cases h with
  | bit hs hr b => exact .inr (receiveBit_tx_timer b s _).2
  | quiet | ackEnds | timeout | release | blockAcked => exact .inl rfl
  | _ => exact .inr rfl

end Sys2Proof.Machine
end

section
/-! SUPPORT. What the I2C engine and the dispatcher can do in a cycle, said once (43 R200, 44 R242, R243), and that it keeps
the invariant's parts. -/

namespace Sys2Proof.Machine

/-! ### The moves of the dispatcher -/

/-- Everything the eighth bit of a data byte can do: `s` is the pre-state, `a` the state it writes over. -/
inductive DataByteMove (s a : State) : State → Prop where
  /-- A load command with a window as long as its source at most (44 R245 to R248). -/
  | load (c : Byte) {sel : ReadSel} {len : BitVec 5} (hsel : sel ≠ .unused6 ∧ sel ≠ .unused7)
      (hlen : len.toNat ≤ sel.capacity) : DataByteMove s a (loadCommand c sel len s a)
  /-- LOAD_BUFFER (44 R249). -/
  | loadBuffer : DataByteMove s a (loadCommand codeLoadBuffer .buffer s.shared.length s a)
  /-- The command byte of an action (44 R244). -/
  | command (c : Byte) : DataByteMove s a (actionCommandByte c s a)
  /-- A reserved command byte (44 R250). -/
  | badCommand (c : Byte) :
      DataByteMove s a (emit (.badCmd c) (setAccept false (setCommand c (dataByteArrives c s a))))
  /-- A payload byte that no action takes (44 R243). -/
  | refused (b : Byte) : DataByteMove s a (refusePayload b s a)
  /-- A payload byte that an action refuses (44 R252, R253). -/
  | busy (b c : Byte) : DataByteMove s a (emit (.busy c) (setAccept false (dataByteArrives b s a)))
  /-- SET_ADDR (44 R251). -/
  | address (b : Byte) :
      DataByteMove s a { setAccept true (dataByteArrives b s a) with
        shared := { a.shared with cecAddr := lowNibble b } }
  /-- STAGE (44 R252). -/
  | staged (b : Byte) (hfits : stageFits s.cfg s.i2c.byteno = true) :
      DataByteMove s a { setAccept true (bufWrite ((s.i2c.byteno - 1).setWidth 4) b s (dataByteArrives b s a)) with
        shared := { a.shared with
          buf := writeMem s.shared.buf ((s.i2c.byteno - 1).setWidth 4).toNat b, length := s.i2c.byteno }
        win := { a.win with wrIdx := s.i2c.byteno } }
  /-- CEC_SEND (44 R253). -/
  | snapshot (b : Byte) (hok : sendRefused s = false) :
      DataByteMove s a { setAccept true (dataByteArrives b s a) with
        tx := { a.tx with buf := s.shared.buf, len := s.shared.length, pending := true, retry := 0#8 } }
  /-- MONITOR_TOGGLE (44 R254). -/
  | monitor (b : Byte) :
      DataByteMove s a { setAccept true (dataByteArrives b s a) with
        shared := { a.shared with monitor := !s.shared.monitor } }
  /-- SOFT_RESET (44 R255). -/
  | softReset (b : Byte) (hs : softResetNow s = true) :
      DataByteMove s a (setAccept true (dataByteArrives b s (softResetRegisters a)))

/-- A command byte is one of eleven rows (30 R85, R93). -/
theorem decodeCommand_rows {P : Instr → Prop} (b : Byte)
    (hload : P .loadId ∧ P .loadAddr ∧ P .loadTaken ∧ P .loadLength ∧ P .loadBuffer)
    (haction : P (.setAddr none) ∧ P (.stage none) ∧ P (.cecSend none) ∧ P (.monitorToggle none) ∧ P (.softReset none))
    (hreserved : P (.reservedCommand b)) : P (decodeCommand b) := by
  obtain ⟨hid, haddr, htaken, hlength, hbuffer⟩ := hload
  obtain ⟨hset, hstage, hsend, hmonitor, hreset⟩ := haction
  exact iteInduction (fun _ => hid) fun _ => iteInduction (fun _ => haddr) fun _ =>
    iteInduction (fun _ => htaken) fun _ => iteInduction (fun _ => hlength) fun _ =>
    iteInduction (fun _ => hbuffer) fun _ => iteInduction (fun _ => hset) fun _ =>
    iteInduction (fun _ => hstage) fun _ => iteInduction (fun _ => hsend) fun _ =>
    iteInduction (fun _ => hmonitor) fun _ => iteInduction (fun _ => hreset) fun _ => hreserved

theorem decodeCommand_move {s a : State} (b : Byte) :
    ∃ t, applyI2c (decodeCommand b) s a = .next t ∧ DataByteMove s a t := by
  refine decodeCommand_rows (P := fun i => ∃ t, applyI2c i s a = .next t ∧ DataByteMove s a t) b
    ⟨?_, ?_, ?_, ?_, ⟨_, rfl, .loadBuffer⟩⟩ ⟨?_, ?_, ?_, ?_, ?_⟩ ⟨_, rfl, .badCommand b⟩
  case refine_1 | refine_2 | refine_3 | refine_4 => exact ⟨_, rfl, .load _ (by simp) (by decide)⟩
  all_goals exact ⟨_, rfl, .command _⟩

/-- A payload byte as the bus presents it does what PAYLOAD_BYTE's whole dispatch says (44 R243; log 21). -/
theorem applyI2c_decodePayload (b : Byte) (s a : State) :
    applyI2c (decodePayload s.i2c.cmd s.i2c.byteno b) s a = applyPayloadByte b s a := by
  unfold decodePayload
  split_ifs with hstage hfirst haddr hsend hmonitor hreset
  case neg | neg => rfl
  all_goals
    simp only [applyPayloadByte, if_true, *]
    rfl

theorem stagePayload_move {s a t : State} {b : Byte} (h : stagePayload b s a = .next t) : DataByteMove s a t := by
  simp only [stagePayload] at h
  split at h
  next hok =>
    cases h
    exact .staged b (Bool.and_eq_true_iff.1 hok).2
  next => cases h; exact .busy b _

theorem cecSendPayload_move {s a t : State} {b : Byte} (h : cecSendPayload b s a = .next t) : DataByteMove s a t := by
  simp only [cecSendPayload] at h
  split at h
  next => cases h; exact .busy b _
  next hok => cases h; exact .snapshot b (Bool.eq_false_iff.2 hok)

theorem applyPayloadByte_move {s a t : State} {b : Byte}
    (hsoft : s.i2c.cmd = codeSoftReset → s.i2c.byteno = 1#5 → softResetNow s = true)
    (h : applyPayloadByte b s a = .next t) : DataByteMove s a t := by
  unfold applyPayloadByte at h
  split at h
  · exact stagePayload_move h
  split at h
  next hfirst =>
    split at h
    · cases h; exact .address b
    split at h
    · exact cecSendPayload_move h
    split at h
    · cases h; exact .monitor b
    split at h
    next hcmd => cases h; exact .softReset b (hsoft hcmd hfirst)
    next => cases h; exact .refused b
  · cases h; exact .refused b

/-- A data byte shifts into the engine and stays in WR_DATA until the fall after it (43 R203, R208). -/
theorem dataByteMove_i2c {s a t : State} (h : DataByteMove s a t) :
    t.i2c.state = a.i2c.state ∧ t.i2c.bitcnt = s.i2c.bitcnt + 1 ∧ t.i2c.sdaOe = a.i2c.sdaOe := by
  cases h <;> exact ⟨rfl, rfl, rfl⟩

/-! ### The moves of the I2C engine -/

/-- Everything the I2C engine can do in a cycle: `s` is the pre-state, `a` the state it writes over. -/
inductive I2cMove (s a : State) : State → Prop where
  /-- Nothing; a whole byte is in, and SCL does not fall. -/
  | quiet (hf : s.i2c.state = .addr ∨ s.i2c.state = .wrData → s.i2c.bitcnt = 8#4 → s.sync.scl.fall = false) :
      I2cMove s a a
  /-- START (43 R201). -/
  | start : I2cMove s a (i2cStartCondition a)
  /-- STOP (43 R202). -/
  | stop : I2cMove s a (i2cStopCondition a)
  /-- A bit of a byte, not the eighth (43 R203). -/
  | sampled (hs : s.i2c.state = .addr ∨ s.i2c.state = .wrData) (hr : s.sync.scl.rise = true) (hn : s.i2c.bitcnt ≠ 7#4)
      (b : Bool) : I2cMove s a (sampleBit b s a)
  /-- The eighth bit of an address byte (43 R204). -/
  | address (hs : s.i2c.state = .addr) (hn : s.i2c.bitcnt = 7#4) (hr : s.sync.scl.rise = true) (x : BitVec 7) (r : Bool) :
      I2cMove s a (addressDecide x r s a)
  /-- The eighth bit of a data byte (43 R208). -/
  | data (hs : s.i2c.state = .wrData) (hn : s.i2c.bitcnt = 7#4) (hr : s.sync.scl.rise = true) {t : State}
      (h : DataByteMove s a t) : I2cMove s a t
  /-- The fall after an address byte (43 R205). -/
  | addressAck (hs : s.i2c.state = .addr) : I2cMove s a (addressAck s a)
  /-- The fall after a data byte (43 R209). -/
  | dataAck (hs : s.i2c.state = .wrData) : I2cMove s a (dataAck s a)
  /-- The end of a data byte's ACK (43 R210). -/
  | ackEnds : I2cMove s a (ackEnd a)
  /-- The end of an address byte's ACK in a write (43 R206). -/
  | toWrite : I2cMove s a (toWrite a)
  /-- The end of an address byte's ACK in a read (43 R207). -/
  | firstByte (x : Byte) : I2cMove s a { startReadByte x a with i2c := { (startReadByte x a).i2c with rdptr := 0#5 } }
  /-- The load of another byte (43 R213). -/
  | nextByte (x : Byte) : I2cMove s a (startReadByte x a)
  /-- A bit clock of a read byte (43 R211). -/
  | nextReadBit (hs : s.i2c.state = .rdData) (hn : s.i2c.bitcnt.toNat < 7) (oe : Bool) :
      I2cMove s a { a with i2c := { a.i2c with bitcnt := s.i2c.bitcnt + 1, sdaOe := oe } }
  /-- The last bit clock of a read byte (43 R211). -/
  | readByteEnds (ptr : BitVec 5) :
      I2cMove s a { a with i2c := { a.i2c with sdaOe := false, state := .rdAck, bitcnt := 0#4, rdptr := ptr } }
  /-- The master's answer (43 R212). -/
  | answer (hs : s.i2c.state = .rdAck) (m : Bool) : I2cMove s a (masterAck m a)

/-- In ADDR an address byte presented by the bus is in one of its two cycles there (43 R204, R205). -/
theorem applyI2c_decodeAddress {s : State} (hs : s.i2c.state = .addr) (b : Byte) (a : State) :
    applyI2c (decodeAddress b) s a = .next (addressCycle (addressOf b) (readBitOf b) s a) := by
  unfold decodeAddress
  split
  next hr => simp only [applyI2c, applyAddrRead, hs, hr]
  next hr => simp only [applyI2c, applyAddrWrite, hs, Bool.eq_false_iff.2 hr]

theorem i2cStrobe_rise {s : State} {b : Bool} (h : i2cStrobe s = some (.rise b)) : s.sync.scl.rise = true := by
  unfold i2cStrobe at h
  split at h
  next => cases h
  split at h
  next => cases h
  split at h
  next hr => exact hr
  next => split at h <;> cases h

/-- Without a strobe SCL does not fall (43 R200). -/
theorem scl_fall_of_no_strobe {s : State} (h : i2cStrobe s = none) : s.sync.scl.fall = false := by
  unfold i2cStrobe at h
  split_ifs at h with _ _ _ hf
  exact Bool.eq_false_iff.2 hf

/-- A move in a state that receives no byte may leave everything alone. -/
theorem I2cMove.quiet_of {s : State} (a : State) (h1 : s.i2c.state ≠ .addr) (h2 : s.i2c.state ≠ .wrData) :
    I2cMove s a a := .quiet fun hs => absurd hs (by simp [h1, h2])

/-- What a rise of SCL does (43 R203, R204, R208, R212). -/
theorem i2cOn_rise_move {s a t : State} {b : Bool} (hst : i2cStrobe s = some (.rise b))
    (h : i2cOn (.rise b) s a = .next t) : I2cMove s a t := by
  have hr := i2cStrobe_rise hst
  cases hs : s.i2c.state with
  | addr =>
    by_cases hn : s.i2c.bitcnt = 7#4
    · simp only [i2cOn, fetchI2cOn, hs, hn, if_true, applyI2c_decodeAddress hs, addressCycle] at h
      cases h
      exact .address hs hn hr _ _
    · simp only [i2cOn, fetchI2cOn, hs, hn, if_false, betweenI2c] at h
      cases h
      exact .sampled (.inl hs) hr hn b
  | wrData =>
    by_cases hn : s.i2c.bitcnt = 7#4
    · refine .data hs hn hr ?_
      by_cases hb : s.i2c.byteno = 0#5
      · simp only [i2cOn, fetchI2cOn, hs, hn, hb, if_true] at h
        obtain ⟨u, hu, hmove⟩ := decodeCommand_move (s := s) (a := a) (shiftIn s.i2c.shift b)
        exact Host.Outcome.next.inj (hu.symm.trans h) ▸ hmove
      · have hfetch : fetchI2cOn (.rise b) s =
            some (decodePayload s.i2c.cmd s.i2c.byteno (shiftIn s.i2c.shift b)) := by
          simp only [fetchI2cOn, hs, hn, hb, if_true, if_false]
        simp only [i2cOn, hfetch, applyI2c_decodePayload] at h
        refine applyPayloadByte_move (fun hcmd hfirst => softResetNow_eq_true.2 ⟨shiftIn s.i2c.shift b, ?_⟩) h
        rw [fetchI2c_eq_some]
        exact ⟨_, hst, by rw [hfetch, hcmd, hfirst]; rfl⟩
    · simp only [i2cOn, fetchI2cOn, hs, hn, if_false, betweenI2c] at h
      cases h
      exact .sampled (.inr hs) hr hn b
  | rdAck =>
    simp only [i2cOn, fetchI2cOn, hs, applyI2c, applyReadByte] at h
    cases h
    exact .answer hs b
  | _ =>
    simp only [i2cOn, fetchI2cOn, hs, betweenI2c] at h
    cases h
    exact .quiet_of a (by simp [hs]) (by simp [hs])

/-- A bit clock of a read byte (43 R211). -/
theorem readClock_move {s a t : State} (hs : s.i2c.state = .rdData) (h : readClock s a = .next t) : I2cMove s a t := by
  unfold readClock at h
  split at h
  next => cases h; exact .readByteEnds _
  next =>
    split at h
    next hn => cases h; exact .nextReadBit hs hn _
    next => cases h

/-- What a fall of SCL does (43 R205 to R213). -/
theorem i2cOn_fall_move {s a t : State} (h : i2cOn .fall s a = .next t) : I2cMove s a t := by
  cases hs : s.i2c.state with
  | addr =>
    by_cases hn : s.i2c.bitcnt = 8#4
    · simp only [i2cOn, fetchI2cOn, hs, hn, if_true, applyI2c_decodeAddress hs, addressCycle] at h
      cases h
      exact .addressAck hs
    · simp only [i2cOn, fetchI2cOn, hs, hn, if_false, betweenI2c] at h
      cases h
      exact .quiet fun _ e => absurd e hn
  | addrAck =>
    simp only [i2cOn, fetchI2cOn, hs] at h
    split at h
    · simp only [applyI2c, applyAddrRead, hs, toRead] at h
      split at h
      · cases h; exact .firstByte _
      · cases h
    · simp only [applyI2c, applyAddrWrite, hs] at h
      cases h
      exact .toWrite
  | wrData =>
    simp only [i2cOn, fetchI2cOn, hs, betweenI2c] at h
    cases h
    split
    · exact .dataAck hs
    next hn => exact .quiet fun _ e => absurd e hn
  | wrAck =>
    simp only [i2cOn, fetchI2cOn, hs, betweenI2c] at h
    cases h
    exact .ackEnds
  | rdData =>
    simp only [i2cOn, fetchI2cOn, hs, applyI2c, applyReadByte] at h
    exact readClock_move hs h
  | rdAcked =>
    simp only [i2cOn, fetchI2cOn, hs, applyI2c, applyReadByte, nextRead] at h
    split at h
    · cases h; exact .nextByte _
    · cases h
  | _ =>
    simp only [i2cOn, fetchI2cOn, hs, betweenI2c] at h
    cases h
    exact .quiet_of a (by simp [hs]) (by simp [hs])

/-- What the I2C engine does in a cycle is one of its moves. -/
theorem i2cEngine_move {s a t : State} (h : i2cEngine s a = .next t) : I2cMove s a t := by
  unfold i2cEngine at h
  split at h
  next st hst =>
    cases st with
    | start => cases h; exact .start
    | stop => cases h; exact .stop
    | rise b => exact i2cOn_rise_move hst h
    | fall => exact i2cOn_fall_move h
  next hst => cases h; exact .quiet fun _ _ => scl_fall_of_no_strobe hst

/-! ### The I2C part -/

/-- Outside a byte nothing is counted; SDA is driven in an ACK alone. -/
theorem i2cOk_of_not_in_byte {r : I2cRegs} {sclP : Bool}
    (hs : r.state ∈ [I2cState.idle, .addrAck, .wrAck, .rdAck, .ignore, .rdAcked])
    (hoe : r.sdaOe = true → r.state = .addrAck ∨ r.state = .wrAck) : I2cOk r sclP := by
  have h : ∀ c ∈ [I2cState.idle, .addrAck, .wrAck, .rdAck, .ignore, .rdAcked],
      c.Used ∧ c ≠ .rdData ∧ c ≠ .addr ∧ c ≠ .wrData := by decide
  obtain ⟨hu, hrd, haddr, hwr⟩ := h _ hs
  exact ⟨hu, fun e => absurd e hrd, fun e => absurd e (by simp [haddr, hwr]), fun e => (hoe e).imp_right .inl⟩

/-- A byte that the master writes leaves SDA to it. -/
theorem i2cOk_of_writing {r : I2cRegs} {sclP : Bool} (hs : r.state = .addr ∨ r.state = .wrData)
    (hn : r.bitcnt.toNat ≤ 8) (h8 : r.bitcnt = 8#4 → sclP = true) (hoe : r.sdaOe = false) : I2cOk r sclP where
  used := by rcases hs with hs | hs <;> rw [hs] <;> decide
  readBits h := by rcases hs with hs | hs <;> simp [hs] at h
  writtenBits _ := ⟨hn, h8⟩
  sdaOe h := by simp [hoe] at h

theorem i2cOk_of_reading {r : I2cRegs} {sclP : Bool} (hs : r.state = .rdData) (hn : r.bitcnt.toNat ≤ 7) :
    I2cOk r sclP where
  used := by rw [hs]; decide
  readBits _ := hn
  writtenBits h := by simp [hs] at h
  sdaOe _ := .inr (.inr hs)

/-- While the master writes a byte the block leaves SDA alone (43 R214). -/
theorem I2cOk.released {r : I2cRegs} {sclP : Bool} (h : I2cOk r sclP)
    (hs : r.state = .addr ∨ r.state = .wrData ∨ r.state = .rdAck) : r.sdaOe = false :=
  Bool.eq_false_iff.2 fun hoe => by rcases hs with hs | hs | hs <;> simpa [hs] using h.sdaOe hoe

/-- Every move of the I2C engine keeps its part. -/
theorem i2cMove_i2cOk {s a t : State} (h : I2cMove s a t) (hok : I2cOk s.i2c s.sync.scl.p) (ha : a.i2c = s.i2c) :
    I2cOk t.i2c s.sync.scl.s2 := by
  cases h with
  | quiet hf =>
    rw [ha]
    refine ⟨hok.used, hok.readBits, fun hs => ?_, hok.sdaOe⟩
    obtain ⟨hn, h8⟩ := hok.writtenBits hs
    exact ⟨hn, fun e => by simpa [Sync.fall, h8 e] using hf hs e⟩
  | start => exact i2cOk_of_writing (.inl rfl) (by simp) (by simp) rfl
  | stop => exact i2cOk_of_not_in_byte (by simp) (by simp)
  | sampled hs hr hn b =>
    obtain ⟨hp, hs2⟩ := Sync.of_rise hr
    obtain ⟨hle, h8⟩ := hok.writtenBits hs
    have hne : s.i2c.bitcnt ≠ 8#4 := fun e => by simpa [hp] using h8 e
    refine i2cOk_of_writing (by simpa [ha] using hs) ?_ (fun _ => hs2) ?_
    · simp only [sampleBit_i2c]
      bv_omega
    · simpa [ha] using hok.released (hs.imp_right .inl)
  | address hs hn hr =>
    exact i2cOk_of_writing (.inl (by simpa [addressDecide, ha] using hs)) (by simp [addressDecide, hn])
      (fun _ => (Sync.of_rise hr).2) (by simpa [addressDecide, ha] using hok.released (.inl hs))
  | data hs hn hr hd =>
    obtain ⟨hstate, hcnt, hoe⟩ := dataByteMove_i2c hd
    rw [ha] at hstate hoe
    exact i2cOk_of_writing (.inr (hstate.trans hs)) (by simp [hcnt, hn]) (fun _ => (Sync.of_rise hr).2)
      (hoe.trans (hok.released (.inr (.inl hs))))
  | addressAck hs =>
    have hoe : a.i2c.sdaOe = false := ha ▸ hok.released (.inl hs)
    unfold addressAck
    split <;> exact i2cOk_of_not_in_byte (by simp) (by simp [hoe])
  | dataAck hs =>
    have hoe : a.i2c.sdaOe = false := ha ▸ hok.released (.inr (.inl hs))
    unfold dataAck
    split <;> exact i2cOk_of_not_in_byte (by simp) (by simp [hoe])
  | ackEnds | toWrite => exact i2cOk_of_writing (.inr rfl) (by simp) (by simp) rfl
  | firstByte | nextByte => exact i2cOk_of_reading rfl (by simp)
  | nextReadBit hs hn => exact i2cOk_of_reading (ha ▸ hs) (by simp only; bv_omega)
  | readByteEnds => exact i2cOk_of_not_in_byte (by simp) (by simp)
  | answer hs m =>
    have hoe : a.i2c.sdaOe = false := ha ▸ hok.released (.inr (.inr hs))
    cases m <;> exact i2cOk_of_not_in_byte (by simp [masterAck]) (by simp [masterAck, hoe])

/-! ### The windows, the buffers and a pending transmission -/

/-- Only a data byte writes the window, the shared state and the transmit registers (43 R215, 44). -/
theorem i2cMove_data_or_frame {s a t : State} (h : I2cMove s a t) :
    DataByteMove s a t ∨ (t.win = a.win ∧ t.shared = a.shared ∧ t.tx = a.tx) := by
  cases h with
  | data _ _ _ hd => exact .inl hd
  | addressAck => unfold addressAck; split <;> exact .inr ⟨rfl, rfl, rfl⟩
  | dataAck => unfold dataAck; split <;> exact .inr ⟨rfl, rfl, rfl⟩
  | _ => exact .inr ⟨rfl, rfl, rfl⟩

theorem dataByteMove_windowOk {s a t : State} (h : DataByteMove s a t) (hcap : s.cfg.bufCap = 16)
    (hb : BuffersOk s.cfg s.shared s.tx) (hw : WindowOk s.cfg a.win) : WindowOk s.cfg t.win := by
  obtain ⟨hsel, hidx, hlen⟩ := hw
  cases h with
  | load c hsel' hlen' => exact ⟨hsel', hidx, hlen'⟩
  | loadBuffer =>
    refine ⟨by simp [loadCommand], hidx, ?_⟩
    show s.shared.length.toNat ≤ 16
    exact hcap ▸ hb.length
  | staged b hfits =>
    simp only [stageFits, Bool.and_eq_true, Nat.ble_eq] at hfits
    exact ⟨hsel, hfits.2, hlen⟩
  | softReset => exact ⟨by simp [State.resetWith], Nat.zero_le _, Nat.zero_le _⟩
  | _ => exact ⟨hsel, hidx, hlen⟩

theorem dataByteMove_buffersOk {s a t : State} (h : DataByteMove s a t) (hs : BuffersOk s.cfg s.shared s.tx)
    (ha : BuffersOk s.cfg a.shared a.tx) : BuffersOk s.cfg t.shared t.tx := by
  obtain ⟨hwf, htxWf, hlen, htxLen⟩ := ha
  cases h with
  | staged b hfits =>
    simp only [stageFits, Bool.and_eq_true, Nat.ble_eq] at hfits
    exact ⟨wf_writeMem hs.bufWf (BitVec.isLt _) b, htxWf, hfits.2, htxLen⟩
  | snapshot b hok =>
    refine ⟨hwf, hs.bufWf, hlen, hs.length, fun _ => ?_⟩
    simp only [sendRefused, Bool.or_eq_false_iff, beq_eq_false_iff_ne] at hok
    obtain ⟨-, hne⟩ := hok
    show 1 ≤ s.shared.length.toNat
    bv_omega
  | softReset => exact ⟨rfl, rfl, Nat.zero_le _, Nat.zero_le _, fun h => by cases h⟩
  | _ => exact ⟨hwf, htxWf, hlen, htxLen⟩

/-- A pending transmission's snapshot stands until it ends (44 R253). -/
theorem dataByteMove_tx {s a t : State} (h : DataByteMove s a t) (hs : softResetNow s = false)
    (hp : s.tx.pending = true) : t.tx = a.tx := by
  cases h with
  | snapshot b hok => simp [sendRefused, hp] at hok
  | softReset b hnow => simp [hs] at hnow
  | _ => simp [loadCommand, actionCommandByte, refusePayload]

end Sys2Proof.Machine
end

section
/-! SUPPORT. Every step keeps the invariant: each engine keeps its own part over what the other has written, in the order of
45 R279. -/

namespace Sys2Proof.Machine

/-- The I2C engine keeps the window and the buffers, whatever it writes over. -/
theorem i2cMove_window_buffers {s a t : State} (h : I2cMove s a t) (hi : Inv s) (hw : WindowOk s.cfg a.win)
    (hb : BuffersOk s.cfg a.shared a.tx) : WindowOk s.cfg t.win ∧ BuffersOk s.cfg t.shared t.tx := by
  obtain ⟨hv, hbuffers, -⟩ := inv_iff.1 hi
  obtain ⟨-, -, hcap, -⟩ := valid_decided hv
  rcases i2cMove_data_or_frame h with hd | ⟨hwin, hshared, htx⟩
  · exact ⟨dataByteMove_windowOk hd hcap hbuffers hw, dataByteMove_buffersOk hd hbuffers hb⟩
  · rw [hwin, hshared, htx]
    exact ⟨hw, hb⟩

/-- In a cycle without SOFT_RESET the I2C engine leaves a pending transmission alone (44 R253). -/
theorem i2cMove_tx {s a t : State} (h : I2cMove s a t) (hs : softResetNow s = false) (hp : s.tx.pending = true) :
    t.tx = a.tx := by
  rcases i2cMove_data_or_frame h with hd | ⟨-, -, htx⟩
  · exact dataByteMove_tx hd hs hp
  · exact htx

/-- A cycle without SOFT_RESET: the I2C engine writes over the background, and the CEC engine over both. -/
theorem inv_of_no_softReset {s a t : State} (hi : Inv s) (hs : softResetNow s = false)
    (hi2c : i2cEngine s (background s) = .next a) (hcec : cecEngine s a = .next t) : Inv t := by
  obtain ⟨hv, hbuffers, hwindow, hpre, hi2cOk, hcecOk⟩ := inv_iff.1 hi
  have hfi := i2cEngine_frame hs hi2c
  have hfc := cecEngine_frame hcec
  have hmi := i2cEngine_move hi2c
  have hmc := cecEngine_move hv hcec
  obtain ⟨hwindow', hbuffers'⟩ := i2cMove_window_buffers hmi hi hwindow hbuffers
  have hready : CecReady s a := ⟨hv, hcecOk, hbuffers, hfi.cec, hfi.timer, fun hp => (i2cMove_tx hmi hs hp).trans (background_tx s)⟩
  have hcfg : t.cfg = s.cfg := hfc.cfg.trans hfi.cfg
  have hsync : t.sync = shiftSyncs s := hfc.sync.trans hfi.sync
  have htimer : t.timer.pre.toNat < s.cfg.jiffyCycles := by
    rcases cecMove_timer hmc with htick | hclear
    · rw [htick, hfi.timer]
      exact tickTimer_pre_lt hv hpre
    · rw [hclear]
      exact Nat.lt_of_le_of_lt (Nat.zero_le _) hpre
  rw [inv_iff, hcfg, hsync, hfc.win, hfc.i2c]
  exact ⟨hv, cecMove_buffersOk hmc hready hbuffers', hwindow', htimer, i2cMove_i2cOk hmi hi2cOk rfl,
    cecMove_cecOk hmc hready⟩

/-- A cycle with SOFT_RESET: all but the I2C engine and the synchronisers is at its reset value (44 R255). -/
theorem inv_of_softReset {s a t : State} (hi : Inv s) (hs : softResetNow s = true)
    (hcec : cecEngine s (background s) = .next a) (hi2c : i2cEngine s a = .next t) : Inv t := by
  obtain ⟨hv, -, -, -, hi2cOk, -⟩ := inv_iff.1 hi
  have hfc := cecEngine_frame hcec
  have hok := i2cMove_i2cOk (i2cEngine_move hi2c) hi2cOk hfc.i2c
  obtain ⟨-, hbuffers, hwindow, hpre, -, -⟩ := inv_iff.1 (inv_resetWith hv)
  obtain ⟨b, rfl⟩ := i2cEngine_of_softReset hs hi2c
  have hcfg : a.cfg = s.cfg := hfc.cfg
  rw [inv_iff]
  simp only [setAccept_cfg, setAccept_shared, setAccept_win, setAccept_timer, setAccept_cec, setAccept_tx, setAccept_sync,
    dataByteArrives_cfg, dataByteArrives_shared, dataByteArrives_win, dataByteArrives_timer, dataByteArrives_cec,
    dataByteArrives_tx, dataByteArrives_sync, softResetRegisters_cfg, softResetRegisters_shared, softResetRegisters_win,
    softResetRegisters_timer, softResetRegisters_cec, softResetRegisters_tx, softResetRegisters_sync, hcfg, hfc.sync]
  exact ⟨hv, hbuffers, hwindow, hpre, hok, cecOk_of_idle rfl rfl rfl rfl⟩

/-- Settles O14. A reset edge reaches the reset state, and in a cycle each engine keeps its part. -/
theorem stepKeepsInv : Obligations.StepKeepsInv := by
  intro s t hi h
  obtain ⟨hv, ⟨-, rfl⟩ | ⟨-, -, hcycle⟩⟩ := step_eq_next.1 h
  · exact inv_withEnv (inv_resetWith hv) (nextEnv s)
  rcases cycle_eq_next hcycle with ⟨hs, a, hi2c, hcec⟩ | ⟨hs, a, hcec, hi2c⟩
  · exact inv_of_no_softReset hi hs hi2c hcec
  · exact inv_of_softReset hi hs hcec hi2c

end Sys2Proof.Machine
end

section
/-! SUPPORT. From a state that meets the invariant every step goes on: the places where a rule could stop are the read
window, the bit index of a read byte and the block index of a sent bit, and each stays within its array (20 R60, R61; 43 R211;
42 R175). Each engine goes on whatever the state is that it writes over. -/

namespace Sys2Proof.Machine

variable {s : State}

/-! ### The I2C engine (43 R200) -/

/-- The read window answers a byte at every index (44 R241). -/
theorem Inv.readOut_ok (hi : Inv s) (p : BitVec 5) : ∃ b, readOut s p = .ok b := by
  have hcapacity {sel : ReadSel} (hsel : s.win.readSel = sel) : s.win.readLen.toNat ≤ sel.capacity := hsel ▸ hi.readLen
  exact Machine.readOut_ok hi.valid hi.readSel hcapacity hcapacity p

theorem stagePayload_goes_on (b : Byte) (s a : State) : ∃ t, stagePayload b s a = .next t := by
  simp only [stagePayload]
  split <;> exact ⟨_, rfl⟩

theorem cecSendPayload_goes_on (b : Byte) (s a : State) : ∃ t, cecSendPayload b s a = .next t := by
  simp only [cecSendPayload]
  split <;> exact ⟨_, rfl⟩

theorem applyAction_goes_on {c : Byte} {effect : Byte → State → State → Result} {s a : State}
    (he : ∀ b, ∃ t, effect b s a = .next t) (q : Option Byte) : ∃ t, applyAction c effect q s a = .next t := by
  cases q with
  | none => exact ⟨_, rfl⟩
  | some b => exact he b

/-- A payload byte is taken or refused (44 R243). -/
theorem applyPayloadByte_goes_on (b : Byte) (s a : State) : ∃ t, applyPayloadByte b s a = .next t := by
  unfold applyPayloadByte
  split
  · exact stagePayload_goes_on b s a
  split
  · split
    · exact ⟨_, rfl⟩
    split
    · exact cecSendPayload_goes_on b s a
    split
    · exact ⟨_, rfl⟩
    split <;> exact ⟨_, rfl⟩
  · exact ⟨_, rfl⟩

theorem applyAddrWrite_goes_on (x : BitVec 7) (s a : State) : ∃ t, applyAddrWrite x s a = .next t := by
  unfold applyAddrWrite
  split <;> exact ⟨_, rfl⟩

/-- The first byte of a read is a byte of the window (43 R207). -/
theorem applyAddrRead_goes_on (hi : Inv s) (x : BitVec 7) (a : State) : ∃ t, applyAddrRead x s a = .next t := by
  unfold applyAddrRead
  split
  · exact ⟨_, rfl⟩
  · obtain ⟨b, hb⟩ := hi.readOut_ok 0#5
    simp only [toRead, hb]
    exact ⟨_, rfl⟩
  · exact ⟨_, rfl⟩

/-- A bit clock of a read byte has a bit of it to drive, or is the last (43 R211). -/
theorem readClock_goes_on (h : s.i2c.bitcnt.toNat ≤ 7) (a : State) : ∃ t, readClock s a = .next t := by
  unfold readClock
  split
  next => exact ⟨_, rfl⟩
  next h7 =>
    have hlt : s.i2c.bitcnt.toNat < 7 := by bv_omega
    rw [if_pos hlt]
    exact ⟨_, rfl⟩

theorem applyReadByte_goes_on (hi : Inv s) (m : Bool) (a : State) : ∃ t, applyReadByte m s a = .next t := by
  unfold applyReadByte
  split
  next =>
    obtain ⟨b, hb⟩ := hi.readOut_ok s.i2c.rdptr
    simp only [nextRead, hb]
    exact ⟨_, rfl⟩
  next hs => exact readClock_goes_on (hi.readBits hs) a
  next => exact ⟨_, rfl⟩
  next => exact ⟨_, rfl⟩

/-- No row of the I2C bus stops, whichever is presented. -/
theorem applyI2c_goes_on (hi : Inv s) (i : Instr) (a : State) : ∃ t, applyI2c i s a = .next t := by
  cases i with
  | stage q => exact applyAction_goes_on (fun b => stagePayload_goes_on b s a) q
  | cecSend q => exact applyAction_goes_on (fun b => cecSendPayload_goes_on b s a) q
  | setAddr q | monitorToggle q | softReset q => exact applyAction_goes_on (fun _ => ⟨_, rfl⟩) q
  | payloadByte b => exact applyPayloadByte_goes_on b s a
  | addrWrite x => exact applyAddrWrite_goes_on x s a
  | addrRead x => exact applyAddrRead_goes_on hi x a
  | readByte m => exact applyReadByte_goes_on hi m a
  | _ => exact ⟨_, rfl⟩

theorem i2cEngine_goes_on (hi : Inv s) (a : State) : ∃ t, i2cEngine s a = .next t := by
  cases hst : i2cStrobe s with
  | none => exact ⟨a, by rw [i2cEngine_of_no_strobe hst]⟩
  | some st =>
    simp only [i2cEngine, hst, i2cOn]
    split
    next i _ => exact applyI2c_goes_on hi i a
    next => exact ⟨_, rfl⟩

/-! ### The CEC engine (41 R140, 42 R170) -/

/-- A bit time after its ACK bit began, a transmission has another block: that of the last one has ended it at its sample
point (42 R178, R179). -/
theorem Inv.next_block_lt_len (hi : Inv s) (hs : s.cec.state = .txBit) (hb : 9 ≤ s.cec.bit.toNat)
    (ht : reach s s.cfg.tBit = true) : s.cec.blk.toNat + 1 < s.tx.len.toNat := by
  obtain ⟨-, hblk, hbit⟩ := hi.sending (.inr hs)
  by_contra hlast
  have h9 : s.cec.bit = 9#4 := by bv_omega
  have hbefore : s.timer.t.toNat < s.cfg.tMid := hi.lastAck hs h9 (by omega)
  obtain ⟨-, -, hmid, hlow, -⟩ := valid_bit_times hi.valid
  simp only [reach, Bool.and_eq_true, beq_iff_eq] at ht
  omega

/-- A block that the transmission has is a block of TX_BUF (20 R60). -/
theorem Inv.startTxBit_goes_on (hi : Inv s) {k : Nat} (hk : k < s.tx.len.toNat) (j : Nat) (a : State) :
    ∃ t, startTxBit k j s a = .next t := by
  obtain ⟨_, -, h⟩ := startTxBit_ok (hk.trans_le hi.txLen.1) j a
  exact ⟨_, h⟩

theorem nextBit_goes_on (hi : Inv s) (hs : s.cec.state = .txBit) (ht : reach s s.cfg.tBit = true) (a : State) :
    ∃ t, nextBit s a = .next t := by
  obtain ⟨-, hblk, -⟩ := hi.sending (.inr hs)
  unfold nextBit
  split
  next => exact hi.startTxBit_goes_on hblk _ a
  next hb => exact hi.startTxBit_goes_on (hi.next_block_lt_len hs (Nat.not_lt.1 hb) ht) _ a

theorem txBitCycle_goes_on (hi : Inv s) (v line : Bool) (a : State) : ∃ t, txBitCycle v line s a = .next t := by
  unfold txBitCycle
  generalize (if v then s.cfg.t1Low else s.cfg.t0Low) = low
  split
  next hs =>
    split
    · exact ⟨_, rfl⟩
    split
    · exact ⟨_, rfl⟩
    split
    next ht => exact nextBit_goes_on hi hs ht a
    next => exact ⟨_, rfl⟩
  next => exact ⟨_, rfl⟩

/-- The first bit of an attempt is of a block that the transmission has (42 R173). -/
theorem applyCecStartTx_goes_on (hi : Inv s) (a : State) : ∃ t, applyCecStartTx s a = .next t := by
  unfold applyCecStartTx
  split
  next => split <;> exact ⟨_, rfl⟩
  next hs =>
    split
    · exact ⟨_, rfl⟩
    split
    · obtain ⟨-, hblk, -⟩ := hi.sending (.inl hs)
      exact hi.startTxBit_goes_on (Nat.zero_lt_of_lt hblk) 0 a
    · exact ⟨_, rfl⟩
  next => exact ⟨_, rfl⟩

theorem applyCecStartRx_goes_on (l : BitVec 16) (s a : State) : ∃ t, applyCecStartRx l s a = .next t := by
  unfold applyCecStartRx
  split
  · split <;> exact ⟨_, rfl⟩
  · exact ⟨_, rfl⟩

theorem applyCecBitRx_goes_on (l : BitVec 16) (s a : State) : ∃ t, applyCecBitRx l s a = .next t := by
  unfold applyCecBitRx
  split <;> exact ⟨_, rfl⟩

theorem ackDrive_goes_on (falls : Bool) (s a : State) : ∃ t, ackDrive falls s a = .next t := by
  unfold ackDrive
  split
  case h_3 => exact ⟨_, rfl⟩
  all_goals split_ifs <;> exact ⟨_, rfl⟩

/-- No row of the CEC engine stops, whichever it executes. -/
theorem applyCec_goes_on (hi : Inv s) (i : Instr) (a : State) : ∃ t, applyCec i s a = .next t := by
  cases i with
  | cecStartRx l => exact applyCecStartRx_goes_on l s a
  | cecStartTx => exact applyCecStartTx_goes_on hi a
  | cecBitRx l => exact applyCecBitRx_goes_on l s a
  | cecBit1Tx | cecBit0Tx => exact txBitCycle_goes_on hi _ _ a
  | cecAckDrive => exact ackDrive_goes_on _ s a
  | _ => exact ⟨_, rfl⟩

theorem cecEngine_goes_on (hi : Inv s) (a : State) : ∃ t, cecEngine s a = .next t := by
  unfold cecEngine
  split
  next i _ => exact applyCec_goes_on hi i a
  next => exact ⟨_, rfl⟩

/-! ### The whole cycle (45 R287) -/

/-- In either order of the engines the second goes on over what the first has written. -/
theorem cycle_goes_on (hi : Inv s) : ∃ t, cycle s = .next t := by
  cases hs : softResetNow s with
  | false =>
    obtain ⟨a, ha⟩ := i2cEngine_goes_on hi (background s)
    rw [cycle_of_no_softReset hs, ha, andThen_next]
    exact cecEngine_goes_on hi a
  | true =>
    obtain ⟨a, ha⟩ := cecEngine_goes_on hi (background s)
    rw [cycle_of_softReset hs, ha, andThen_next]
    exact i2cEngine_goes_on hi a

/-- Settles O15. A valid configuration is not refused, a reset edge answers the reset state, and a cycle without unused
encodings goes on. -/
theorem invStepNeverStops : Obligations.InvStepNeverStops := by
  intro s hi
  cases hr : (currentSample s).rstN with
  | false => exact ⟨hardReset s, step_eq_next.2 ⟨hi.valid, .inl ⟨hr, rfl⟩⟩⟩
  | true =>
    rw [step_eq_cycle hi.valid hr hi.encodings]
    exact cycle_goes_on hi

end Sys2Proof.Machine
end

section
/-! SUPPORT. The decoder and the encoder undo each other (30 R80 to R98): one lemma for each format, in both
directions. -/

namespace Sys2Proof

open Machine

/-- A guarded answer is an instruction when its guard holds. -/
theorem ite_ok_eq_ok {p : Prop} [Decidable p] {i j : Instr} {e : DecodeError} :
    (if p then Except.ok i else .error e) = .ok j ↔ p ∧ i = j := by
  split_ifs with h <;> simp [h]

/-! ### Sequences of units (30 R80, R96) -/

theorem decode_fc (c : Config) (b : Byte) : decode c [.fc b] = .ok (decodeCommand b) := rfl

/-- Only an action takes a payload byte after its command byte (44 R243). -/
theorem decode_fc_fp_sound {c : Config} {b p : Byte} {i : Instr} (h : decode c [.fc b, .fp p] = .ok i) :
    isAction b = true ∧ decodePayload b 1#5 p = i := ite_ok_eq_ok.1 h

theorem decode_fb (c : Config) (w : BitVec 10) :
    decode c [.fb w] = .ok (.cecDataBlock (blockData w) (blockEom w) (blockAck w)) := rfl
theorem decode_fbSent (c : Config) (w : BitVec 10) :
    decode c [.fbSent w] = .ok (.cecTxBlock (blockData w) (blockEom w) (blockAck w)) := rfl
theorem decode_pulseIdle {c : Config} {l : BitVec 16} (h1 : c.startMin ≤ l.toNat) (h2 : l.toNat < c.tTimeout) :
    decode c [.pulseIdle l] = .ok (.cecStartRx l) :=
  (if_neg (Nat.not_lt.2 h1)).trans (if_pos h2)

/-- A transaction to this block's address (30 R94, R98). -/
theorem decode_transaction (c : Config) (cmd : Byte) (rest : List Token) :
    decode c (transaction c cmd rest) = decodeTransaction c cmd rest := if_pos rfl

/-- A transaction to another slave is none of this block's (30 R94). -/
theorem decode_start_sound {c : Config} {a cmd : Byte} {rest : List Token} {i : Instr}
    (h : decode c (.condition false :: .fa a :: .fc cmd :: rest) = .ok i) :
    a = addressByte c.i2cAddr false ∧ decodeTransaction c cmd rest = .ok i := by
  change (if a = addressByte c.i2cAddr false then _ else _) = _ at h
  split_ifs at h with ha
  exact ⟨ha, h⟩

/-- The rows of an address byte (30 R81). -/
theorem decodeAddress_addressByte (a : BitVec 7) (r : Bool) :
    decodeAddress (addressByte a r) = if r then .addrRead a else .addrWrite a := by
  simp [decodeAddress]

theorem decodeAddress_sound (c : Config) (b : Byte) :
    (decodeAddress b).wellFormed c = true ∧ encode c (decodeAddress b) = [.fa b] := by
  have hb := addressByte_fields b
  simp only [decodeAddress]
  split
  next h => exact ⟨rfl, congrArg (fun x => [Token.fa x]) (h ▸ hb)⟩
  next h => exact ⟨rfl, congrArg (fun x => [Token.fa x]) (Bool.eq_false_iff.2 h ▸ hb)⟩

/-! ### Command and payload bytes (30 R84 to R86) -/

/-- A reserved byte is none of the ten codes (30 R93). -/
theorem decodeCommand_reserved {b : Byte} (h : isReserved b = true) : decodeCommand b = .reservedCommand b := by
  simp only [isReserved, isLoad, isAction, Bool.and_eq_true, Bool.not_eq_true', Bool.or_eq_false_iff,
    beq_eq_false_iff_ne, ne_eq] at h
  simp only [decodeCommand, h, if_false]

/-- The row of a command byte has that byte as its encoding, and is well formed: `reservedCommand` is left for a byte
that is none of the ten codes. -/
theorem decodeCommand_sound (c : Config) (b : Byte) :
    (decodeCommand b).wellFormed c = true ∧ encode c (decodeCommand b) = [.fc b] := by
  unfold decodeCommand
  split_ifs
  case neg => simp_all [Instr.wellFormed, encode, isReserved, isLoad, isAction]
  all_goals exact ⟨rfl, by simp only [encode, actionUnits, *]⟩

theorem isAction_iff (b : Byte) : isAction b = true ↔
    b = codeSetAddr ∨ b = codeStage ∨ b = codeCecSend ∨ b = codeMonitorToggle ∨ b = codeSoftReset := by
  simp [isAction, or_assoc]

/-- The row of an action's first payload byte has the action's two units as its encoding. -/
theorem decodePayload_sound (c : Config) {b : Byte} (h : isAction b = true) (p : Byte) :
    (decodePayload b 1#5 p).wellFormed c = true ∧ encode c (decodePayload b 1#5 p) = [.fc b, .fp p] := by
  rcases (isAction_iff b).1 h with rfl | rfl | rfl | rfl | rfl <;> exact ⟨rfl, rfl⟩

/-! ### Blocks (30 R87, R88) -/

@[simp] theorem blockWord_fields (w : BitVec 10) : blockWord (blockData w) (blockEom w) (blockAck w) = w := by
  revert w; decide

theorem decodeHeader_ping (a : BitVec 4) (ack : Bool) :
    decodeHeader (blockWord (headerByte a a) true ack) = .cecPing a ack := by
  simp [decodeHeader]

theorem decodeHeader_block {src dst : BitVec 4} {eom : Bool} (h : (eom && src == dst) = false) (ack : Bool) :
    decodeHeader (blockWord (headerByte src dst) eom ack) = .cecHeaderBlock src dst eom ack := by
  simp only [decodeHeader, blockData_blockWord, blockEom_blockWord, blockAck_blockWord, sourceOf_headerByte,
    destinationOf_headerByte, h, Bool.false_eq_true, if_false]

/-- A byte with equal nibbles is put together from either of them. -/
theorem headerByte_of_same {b : Byte} (h : sourceOf b = destinationOf b) :
    headerByte (destinationOf b) (destinationOf b) = b :=
  calc headerByte (destinationOf b) (destinationOf b)
    _ = headerByte (sourceOf b) (destinationOf b) := by rw [h]
    _ = b := headerByte_fields b

/-- A header block is a ping or not, and its fields put together are the word. -/
theorem decodeHeader_sound (c : Config) (w : BitVec 10) :
    (decodeHeader w).wellFormed c = true ∧ encode c (decodeHeader w) = [.fh w] := by
  simp only [decodeHeader]
  split
  next h =>
    obtain ⟨heom, hsame⟩ := Bool.and_eq_true_iff.1 h
    have hbyte := headerByte_of_same (beq_iff_eq.1 hsame)
    refine ⟨rfl, ?_⟩
    simp only [encode, hbyte, ← heom, blockWord_fields]
  next h => exact ⟨by simp only [Instr.wellFormed, Bool.eq_false_iff.2 h, Bool.not_false], by simp [encode]⟩

/-! ### Symbols (30 R90, R91) -/

theorem decodePulse_sound {c : Config} {l : BitVec 16} {i : Instr} (h : decode c [.pulseIdle l] = .ok i) :
    i.wellFormed c = true ∧ encode c i = [.pulseIdle l] := by
  change (if l.toNat < c.startMin then _ else _) = _ at h
  split at h
  next => cases h
  next hnoise =>
    obtain ⟨hwedged, rfl⟩ := ite_ok_eq_ok.1 h
    exact ⟨by simp [Instr.wellFormed, Nat.not_lt.1 hnoise, hwedged], rfl⟩

/-- The three symbols that the block sends differ in their low times (00 R9). -/
theorem decodeSent_own {c : Config} (hv : c.Valid) :
    decodeSent c c.tStartLow c.tStartTotal = .ok .cecStartTx ∧ decodeSent c c.t1Low c.tBit = .ok .cecBit1Tx ∧
      decodeSent c c.t0Low c.tBit = .ok .cecBit0Tx := by
  obtain ⟨-, h1, h2, -, h3, -⟩ := valid_bit_times hv
  have hstart : c.t0Low < c.tStartLow := lt_of_lt_of_le h3 (Nat.sub_le _ _)
  have h10 : c.t1Low < c.t0Low := h1.trans h2
  simp [decodeSent, h10.ne', hstart.ne, (h10.trans hstart).ne]

theorem decodeSent_sound {c : Config} {low total : Nat} {i : Instr} (h : decodeSent c low total = .ok i) :
    i.wellFormed c = true ∧ encode c i = [.sent low total] := by
  unfold decodeSent at h
  split_ifs at h with hstart hone hzero <;> cases h
  · obtain ⟨rfl, rfl⟩ := hstart; exact ⟨rfl, rfl⟩
  · obtain ⟨rfl, rfl⟩ := hone; exact ⟨rfl, rfl⟩
  · obtain ⟨rfl, rfl⟩ := hzero; exact ⟨rfl, rfl⟩

/-! ### Transactions (30 R98) -/

theorem readTail_length (c : Config) {n : Nat} (h : 1 ≤ n) : (readTail c n).length = n + 3 := by
  simp [readTail]; omega

/-- The staged bytes end where SEND's own units begin. -/
@[simp] theorem leadingPayloads_send (c : Config) (bs : List Byte) :
    leadingPayloads (bs.map Token.fp ++ sendTail c) = bs := by
  induction bs with
  | nil => rfl
  | cons b bs ih => exact congrArg (b :: ·) ih

theorem lowNibble_of_lt {p : Byte} (h : p.toNat < 16) : 0#4 ++ lowNibble p = p := by
  revert p; decide

theorem toNat_nibble_lt (a : BitVec 4) : (0#4 ++ a).toNat < 16 := by
  revert a; decide

/-- A SEND that is no PING keeps its name. -/
theorem sendInstr_of_wellFormed {c : Config} {bs : List Byte} (hv : c.Valid) (h : (Instr.send bs).wellFormed c = true) :
    sendInstr bs = .send bs ∧ 1 ≤ bs.length ∧ bs.length ≤ c.bufCap := by
  obtain ⟨-, -, hcap, -⟩ := valid_decided hv
  match bs with
  | [] => cases h
  | [b] => exact ⟨if_neg (by simpa [Instr.wellFormed] using h), by simp, by simp [hcap]⟩
  | b :: b' :: bs => exact ⟨rfl, by simp, by simpa [Instr.wellFormed] using h⟩

theorem sendInstr_sound (c : Config) {bs : List Byte} (h1 : 1 ≤ bs.length) (h2 : bs.length ≤ c.bufCap) :
    (sendInstr bs).wellFormed c = true ∧
      encode c (sendInstr bs) = transaction c codeStage (bs.map Token.fp ++ sendTail c) := by
  match bs with
  | [b] =>
    simp only [sendInstr]
    split
    next h => exact ⟨rfl, by simp [encode, headerByte_of_same h]⟩
    next h => exact ⟨by simpa [Instr.wellFormed] using h, rfl⟩
  | b :: b' :: bs => exact ⟨by simpa [sendInstr, Instr.wellFormed] using h2, rfl⟩

section

variable (c : Config) (rest : List Token)

theorem decodeTransaction_loadId : decodeTransaction c codeLoadId rest =
    if rest = readTail c 5 then .ok .readId else .error .noInstruction := rfl
theorem decodeTransaction_loadAddr : decodeTransaction c codeLoadAddr rest =
    if rest = readTail c 1 then .ok .getAddr else .error .noInstruction := rfl
theorem decodeTransaction_loadTaken : decodeTransaction c codeLoadTaken rest =
    if rest = readTail c 2 then .ok .getTaken else .error .noInstruction := rfl
theorem decodeTransaction_loadLength : decodeTransaction c codeLoadLength rest =
    if rest = readTail c 1 then .ok .getLength else .error .noInstruction := rfl
theorem decodeTransaction_loadBuffer : decodeTransaction c codeLoadBuffer rest =
    if rest = readTail c (rest.length - 3) ∧ 1 ≤ rest.length - 3 ∧ rest.length - 3 ≤ c.bufCap then
      .ok (.getBuffer (rest.length - 3)) else .error .noInstruction := rfl
theorem decodeTransaction_setAddr (p : Byte) : decodeTransaction c codeSetAddr [.fp p, .condition true] =
    if p.toNat < 16 then .ok (.setAddrA (lowNibble p)) else .error .noInstruction := rfl
theorem decodeTransaction_stage : decodeTransaction c codeStage rest =
    if rest = (leadingPayloads rest).map Token.fp ++ sendTail c ∧ 1 ≤ (leadingPayloads rest).length ∧
        (leadingPayloads rest).length ≤ c.bufCap then
      .ok (sendInstr (leadingPayloads rest)) else .error .noInstruction := rfl
theorem decodeTransaction_send {bs : List Byte} (h1 : 1 ≤ bs.length) (h2 : bs.length ≤ c.bufCap) :
    decodeTransaction c codeStage (bs.map Token.fp ++ sendTail c) = .ok (sendInstr bs) := by
  simp only [decodeTransaction_stage, leadingPayloads_send, h1, h2, and_self, if_true]
theorem decodeTransaction_monitorToggle : decodeTransaction c codeMonitorToggle rest =
    if rest = [.fp 0x00#8, .condition true] then .ok .monitor else .error .noInstruction := rfl
theorem decodeTransaction_softReset : decodeTransaction c codeSoftReset rest =
    if rest = [.fp 0x00#8, .condition true] then .ok .reset else .error .noInstruction := rfl

end

/-- A command byte with one tail that it must have. -/
theorem fixedTail_sound {c : Config} {cmd code : Byte} {rest tail : List Token} {i j : Instr} {e : DecodeError}
    (hcmd : cmd = code) (h : (if rest = tail then Except.ok j else .error e) = .ok i)
    (hj : j.wellFormed c = true ∧ encode c j = transaction c code tail) :
    i.wellFormed c = true ∧ encode c i = transaction c cmd rest := by
  obtain ⟨rfl, rfl⟩ := ite_ok_eq_ok.1 h
  rwa [hcmd]

/-- A transaction's command byte says which of the nine tails it must have; every other tail or byte is no instruction. -/
theorem decodeTransaction_sound {c : Config} {cmd : Byte} {rest : List Token} {i : Instr}
    (h : decodeTransaction c cmd rest = .ok i) : i.wellFormed c = true ∧ encode c i = transaction c cmd rest := by
  unfold decodeTransaction at h
  split at h
  next hcmd => exact fixedTail_sound hcmd h ⟨rfl, rfl⟩
  split at h
  next hcmd => exact fixedTail_sound hcmd h ⟨rfl, rfl⟩
  split at h
  next hcmd => exact fixedTail_sound hcmd h ⟨rfl, rfl⟩
  split at h
  next hcmd => exact fixedTail_sound hcmd h ⟨rfl, rfl⟩
  split at h
  next hcmd =>
    obtain ⟨⟨hrest, h1, h2⟩, rfl⟩ := ite_ok_eq_ok.1 h
    exact ⟨by simp [Instr.wellFormed, h1, h2], by rw [hcmd]; exact congrArg (transaction c codeLoadBuffer) hrest.symm⟩
  split at h
  next hcmd =>
    split at h
    next p =>
      obtain ⟨hp, rfl⟩ := ite_ok_eq_ok.1 h
      exact ⟨rfl, by rw [hcmd, encode, lowNibble_of_lt hp]⟩
    next => cases h
  split at h
  next hcmd =>
    obtain ⟨⟨hrest, h1, h2⟩, rfl⟩ := ite_ok_eq_ok.1 h
    obtain ⟨hwf, henc⟩ := sendInstr_sound c h1 h2
    exact ⟨hwf, by rw [henc, hcmd, ← hrest]⟩
  split at h
  next hcmd => exact fixedTail_sound hcmd h ⟨rfl, rfl⟩
  split at h
  next hcmd => exact fixedTail_sound hcmd h ⟨rfl, rfl⟩
  cases h

/-! ### The round trips -/

/-- One unit alone. -/
theorem decode_unit_sound {c : Config} {t : Token} {i : Instr} (h : decode c [t] = .ok i) :
    i.wellFormed c = true ∧ encode c i = [t] := by
  cases t with
  | condition sda => cases h; cases sda <;> exact ⟨rfl, rfl⟩
  | fa b => cases h; exact decodeAddress_sound c b
  | fc b => cases h; exact decodeCommand_sound c b
  | fp p | fr m => cases h; exact ⟨rfl, rfl⟩
  | fh w => cases h; exact decodeHeader_sound c w
  | fb w => cases h; exact ⟨rfl, congrArg (fun x => [Token.fb x]) (blockWord_fields w)⟩
  | fbSent w => cases h; exact ⟨rfl, congrArg (fun x => [Token.fbSent x]) (blockWord_fields w)⟩
  | pulseIdle l => exact decodePulse_sound h
  | pulseFrame l | ackSlot => cases h; exact ⟨rfl, rfl⟩
  | sent low total => exact decodeSent_sound h

/-- More than one unit: an action with its payload byte, or a transaction that begins `S A cmd`. -/
theorem decode_units_sound {c : Config} {t t' : Token} {ts : List Token} {i : Instr}
    (h : decode c (t :: t' :: ts) = .ok i) : i.wellFormed c = true ∧ encode c i = t :: t' :: ts := by
  cases t with
  | fc b =>
    cases t' with
    | fp p =>
      cases ts with
      | nil =>
        obtain ⟨hb, rfl⟩ := decode_fc_fp_sound h
        exact decodePayload_sound c hb p
      | cons => cases h
    | _ => cases h
  | condition sda =>
    cases t' with
    | fa a =>
      match ts, h with
      | [], h => cases sda <;> cases h
      | t'' :: rest, h =>
        cases t'' with
        | fc cmd =>
          cases sda with
          | false =>
            obtain ⟨rfl, htail⟩ := decode_start_sound h
            exact decodeTransaction_sound htail
          | true => cases h
        | _ => cases sda <;> cases h
    | _ => cases sda <;> cases h
  | _ => cases h

/-- Settles O2: by the number of units. -/
theorem encodeInvertsDecode : Obligations.EncodeInvertsDecode := by
  intro c ts i h
  match ts, h with
  | [_], h => exact decode_unit_sound h
  | _ :: _ :: _, h => exact decode_units_sound h

/-- Settles O1: each constructor by the lemma about its format. -/
theorem decodeInvertsEncode : Obligations.DecodeInvertsEncode := by
  intro c i hv hi
  cases i with
  | loadId | loadAddr | loadTaken | loadLength | loadBuffer | payloadByte | readByte => rfl
  | setAddr p | stage p | cecSend p | monitorToggle p | softReset p => cases p <;> rfl
  | reservedCommand b => exact congrArg _ (decodeCommand_reserved hi)
  | addrWrite a => exact congrArg _ (decodeAddress_addressByte a false)
  | addrRead a => exact congrArg _ (decodeAddress_addressByte a true)
  | i2cStart | i2cStop => rfl
  | cecHeaderBlock src dst eom ack =>
    exact congrArg _ (decodeHeader_block (by simpa only [Instr.wellFormed, Bool.not_eq_true'] using hi) ack)
  | cecPing a ack => exact congrArg _ (decodeHeader_ping a ack)
  | cecDataBlock d eom ack => simp only [encode, decode_fb, blockData_blockWord, blockEom_blockWord, blockAck_blockWord]
  | cecTxBlock d eom ack => simp only [encode, decode_fbSent, blockData_blockWord, blockEom_blockWord, blockAck_blockWord]
  | cecStartRx l =>
    obtain ⟨h1, h2⟩ := Bool.and_eq_true_iff.1 hi
    rw [Nat.ble_eq] at h1
    rw [Nat.blt_eq] at h2
    exact decode_pulseIdle h1 h2
  | cecStartTx => exact (decodeSent_own hv).1
  | cecBit1Tx => exact (decodeSent_own hv).2.1
  | cecBit0Tx => exact (decodeSent_own hv).2.2
  | cecBitRx | cecAckDrive => rfl
  | readId | getAddr | getTaken | getLength =>
    simp only [encode, decode_transaction, decodeTransaction_loadId, decodeTransaction_loadAddr,
      decodeTransaction_loadTaken, decodeTransaction_loadLength, if_true]
  | getBuffer n =>
    simp only [Instr.wellFormed, Bool.and_eq_true, Nat.ble_eq] at hi
    simp only [encode, decode_transaction, decodeTransaction_loadBuffer, readTail_length c hi.1, Nat.add_sub_cancel, hi,
      and_self, if_true]
  | setAddrA a =>
    simp only [encode, decode_transaction, decodeTransaction_setAddr, toNat_nibble_lt, if_true, lowNibble_append]
  | send bs =>
    obtain ⟨hname, h1, h16⟩ := sendInstr_of_wellFormed hv hi
    rw [encode, decode_transaction, decodeTransaction_send c h1 h16, hname]
  | pingA a =>
    obtain ⟨-, -, hcap, -⟩ := valid_decided hv
    calc decode c (encode c (.pingA a))
      _ = decodeTransaction c codeStage ([headerByte a a].map Token.fp ++ sendTail c) := decode_transaction c _ _
      _ = .ok (sendInstr [headerByte a a]) := decodeTransaction_send c (by simp) (by simp [hcap])
      _ = .ok (.pingA a) := by simp [sendInstr]
  | monitor | reset =>
    simp only [encode, decode_transaction, decodeTransaction_monitorToggle, decodeTransaction_softReset, if_true]

/-- Settles O3, by running the decoder. -/
theorem sampleWordsDecode : Obligations.SampleWordsDecode := by
  unfold Obligations.SampleWordsDecode
  decide

/-- Settles O4: the codes of `decodeCommand` are the numbers of 30 R85. -/
theorem commandByteMap : Obligations.CommandByteMap := by
  intro c b
  exact decode_fc c b

end Sys2Proof
end

section
/-! SUPPORT. What each piece of an I2C transaction does: a condition, an address byte, a written byte, a read byte
(43 R200 to R217; log 8). -/

namespace Sys2Proof.Machine

theorem runClocks_append (l₁ l₂ : List I2cStrobe) (s : State) :
    runClocks (l₁ ++ l₂) s = andThen (runClocks l₁ s) (runClocks l₂) :=
  feed_append _ l₁ l₂ s

theorem runClocks_cons (st : I2cStrobe) (l : List I2cStrobe) (s : State) :
    runClocks (st :: l) s = andThen (i2cOn st s s) (runClocks l) := rfl

@[simp] theorem runClocks_nil (s : State) : runClocks [] s = .next s := rfl

/-! ### The bytes read so far -/

/-- The I2C registers `r`, with these bytes read since `s` (log 12). -/
def withReads (r : I2cRegs) (l : List Byte) (s : State) : State :=
  { s with i2c := r, env := { s.env with readTrace := s.env.readTrace ++ l } }

theorem withReads_withReads (r r' : I2cRegs) (l l' : List Byte) (s : State) :
    withReads r' l' (withReads r l s) = withReads r' (l ++ l') s := by
  simp [withReads]

/-- The read window looks at no register of the I2C engine (44 R241). -/
theorem readOut_withReads (r : I2cRegs) (l : List Byte) (s : State) (p : BitVec 5) :
    readOut (withReads r l s) p = readOut s p := rfl

/-! ### Conditions (43 R201, R202) -/

theorem runClocks_startClocks (s : State) : runClocks startClocks s = .next (i2cStartCondition s) := rfl

/-- The rise before a repeated START samples a bit that the START drops. -/
theorem runClocks_restartClocks {s : State} (hs : s.i2c.state = .wrData) (h0 : s.i2c.bitcnt = 0#4) :
    runClocks restartClocks s = .next (i2cStartCondition s) := by
  have hrise : i2cOn (.rise true) s s = .next (sampled true s) :=
    i2cOn_rise (by simp [receivingByte, hs]) (by simp [h0])
  rw [restartClocks, runClocks_cons, hrise, andThen_next]
  rfl

/-- A STOP ends in IDLE with SDA released, from a byte that has not begun and from IGNORE. -/
theorem runClocks_stopClocks {s : State} (hs : (s.i2c.state = .wrData ∧ s.i2c.bitcnt = 0#4) ∨ s.i2c.state = .ignore) :
    ∃ r : I2cRegs, runClocks stopClocks s = .next { s with i2c := r } ∧ r.state = .idle ∧ r.sdaOe = false := by
  have hrise : ∃ r, i2cOn (.rise false) s s = .next { s with i2c := r } := by
    rcases hs with ⟨hs, h0⟩ | hs
    · exact ⟨_, i2cOn_rise (by simp [receivingByte, hs]) (by simp [h0])⟩
    · exact ⟨s.i2c, by simp [i2cOn, fetchI2cOn, hs, betweenI2c]⟩
  obtain ⟨r, hr⟩ := hrise
  refine ⟨{ r with state := .idle, sdaOe := false }, ?_, rfl, rfl⟩
  rw [stopClocks, runClocks_cons, hr, andThen_next]
  rfl

/-! ### Written bytes (43 R203 to R210) -/

/-- The engine right before the eighth rise of a byte. -/
def awaitingLastBit (v : Byte) (s : State) : State :=
  { s with i2c := { s.i2c with shift := v, bitcnt := 7#4 } }

/-- The clocks after the eighth rise of a written byte. -/
def lastClocks : List I2cStrobe := [.fall, .rise true, .fall]

/-- A written byte is its eighth rise, in a state that holds the other seven bits, and the ACK clock. -/
theorem runClocks_writeByteClocks {s : State} (b : Byte) (h : receivingByte s = true) (h0 : s.i2c.bitcnt = 0#4) :
    ∃ v, shiftIn v (b.getLsbD 0) = b ∧ runClocks (writeByteClocks b) s =
      andThen (i2cOn (.rise (b.getLsbD 0)) (awaitingLastBit v s) (awaitingLastBit v s)) (runClocks lastClocks) := by
  obtain ⟨v, hv, hrun⟩ := runClocks_writeByte b h h0 []
  rw [List.append_nil] at hrun
  exact ⟨v, hv, hrun⟩

/-- The engine in the ACK clock of an address byte to this block (43 R204, R205). -/
def addressed (r : Bool) (s : State) : State :=
  { s with i2c := { s.i2c with
      shift := addressByte s.cfg.i2cAddr r, bitcnt := 0#4, rw := r, accept := true, sdaOe := true, state := .addrAck } }

/-- The eighth rise of an address byte presents its row. -/
theorem i2cOn_eighthRise_addr {s : State} {b r : Bool} {a : BitVec 7} (hs : s.i2c.state = .addr) (h7 : s.i2c.bitcnt = 7#4)
    (hb : shiftIn s.i2c.shift b = addressByte a r) : i2cOn (.rise b) s s = .next (addressDecide a r s s) := by
  cases r <;>
    simp [i2cOn, fetchI2cOn, hs, h7, hb, decodeAddress, applyI2c, applyAddrWrite, applyAddrRead, addressCycle]

/-- The fall after it decides the ACK. -/
theorem i2cOn_fall_addr {s : State} {r : Bool} {a : BitVec 7} (hs : s.i2c.state = .addr) (h8 : s.i2c.bitcnt = 8#4)
    (hb : s.i2c.shift = addressByte a r) : i2cOn .fall s s = .next (addressAck s s) := by
  cases r <;>
    simp [i2cOn, fetchI2cOn, hs, h8, hb, decodeAddress, applyI2c, applyAddrWrite, applyAddrRead, addressCycle]

/-- An address byte to this block: it is ACKed, and what follows begins with the fall that ends the ACK clock. -/
theorem runClocks_addressByte {s : State} (r : Bool) (hs : s.i2c.state = .addr) (h0 : s.i2c.bitcnt = 0#4) :
    runClocks (writeByteClocks (addressByte s.cfg.i2cAddr r)) s = i2cOn .fall (addressed r s) (addressed r s) := by
  obtain ⟨v, hv, hrun⟩ := runClocks_writeByteClocks (addressByte s.cfg.i2cAddr r) (by simp [receivingByte, hs]) h0
  have hrise := i2cOn_eighthRise_addr (s := awaitingLastBit v s) hs rfl hv
  generalize hq : addressDecide s.cfg.i2cAddr r (awaitingLastBit v s) (awaitingLastBit v s) = q at hrise
  have hfall : i2cOn .fall q q = .next (addressed r s) := by
    have hack : addressAck q q = addressed r s := by
      simp [← hq, addressAck, addressDecide, awaitingLastBit, addressed]
    rw [← hack]
    subst hq
    exact i2cOn_fall_addr (s := addressDecide s.cfg.i2cAddr r _ _) hs rfl rfl
  rw [hrun, hrise, andThen_next, lastClocks, runClocks_cons, hfall, andThen_next, runClocks_cons]
  exact andThen_next_right _

/-- The address byte of a write to this block (43 R206). -/
theorem runClocks_addressWrite {s : State} (hs : s.i2c.state = .addr) (h0 : s.i2c.bitcnt = 0#4) :
    runClocks (writeByteClocks (addressByte s.cfg.i2cAddr false)) s = .next (toWrite (addressed false s)) := by
  rw [runClocks_addressByte false hs h0]
  rfl

/-- The address byte of a read from this block loads the first byte of the window (43 R207). -/
theorem runClocks_addressRead {s : State} (hs : s.i2c.state = .addr) (h0 : s.i2c.bitcnt = 0#4) {x : Byte}
    (hx : readOut s 0#5 = .ok x) :
    ∃ r : I2cRegs, runClocks (writeByteClocks (addressByte s.cfg.i2cAddr true)) s =
        .next (withReads r [x] s) ∧
      r.state = .rdData ∧ r.bitcnt = 0#4 ∧ r.rdptr = 0#5 := by
  have hx' : readOut (addressed true s) 0#5 = .ok x := hx
  have hfall : i2cOn .fall (addressed true s) (addressed true s) = toRead (addressed true s) (addressed true s) := rfl
  rw [runClocks_addressByte true hs h0, hfall, toRead, hx']
  exact ⟨_, rfl, rfl, rfl, rfl⟩

/-- The row of a data byte of a write transaction, by the position the engine counts (43 R208, 44 R242, R243). -/
def dataByteRow (s : State) (b : Byte) : Instr :=
  if s.i2c.byteno = 0#5 then decodeCommand b else decodePayload s.i2c.cmd s.i2c.byteno b

theorem i2cOn_eighthRise_wrData {s : State} {b : Bool} (hs : s.i2c.state = .wrData) (h7 : s.i2c.bitcnt = 7#4) :
    i2cOn (.rise b) s s = applyI2c (dataByteRow s (shiftIn s.i2c.shift b)) s s := by
  simp [i2cOn, fetchI2cOn, hs, h7, dataByteRow]

/-- The I2C registers after the eighth rise of a data byte that is ACKed (43 R203, R208). -/
def byteTaken (b : Byte) (r : I2cRegs) : I2cRegs :=
  { r with shift := b, bitcnt := 8#4, byteno := satInc r.byteno, accept := true }

/-- A data byte whose row the dispatcher ACKs: the row's effect, and the ACK clock (43 R208 to R210). -/
theorem runClocks_dataByte {s : State} {b : Byte} (u : State) (hs : s.i2c.state = .wrData) (h0 : s.i2c.bitcnt = 0#4)
    (hrow : ∀ v, applyI2c (dataByteRow s b) (awaitingLastBit v s) (awaitingLastBit v s) = .next u)
    (hu : u.i2c.state = .wrData) (h8 : u.i2c.bitcnt = 8#4) (hok : u.i2c.accept = true) :
    runClocks (writeByteClocks b) s = .next (ackEnd u) := by
  obtain ⟨v, hv, hrun⟩ := runClocks_writeByteClocks b (by simp [receivingByte, hs]) h0
  have hrise : i2cOn (.rise (b.getLsbD 0)) (awaitingLastBit v s) (awaitingLastBit v s) = .next u := by
    rw [i2cOn_eighthRise_wrData (s := awaitingLastBit v s) hs rfl]
    exact (congrArg (fun x => applyI2c (dataByteRow s x) (awaitingLastBit v s) (awaitingLastBit v s)) hv).trans (hrow v)
  have hfall : i2cOn .fall u u =
      .next { u with i2c := { u.i2c with bitcnt := 0#4, sdaOe := true, state := .wrAck } } := by
    simp [i2cOn, fetchI2cOn, hu, betweenI2c, h8, dataAck, hok]
  rw [hrun, hrise, andThen_next, lastClocks, runClocks_cons, hfall]
  rfl

/-! ### Read bytes (43 R211 to R213) -/

/-- One bit clock of a read byte before its last. -/
theorem runClocks_readBit {s : State} (hs : s.i2c.state = .rdData) (hn : s.i2c.bitcnt.toNat < 7) :
    ∃ d, runClocks (bitClock true) s =
      .next { s with i2c := { s.i2c with bitcnt := s.i2c.bitcnt + 1, sdaOe := d } } := by
  have h7 : s.i2c.bitcnt ≠ 7#4 := fun h => by simp [h] at hn
  refine ⟨!s.i2c.txbyte.getLsbD (6 - s.i2c.bitcnt.toNat), ?_⟩
  have hrise : i2cOn (.rise true) s s = .next s := by simp [i2cOn, fetchI2cOn, hs, betweenI2c]
  have hfall : i2cOn .fall s s = readClock s s := by simp [i2cOn, fetchI2cOn, hs, applyI2c, applyReadByte]
  rw [bitClock, runClocks_cons, hrise, andThen_next, runClocks_cons, hfall, readClock, if_neg h7, if_pos hn]
  rfl

/-- The first bit clocks of a read byte only count and drive SDA. -/
theorem runClocks_readBits {s : State} (hs : s.i2c.state = .rdData) (h0 : s.i2c.bitcnt = 0#4) (k : Nat) (hk : k ≤ 7) :
    ∃ d, runClocks ((List.replicate k true).flatMap bitClock) s =
      .next { s with i2c := { s.i2c with bitcnt := BitVec.ofNat 4 k, sdaOe := d } } := by
  induction k with
  | zero => exact ⟨s.i2c.sdaOe, by rw [← h0]; rfl⟩
  | succ k ih =>
    obtain ⟨d, hd⟩ := ih (by omega)
    obtain ⟨d', hd'⟩ := runClocks_readBit
      (s := { s with i2c := { s.i2c with bitcnt := BitVec.ofNat 4 k, sdaOe := d } }) hs
      (by rw [BitVec.toNat_ofNat]; omega)
    refine ⟨d', ?_⟩
    rw [List.replicate_succ', List.flatMap_append, runClocks_append, hd, andThen_next, List.flatMap_singleton, hd',
      show BitVec.ofNat 4 (k + 1) = BitVec.ofNat 4 k + 1 from BitVec.ofNat_add k 1]

/-- The engine in the clock of the master's answer (43 R211). -/
def rdAcking (s : State) : State :=
  { s with i2c := { s.i2c with bitcnt := 0#4, sdaOe := false, state := .rdAck, rdptr := satInc s.i2c.rdptr } }

/-- The engine after the master's ACK (43 R212). -/
def acked (s : State) : State :=
  { s with i2c := { s.i2c with bitcnt := 0#4, sdaOe := false, state := .rdAcked, rdptr := satInc s.i2c.rdptr } }

/-- The eighth clock of a read byte releases SDA for the master's answer and advances the index (43 R211). -/
theorem runClocks_eightReadBits {s : State} (hs : s.i2c.state = .rdData) (h0 : s.i2c.bitcnt = 0#4) :
    runClocks ((List.replicate 8 true).flatMap bitClock) s = .next (rdAcking s) := by
  obtain ⟨d, hd⟩ := runClocks_readBits hs h0 7 le_rfl
  rw [List.replicate_succ', List.flatMap_append, runClocks_append, hd, andThen_next]
  simp [bitClock, runClocks_cons, i2cOn, fetchI2cOn, hs, betweenI2c, applyI2c, applyReadByte, readClock, rdAcking]

theorem readByteClocks_eq (m : Bool) :
    readByteClocks m = (List.replicate 8 true).flatMap bitClock ++ bitClock m := by
  simp [readByteClocks]

/-- The last byte that the master reads: it does not ACK, and the engine waits for a condition (43 R212). -/
theorem runClocks_lastReadByte {s : State} (hs : s.i2c.state = .rdData) (h0 : s.i2c.bitcnt = 0#4) :
    ∃ r : I2cRegs, runClocks (readByteClocks true) s = .next { s with i2c := r } ∧ r.state = .ignore := by
  rw [readByteClocks_eq, runClocks_append, runClocks_eightReadBits hs h0, andThen_next]
  exact ⟨_, rfl, rfl⟩

/-- A byte that the master ACKs: the next one is loaded (43 R213). -/
theorem runClocks_ackedReadByte {s : State} (hs : s.i2c.state = .rdData) (h0 : s.i2c.bitcnt = 0#4) {x : Byte}
    (hx : readOut s (satInc s.i2c.rdptr) = .ok x) :
    ∃ r : I2cRegs, runClocks (readByteClocks false) s =
        .next (withReads r [x] s) ∧
      r.state = .rdData ∧ r.bitcnt = 0#4 ∧ r.rdptr = satInc s.i2c.rdptr := by
  rw [readByteClocks_eq, runClocks_append, runClocks_eightReadBits hs h0, andThen_next]
  have hload : i2cOn .fall (acked s) (acked s) = .next (startReadByte x (acked s)) := by
    have hx' : readOut (acked s) (acked s).i2c.rdptr = .ok x := hx
    have hfall : i2cOn .fall (acked s) (acked s) = nextRead (acked s) (acked s) := rfl
    rw [hfall, nextRead, hx']
  refine ⟨(startReadByte x (acked s)).i2c, ?_, rfl, rfl, rfl⟩
  have hrise : i2cOn (.rise false) (rdAcking s) (rdAcking s) = .next (acked s) := rfl
  rw [bitClock, runClocks_cons, hrise, andThen_next, runClocks_cons, hload]
  rfl

theorem satInc_ofNat {k : Nat} (hk : k < 31) : satInc (BitVec.ofNat 5 k) = BitVec.ofNat 5 (k + 1) := by
  interval_cases k <;> rfl

/-- The bytes that a master reads from the byte `k` on, which is loaded: `l` are the ones loaded after it. -/
theorem runClocks_readBytes {l : List Byte} : ∀ {s : State} {k : Nat}, s.i2c.state = .rdData → s.i2c.bitcnt = 0#4 →
    s.i2c.rdptr = BitVec.ofNat 5 k → k + l.length < 32 →
    (∀ j (hj : j < l.length), readOut s (BitVec.ofNat 5 (k + 1 + j)) = .ok l[j]) →
    ∃ r : I2cRegs, runClocks ((List.replicate l.length false ++ [true]).flatMap readByteClocks) s =
      .next (withReads r l s) ∧ r.state = .ignore := by
  induction l with
  | nil =>
    intro s k hs h0 _ _ _
    obtain ⟨r, hr, hst⟩ := runClocks_lastReadByte hs h0
    exact ⟨r, by simpa [withReads] using hr, hst⟩
  | cons x l ih =>
    intro s k hs h0 hp hk hread
    rw [List.length_cons] at hk
    have hnext : satInc s.i2c.rdptr = BitVec.ofNat 5 (k + 1) := by rw [hp, satInc_ofNat (by omega)]
    obtain ⟨r, hr, hst, hb, hptr⟩ := runClocks_ackedReadByte hs h0 (hnext ▸ hread 0 (by simp))
    obtain ⟨r', hr', hst'⟩ := ih (s := withReads r [x] s) hst hb (hptr.trans hnext) (by omega) fun j hj => by
      rw [readOut_withReads, Nat.add_assoc (k + 1), Nat.add_comm 1 j]
      exact hread (j + 1) (by simpa using hj)
    refine ⟨r', ?_, hst'⟩
    rw [List.length_cons, List.replicate_succ, List.cons_append, List.flatMap_cons, runClocks_append, hr]
    exact hr'.trans (by rw [withReads_withReads]; rfl)

/-! ### Transactions (30 R98) -/

/-- `S W(x)` leaves the engine at the first data byte and changes nothing else. -/
theorem runClocks_startWrite (s : State) :
    ∃ r : I2cRegs, runClocks (startClocks ++ writeByteClocks (addressByte s.cfg.i2cAddr false)) s =
        .next { s with i2c := r } ∧
      r.state = .wrData ∧ r.bitcnt = 0#4 ∧ r.byteno = 0#5 := by
  rw [runClocks_append, runClocks_startClocks, andThen_next]
  exact ⟨_, runClocks_addressWrite (s := i2cStartCondition s) rfl rfl, rfl, rfl, rfl⟩

/-- `Sr R(x)`, the bytes `x :: l` of the window, and `P`. -/
theorem runClocks_readClocks {s : State} {x : Byte} {l : List Byte} (hs : s.i2c.state = .wrData) (h0 : s.i2c.bitcnt = 0#4)
    (hlen : l.length < 32) (hread : ∀ j (hj : j < (x :: l).length), readOut s (BitVec.ofNat 5 j) = .ok (x :: l)[j]) :
    ∃ r : I2cRegs, runClocks (readClocks s.cfg (l.length + 1)) s = .next (withReads r (x :: l) s) ∧
      r.state = .idle ∧ r.sdaOe = false := by
  obtain ⟨r, haddr, hst, hb, hp⟩ := runClocks_addressRead (s := i2cStartCondition s) rfl rfl (hread 0 (by simp))
  obtain ⟨r', hbytes, hst'⟩ := runClocks_readBytes (k := 0) (l := l) (s := withReads r [x] s) hst hb hp (by omega)
    fun j hj => by
      rw [readOut_withReads, Nat.zero_add, Nat.add_comm 1 j]
      exact hread (j + 1) (by simpa using hj)
  rw [withReads_withReads] at hbytes
  obtain ⟨r'', hstop, hend⟩ := runClocks_stopClocks (s := withReads r' (x :: l) s) (.inr hst')
  refine ⟨r'', ?_, hend⟩
  have haddr : runClocks (writeByteClocks (addressByte s.cfg.i2cAddr true)) (i2cStartCondition s) =
      .next (withReads r [x] s) := haddr
  rw [readClocks, runClocks_append, runClocks_append, runClocks_append, runClocks_restartClocks hs h0, andThen_next,
    haddr, andThen_next, Nat.add_sub_cancel, hbytes]
  exact hstop

theorem writeClocks_eq (c : Config) (bs : List Byte) :
    writeClocks c bs =
      (startClocks ++ writeByteClocks (addressByte c.i2cAddr false)) ++ bs.flatMap writeByteClocks := by
  simp [writeClocks]

/-- A load command sets the window and leaves the engine at the next byte (44 R245 to R249). -/
theorem runClocks_loadCommand {s : State} {c : Byte} {sel : ReadSel} {len : BitVec 5} (hs : s.i2c.state = .wrData)
    (h0 : s.i2c.bitcnt = 0#4) (hn : s.i2c.byteno = 0#5)
    (hload : ∀ q : State, q.shared = s.shared → applyI2c (decodeCommand c) q q = .next (loadCommand c sel len q q)) :
    ∃ r : I2cRegs, runClocks (writeByteClocks c) s =
        .next { s with i2c := r, win := { s.win with readSel := sel, readLen := len } } ∧
      r.state = .wrData ∧ r.bitcnt = 0#4 := by
  have hrow (v : Byte) : applyI2c (dataByteRow s c) (awaitingLastBit v s) (awaitingLastBit v s) =
      .next { s with
        i2c := { byteTaken c s.i2c with cmd := c }, win := { s.win with readSel := sel, readLen := len } } := by
    rw [dataByteRow, if_pos hn, hload (awaitingLastBit v s) rfl]
    simp [loadCommand, setAccept, setCommand, dataByteArrives, byteArrives, awaitingLastBit, byteTaken]
  exact ⟨_, runClocks_dataByte _ hs h0 hrow hs rfl rfl, rfl, rfl⟩

/-- A load command and the read of the bytes that its window gives. -/
theorem readTransaction_returns {s : State} {c : Byte} {sel : ReadSel} {len : BitVec 5} {l : List Byte}
    (hload : ∀ q : State, q.shared = s.shared → applyI2c (decodeCommand c) q q = .next (loadCommand c sel len q q))
    (hne : l ≠ []) (hlen : l.length ≤ 32)
    (hread : ∀ j (hj : j < l.length),
      readOut { s with win := { s.win with readSel := sel, readLen := len } } (BitVec.ofNat 5 j) = .ok l[j]) :
    ∃ t, readTransaction c l.length s = .next t ∧ SameCec s t ∧ t.shared = s.shared ∧
      t.win = { s.win with readSel := sel, readLen := len } ∧ t.i2c.state = .idle ∧ t.i2c.sdaOe = false ∧
      t.env = { s.env with readTrace := s.env.readTrace ++ l } := by
  obtain ⟨x, l, rfl⟩ := List.exists_cons_of_ne_nil hne
  rw [List.length_cons] at hlen
  obtain ⟨r, hstart, hst, hb, hn⟩ := runClocks_startWrite s
  obtain ⟨r', hcmd, hst', hb'⟩ := runClocks_loadCommand (s := { s with i2c := r }) hst hb hn hload
  obtain ⟨r'', hbytes, hidle, hsda⟩ := runClocks_readClocks
    (s := { s with i2c := r', win := { s.win with readSel := sel, readLen := len } }) hst' hb' (by omega) hread
  refine ⟨withReads r'' (x :: l) { s with i2c := r', win := { s.win with readSel := sel, readLen := len } }, ?_,
    ⟨rfl, rfl, rfl, rfl, rfl⟩, rfl, rfl, hidle, hsda, rfl⟩
  rw [readTransaction, writeClocks_eq, List.flatMap_singleton, runClocks_append, runClocks_append, hstart, andThen_next,
    hcmd, andThen_next, List.length_cons]
  exact hbytes

/-! ### The reading pseudo-instructions (30 R98) -/

theorem exec_readId (s : State) : exec .readId s = readTransaction codeLoadId 5 s := rfl
theorem exec_getAddr (s : State) : exec .getAddr s = readTransaction codeLoadAddr 1 s := rfl
theorem exec_getTaken (s : State) : exec .getTaken s = readTransaction codeLoadTaken 2 s := rfl
theorem exec_getLength (s : State) : exec .getLength s = readTransaction codeLoadLength 1 s := rfl
theorem exec_getBuffer (n : Nat) (s : State) : exec (.getBuffer n) s = readTransaction codeLoadBuffer n s := rfl

/-- Settles O56: the window of LOAD_ID gives ID_SEQ at each of its five indices. -/
theorem readIdReturnsTheSequence : Obligations.ReadIdReturnsTheSequence := by
  intro s hv
  obtain ⟨-, -, -, -, hid⟩ := valid_decided hv
  rw [exec_readId]
  refine readTransaction_returns (l := [0x49#8, 0x32#8, 0x43#8, 0x45#8, 0x43#8]) (fun _ _ => rfl) (by simp) (by simp)
    fun j hj => ?_
  simp only [List.length_cons, List.length_nil] at hj
  interval_cases j <;> simp [readOut, hid]

/-- Settles O57: three windows of one or two bytes. -/
theorem gettersReturnTheirRegister : Obligations.GettersReturnTheirRegister := by
  intro s
  rw [exec_getAddr, exec_getTaken, exec_getLength]
  refine ⟨readTransaction_returns (l := [_]) (fun _ _ => rfl) (by simp) (by simp) fun j hj => ?_,
    readTransaction_returns (l := [_, _]) (fun _ _ => rfl) (by simp) (by simp) fun j hj => ?_,
    readTransaction_returns (l := [_]) (fun _ _ => rfl) (by simp) (by simp) fun j hj => ?_⟩
  all_goals
    simp only [List.length_cons, List.length_nil] at hj
    interval_cases j
    all_goals simp [readOut]

/-- What the window of LOAD_BUFFER gives at an index. -/
theorem readOut_buffer {s : State} (hsel : s.win.readSel = .buffer) (hcap : s.cfg.bufCap = 16)
    (hlen : s.win.readLen.toNat ≤ 16) {j : Nat} (hj : j < 32) :
    readOut s (BitVec.ofNat 5 j) = .ok (if j < s.win.readLen.toNat then readMem s.shared.buf j else 0xFF#8) := by
  have hj5 : (BitVec.ofNat 5 j).toNat = j := by rw [BitVec.toNat_ofNat]; omega
  split
  next h =>
    have hj4 : ((BitVec.ofNat 5 j).setWidth 4).toNat = j := by rw [BitVec.toNat_setWidth, hj5]; omega
    have hj16 : j < 16 := by omega
    simp only [readOut, hj5, Nat.not_le.2 h, if_false, hsel, hcap, hj16, if_true, bufRead, hj4]
  next h => exact readOut_outside (by rw [hj5]; exact Nat.not_lt.1 h)

/-- Settles O58: the window of LOAD_BUFFER is as long as LENGTH. -/
theorem getBufferReturnsTheMessage : Obligations.GetBufferReturnsTheMessage := by
  intro s n l hv h1 h16 hlen hl
  obtain ⟨-, -, hcap, -⟩ := valid_decided hv
  have hn : l.length = n := by simp [hl]
  rw [exec_getBuffer, ← hn]
  refine readTransaction_returns (fun q hq => by rw [← hq]; rfl) (List.ne_nil_of_length_pos (by omega)) (by omega)
    fun j hj => ?_
  refine (readOut_buffer (s := { s with win := { s.win with readSel := .buffer, readLen := s.shared.length } })
    rfl hcap hlen (by omega)).trans ?_
  simp [hl]

end Sys2Proof.Machine
end

section
/-! SUPPORT. The writing pseudo-instructions: an action's command byte, its payload bytes, and what they leave (30 R98,
44 R242, R243, R251 to R255; log 8). -/

namespace Sys2Proof.Machine

/-! ### A write transaction with an action -/

/-- The engine waits for payload byte number `n` of the action `c` (44 R243). -/
structure AtPayload (c : Byte) (n : BitVec 5) (r : I2cRegs) : Prop where
  state : r.state = .wrData
  bitcnt : r.bitcnt = 0#4
  cmd : r.cmd = c
  byteno : r.byteno = n

/-- An action's command byte is ACKed and changes nothing but the I2C engine (44 R244). -/
theorem runClocks_actionCommand {s : State} {c : Byte} (hc : isAction c = true) (hs : s.i2c.state = .wrData)
    (h0 : s.i2c.bitcnt = 0#4) (hn : s.i2c.byteno = 0#5) :
    ∃ r : I2cRegs, runClocks (writeByteClocks c) s = .next { s with i2c := r } ∧ AtPayload c 1#5 r := by
  have hcmd (q : State) : applyI2c (decodeCommand c) q q = .next (actionCommandByte c q q) := by
    rcases (isAction_iff c).1 hc with rfl | rfl | rfl | rfl | rfl <;> rfl
  have hrow (v : Byte) : applyI2c (dataByteRow s c) (awaitingLastBit v s) (awaitingLastBit v s) =
      .next { s with i2c := { byteTaken c s.i2c with cmd := c } } := by
    rw [dataByteRow, if_pos hn, hcmd]
    simp [actionCommandByte, setAccept, setCommand, dataByteArrives, byteArrives, awaitingLastBit, byteTaken]
  exact ⟨_, runClocks_dataByte { s with i2c := { byteTaken c s.i2c with cmd := c } } hs h0 hrow hs rfl rfl,
    ⟨rfl, rfl, rfl, congrArg satInc hn⟩⟩

/-- A payload byte that its action ACKs: `u` is what it leaves outside the I2C engine (44 R243). -/
theorem runClocks_payloadByte {s u : State} {c p : Byte} {n : BitVec 5} (h : AtPayload c n s.i2c) (hn : n ≠ 0#5)
    (hrow : ∀ v, applyPayloadByte p (awaitingLastBit v s) (awaitingLastBit v s) =
      .next { u with i2c := byteTaken p s.i2c }) :
    ∃ r : I2cRegs, runClocks (writeByteClocks p) s = .next { u with i2c := r } ∧ AtPayload c (satInc n) r := by
  have hrow' (v : Byte) : applyI2c (dataByteRow s p) (awaitingLastBit v s) (awaitingLastBit v s) =
      .next { u with i2c := byteTaken p s.i2c } := by
    rw [dataByteRow, if_neg (h.byteno ▸ hn)]
    exact (applyI2c_decodePayload p (awaitingLastBit v s) _).trans (hrow v)
  exact ⟨_, runClocks_dataByte { u with i2c := byteTaken p s.i2c } h.state h.bitcnt hrow' h.state rfl rfl,
    ⟨rfl, rfl, h.cmd, congrArg satInc h.byteno⟩⟩

/-- `S W(x) c`, payload bytes that leave `u`, and `P`. -/
theorem writeTransaction_action {s u : State} {c : Byte} {ps : List Byte} (hc : isAction c = true)
    (hps : ∀ r, AtPayload c 1#5 r → ∃ r' n, runClocks (ps.flatMap writeByteClocks) { s with i2c := r } =
      .next { u with i2c := r' } ∧ AtPayload c n r') :
    ∃ r : I2cRegs, writeTransaction (c :: ps) s = .next { u with i2c := r } ∧ r.state = .idle ∧ r.sdaOe = false := by
  obtain ⟨r, hstart, hst, hb, hn⟩ := runClocks_startWrite s
  obtain ⟨r', hcmd, hat⟩ := runClocks_actionCommand (s := { s with i2c := r }) hc hst hb hn
  obtain ⟨r'', n, hpay, hat'⟩ := hps r' hat
  obtain ⟨r''', hstop, hend⟩ := runClocks_stopClocks (s := { u with i2c := r'' }) (.inl ⟨hat'.state, hat'.bitcnt⟩)
  refine ⟨r''', ?_, hend⟩
  rw [writeTransaction, writeClocks_eq, List.flatMap_cons, runClocks_append, runClocks_append, hstart, andThen_next,
    runClocks_append, hcmd, andThen_next, hpay, andThen_next]
  exact hstop

/-- `S W(x) c p P`: an action that takes effect at its first payload byte. -/
theorem writeTransaction_onePayload {s u : State} {c p : Byte} (hc : isAction c = true)
    (hrow : ∀ r, AtPayload c 1#5 r → ∀ v, applyPayloadByte p (awaitingLastBit v { s with i2c := r })
      (awaitingLastBit v { s with i2c := r }) = .next { u with i2c := byteTaken p r }) :
    ∃ r : I2cRegs, writeTransaction [c, p] s = .next { u with i2c := r } ∧ r.state = .idle ∧ r.sdaOe = false := by
  refine writeTransaction_action hc fun r hr => ?_
  obtain ⟨r', hrun, hat⟩ := runClocks_payloadByte (s := { s with i2c := r }) hr (by decide) (hrow r hr)
  exact ⟨r', _, by rwa [List.flatMap_singleton], hat⟩

/-! ### The effects of the actions -/

section

variable {q : State} (p : Byte)

theorem applyPayloadByte_stage (hc : q.i2c.cmd = codeStage) : applyPayloadByte p q q = stagePayload p q q := by
  simp only [applyPayloadByte, hc, if_true]
theorem applyPayloadByte_setAddr (hc : q.i2c.cmd = codeSetAddr) (hn : q.i2c.byteno = 1#5) :
    applyPayloadByte p q q = setAddrPayload p q q := by
  simp only [applyPayloadByte, hc, hn, if_true]
  rfl
theorem applyPayloadByte_cecSend (hc : q.i2c.cmd = codeCecSend) (hn : q.i2c.byteno = 1#5) :
    applyPayloadByte p q q = cecSendPayload p q q := by
  simp only [applyPayloadByte, hc, hn, if_true]
  rfl
theorem applyPayloadByte_monitorToggle (hc : q.i2c.cmd = codeMonitorToggle) (hn : q.i2c.byteno = 1#5) :
    applyPayloadByte p q q = monitorTogglePayload p q q := by
  simp only [applyPayloadByte, hc, hn, if_true]
  rfl
theorem applyPayloadByte_softReset (hc : q.i2c.cmd = codeSoftReset) (hn : q.i2c.byteno = 1#5) :
    applyPayloadByte p q q = softResetPayload p q q := by
  simp only [applyPayloadByte, hc, hn, if_true]
  rfl

/-- An ACKed payload byte writes the I2C engine's registers alone, whatever bits were in before it (43 R203, R208). -/
theorem setAccept_dataByteArrives (v : Byte) (s : State) :
    setAccept true (dataByteArrives p (awaitingLastBit v s) (awaitingLastBit v s)) =
      { s with i2c := byteTaken p s.i2c } := by
  simp [setAccept, dataByteArrives, byteArrives, awaitingLastBit, byteTaken]

end

/-- Every register below 0x20 but FLAGS takes its reset value: 0xF in CEC_ADDR and else 0 (70 R330, 44 R255). -/
theorem registerById_softReset {s t : State} {r : I2cRegs} {id i v : Nat}
    (ht : t = { softResetRegisters s with i2c := r }) (hid : id < 0x20) (hflags : id ≠ 0x0C)
    (hv : registerById t id i = some v) : v = if id = 0x00 then 0xF else 0 := by
  subst ht
  interval_cases id <;>
    simp [registerById, softResetRegisters, State.resetWith, readSelCode, cecStateCode, bitNat, unlistedByte]
      at hv hflags ⊢ <;>
    omega

/-- Settles O59: each action takes effect at its payload byte. -/
theorem actionTransactionsTakeEffect : Obligations.ActionTransactionsTakeEffect := by
  intro s
  refine ⟨fun a => ?_, ?_, ?_⟩
  · obtain ⟨r, hrun, hidle, hsda⟩ := writeTransaction_onePayload (s := s) (c := codeSetAddr) (p := 0#4 ++ a)
      (u := { s with shared := { s.shared with cecAddr := a } }) rfl fun r hr v => by
        rw [applyPayloadByte_setAddr _ hr.cmd hr.byteno, setAddrPayload, setAccept_dataByteArrives, lowNibble_append]
    exact ⟨_, hrun, ⟨rfl, rfl, rfl, rfl, rfl⟩, rfl, rfl, rfl, hidle, hsda⟩
  · obtain ⟨r, hrun, hidle, hsda⟩ := writeTransaction_onePayload (s := s) (c := codeMonitorToggle) (p := 0x00#8)
      (u := { s with shared := { s.shared with monitor := !s.shared.monitor } }) rfl fun r hr v => by
        rw [applyPayloadByte_monitorToggle _ hr.cmd hr.byteno, monitorTogglePayload, setAccept_dataByteArrives]
        rfl
    exact ⟨_, hrun, ⟨rfl, rfl, rfl, rfl, rfl⟩, rfl, rfl, rfl, hidle, hsda⟩
  · obtain ⟨r, hrun, hidle, hsda⟩ := writeTransaction_onePayload (s := s) (c := codeSoftReset) (p := 0x00#8)
      (u := softResetRegisters s) rfl fun r hr v => by
        rw [applyPayloadByte_softReset _ hr.cmd hr.byteno, softResetPayload]
        simp [softResetRegisters, setAccept, dataByteArrives, byteArrives, awaitingLastBit, byteTaken]
    exact ⟨_, hrun, rfl, rfl, rfl, hidle, hsda, fun id i v h h' hv => registerById_softReset rfl h h' hv⟩

/-! ### Staged bytes (44 R252) -/

/-- These bytes written at `k` and the places after it. -/
def writeBytes : Nat → List Byte → Memory → Memory
  | _, [], m => m
  | k, b :: bs, m => writeBytes (k + 1) bs (writeMem m k b)

/-- What is written reads back, and every other byte is as it was. -/
theorem readMem_writeBytes (bs : List Byte) : ∀ {m : Memory} {k : Nat}, Memory.wf m = true → k + bs.length ≤ bufSize →
    ∀ a, readMem (writeBytes k bs m) a = if k ≤ a ∧ a < k + bs.length then bs.getD (a - k) 0x00#8 else readMem m a := by
  induction bs with
  | nil =>
    intro m k _ _ a
    rw [if_neg (by simp)]
    rfl
  | cons b bs ih =>
    intro m k hm hk a
    rw [List.length_cons] at hk
    rw [writeBytes, ih (wf_writeMem hm (by omega) b) (by omega), List.length_cons]
    by_cases ha : a = k
    · subst ha
      rw [if_neg (by omega), if_pos (by omega), readMem_writeMem_same hm, Nat.sub_self]
      rfl
    · rw [readMem_writeMem_ne m b ha]
      by_cases hin : k + 1 ≤ a ∧ a < k + 1 + bs.length
      · obtain ⟨d, rfl⟩ : ∃ d, a = k + 1 + d := ⟨a - (k + 1), by omega⟩
        rw [if_pos hin, if_pos (by omega), Nat.add_sub_cancel_left, show k + 1 + d - k = d + 1 by omega]
        rfl
      · rw [if_neg hin, if_neg (by omega)]

/-- What STAGE leaves of the bytes `bs` from place `k` on. -/
def staged (k : Nat) (bs : List Byte) (s : State) : State :=
  { s with
    shared := { s.shared with buf := writeBytes k bs s.shared.buf, length := BitVec.ofNat 5 (k + bs.length) }
    win := { s.win with wrIdx := BitVec.ofNat 5 (k + bs.length) } }

theorem staged_cons (k : Nat) (b b' : Byte) (bs : List Byte) (s : State) (r r' : I2cRegs) :
    { staged (k + 1) (b' :: bs) { staged k [b] s with i2c := r } with i2c := r' } =
      { staged k (b :: b' :: bs) s with i2c := r' } := by
  have hlen : k + 1 + (bs.length + 1) = k + (bs.length + 1 + 1) := by omega
  simp [staged, writeBytes, hlen]

/-- STAGE accepts a byte that BUF has a place for, while the receiver does not own BUF. -/
theorem stagePayload_accepted {s : State} (b v : Byte) (hkeep : s.cec.keep = false)
    (hfits : stageFits s.cfg s.i2c.byteno = true) :
    stagePayload b (awaitingLastBit v s) (awaitingLastBit v s) = .next { s with
      shared := { s.shared with
        buf := writeMem s.shared.buf ((s.i2c.byteno - 1).setWidth 4).toNat b, length := s.i2c.byteno }
      win := { s.win with wrIdx := s.i2c.byteno }
      i2c := byteTaken b s.i2c } := by
  simp [stagePayload, awaitingLastBit, hkeep, hfits, setAccept, bufWrite, dataByteArrives, byteArrives, byteTaken]

/-- One payload byte of STAGE. -/
theorem runClocks_stageByte {s : State} {k : Nat} (b : Byte) (hcap : s.cfg.bufCap = 16) (hkeep : s.cec.keep = false)
    (hk : k < 16) (h : AtPayload codeStage (BitVec.ofNat 5 (k + 1)) s.i2c) :
    ∃ r : I2cRegs, runClocks (writeByteClocks b) s = .next { staged k [b] s with i2c := r } ∧
      AtPayload codeStage (BitVec.ofNat 5 (k + 2)) r := by
  have hn : (BitVec.ofNat 5 (k + 1)).toNat = k + 1 := by rw [BitVec.toNat_ofNat]; omega
  have hfits : stageFits s.cfg s.i2c.byteno = true := by
    rw [h.byteno, stageFits, hn, hcap, Bool.and_eq_true, Nat.ble_eq, Nat.ble_eq]
    omega
  have hplace : ((BitVec.ofNat 5 (k + 1) - 1).setWidth 4).toNat = k := by interval_cases k <;> rfl
  rw [← satInc_ofNat (by omega)]
  refine runClocks_payloadByte h (fun h0 => by rw [h0] at hn; simp at hn) fun v => ?_
  rw [applyPayloadByte_stage (q := awaitingLastBit v s) _ h.cmd, stagePayload_accepted b v hkeep hfits, h.byteno, hplace]
  rfl

theorem runClocks_stageBytes (bs : List Byte) : ∀ {s : State} {k : Nat} (b : Byte), s.cfg.bufCap = 16 →
    s.cec.keep = false → k + bs.length < 16 → AtPayload codeStage (BitVec.ofNat 5 (k + 1)) s.i2c →
    ∃ r n, runClocks ((b :: bs).flatMap writeByteClocks) s = .next { staged k (b :: bs) s with i2c := r } ∧
      AtPayload codeStage n r := by
  induction bs with
  | nil =>
    intro s k b hcap hkeep hk h
    obtain ⟨r, hrun, hat⟩ := runClocks_stageByte b hcap hkeep hk h
    exact ⟨r, _, by rwa [List.flatMap_singleton], hat⟩
  | cons b' bs ih =>
    intro s k b hcap hkeep hk h
    rw [List.length_cons] at hk
    obtain ⟨r, hrun, hat⟩ := runClocks_stageByte b hcap hkeep (by omega) h
    obtain ⟨r', n, hrest, hat'⟩ := ih (s := { staged k [b] s with i2c := r }) (k := k + 1) b' hcap hkeep (by omega) hat
    refine ⟨r', n, ?_, hat'⟩
    rw [List.flatMap_cons, runClocks_append, hrun, andThen_next, hrest, staged_cons]

/-- `SEND`'s first transaction stages the bytes (44 R252). -/
theorem writeTransaction_stage {s : State} {bs : List Byte} (hcap : s.cfg.bufCap = 16) (hkeep : s.cec.keep = false)
    (h1 : 1 ≤ bs.length) (h16 : bs.length ≤ 16) :
    ∃ r : I2cRegs, writeTransaction (codeStage :: bs) s = .next { staged 0 bs s with i2c := r } ∧
      r.state = .idle ∧ r.sdaOe = false := by
  obtain ⟨b, bs, rfl⟩ := List.exists_cons_of_length_pos h1
  exact writeTransaction_action rfl fun r hr =>
    runClocks_stageBytes bs (s := { s with i2c := r }) (k := 0) b hcap hkeep (by simpa using h16) hr

/-- Its second one requests the transmission, which is accepted when none is pending, the receiver does not own BUF
and there is a message (44 R253). -/
theorem writeTransaction_cecSend {s : State} (hok : sendRefused s = false) :
    ∃ r : I2cRegs, writeTransaction [codeCecSend, 0x00#8] s = .next { s with
        tx := { s.tx with buf := s.shared.buf, len := s.shared.length, pending := true, retry := 0#8 }, i2c := r } ∧
      r.state = .idle ∧ r.sdaOe = false :=
  writeTransaction_onePayload
    (u := { s with tx := { s.tx with buf := s.shared.buf, len := s.shared.length, pending := true, retry := 0#8 } }) rfl
    fun r hr v => by
      have hok' : sendRefused (awaitingLastBit v { s with i2c := r }) = false := hok
      rw [applyPayloadByte_cecSend _ hr.cmd hr.byteno, cecSendPayload, hok']
      simp [awaitingLastBit, setAccept, dataByteArrives, byteArrives, byteTaken]

/-- PING a is SEND of the one byte a‖a (30 R98). -/
theorem exec_send_or_ping {bs : List Byte} {i : Instr} (hi : i = .send bs ∨ ∃ a : BitVec 4, i = .pingA a ∧ bs = [a ++ a])
    (s : State) : exec i s = sendTransactions bs s := by
  obtain rfl | ⟨a, rfl, rfl⟩ := hi <;> rfl

/-- Settles O60: the staged message is not empty, so its transmission is accepted. -/
theorem sendStagesAndRequests : Obligations.SendStagesAndRequests := by
  intro s bs i hi hv hwf hkeep hpend h1 h16
  obtain ⟨-, -, hcap, -⟩ := valid_decided hv
  obtain ⟨r, hstage, -⟩ := writeTransaction_stage hcap hkeep h1 h16
  have hlen : BitVec.ofNat 5 (0 + bs.length) ≠ 0#5 := fun h => by
    have := congrArg BitVec.toNat h
    rw [BitVec.toNat_ofNat, BitVec.toNat_ofNat] at this
    omega
  obtain ⟨r', hsend, hidle, hsda⟩ := writeTransaction_cecSend (s := { staged 0 bs s with i2c := r })
    (by simpa [sendRefused, staged, hpend, hkeep] using hlen)
  rw [exec_send_or_ping hi, sendTransactions, hstage, andThen_next, hsend]
  refine ⟨_, rfl, rfl, rfl, rfl, rfl, rfl, ?_, fun a => ?_, ?_, ?_, hidle, hsda⟩
  · simp [staged]
  · simpa [staged] using readMem_writeBytes bs (k := 0) hwf (by simpa [bufSize] using h16) a
  · simp [staged]
  · simp [staged]

end Sys2Proof.Machine
end

section
/-! SUPPORT. A received block bit by bit: seven bits that are only shifted in, the bit that completes the byte, and the
EOM and ACK bits (41 R143 to R151; log 7). -/

namespace Sys2Proof.Machine

/-! ### One bit, by its place in the block -/

/-- TAKEN after the EOM bit `b`: the block's own address is recorded in a ping of it (41 R148). -/
def takenAfterEom (b : Bool) (s : State) : BitVec 16 :=
  if s.cec.state = .rxWho ∧ b = true ∧ destinationOf s.cec.shift = s.shared.cecAddr then
    orTaken s.shared.taken s.shared.cecAddr
  else s.shared.taken

/-- The CEC engine after the ACK bit of a block (41 R149). -/
def blockEnded (last : Bool) (r : CecRegs) : CecRegs :=
  if r.eom then { r with lastbit := last, ackpend := false, state := .idle, keep := false, own := false }
  else { r with lastbit := last, ackpend := false, state := .rxData, blk := r.blk + 1, bit := 0#4 }

/-- The state in which the last data bit of a block comes. -/
def awaitingBit7 (v : Byte) (last : Bool) (tm : Timer) (s : State) : State :=
  { s with timer := tm, cec := { s.cec with lastbit := last, shift := v, bit := 7#4 } }

section

variable {s : State} (hv : s.cfg.Valid) (hs : s.cec.state.Receiving) (hd : s.cec.ackdrv = false)
include hv hs hd

/-- Outside the ACK slot of an owned block a bit is what `receiveBit` makes of it. -/
theorem receiveSymbol_of_not_ackSlot (ha : opensAck s = false) (b : Bool) :
    receiveSymbol b s =
      .next (receiveBit b s { s with timer := { t := 0#16, pre := 0#16 }, cec := { s.cec with lastbit := b } }) := by
  rw [receiveSymbol_frame hv hs ha hd b]
  rfl

theorem receiveSymbol_of_bit_ne (h9 : s.cec.bit ≠ 9#4) (b : Bool) :
    receiveSymbol b s =
      .next (receiveBit b s { s with timer := { t := 0#16, pre := 0#16 }, cec := { s.cec with lastbit := b } }) :=
  receiveSymbol_of_not_ackSlot hv hs hd (by simp [opensAck, h9]) b

/-- Bits 0 to 6 (41 R143). -/
theorem receiveSymbol_dataBit (hn : s.cec.bit.toNat < 7) (b : Bool) :
    receiveSymbol b s = .next { s with
      timer := { t := 0#16, pre := 0#16 }
      cec := { s.cec with lastbit := b, shift := shiftIn s.cec.shift b, bit := s.cec.bit + 1 } } := by
  rw [receiveSymbol_of_bit_ne hv hs hd (fun h => by simp [h] at hn), receiveBit, if_pos hn]

/-- Bit 8, which is stored in CEC_EOM and may complete a ping (41 R143, R148). -/
theorem receiveSymbol_eomBit (h8 : s.cec.bit = 8#4) (b : Bool) :
    receiveSymbol b s = .next { s with
      timer := { t := 0#16, pre := 0#16 }
      cec := { s.cec with lastbit := b, eom := b, bit := 9#4 }
      shared := { s.shared with taken := takenAfterEom b s } } := by
  rw [receiveSymbol_of_bit_ne hv hs hd (by simp [h8])]
  simp only [receiveBit, h8, pingCheck, takenAfterEom, Bool.and_eq_true, beq_iff_eq, and_assoc]
  split_ifs <;> simp_all

/-- Bit 9, whether this block drives its ACK or not (41 R149, R151). -/
theorem receiveSymbol_ackBit (h9 : s.cec.bit = 9#4) (ho : s.cec.oe = false) (b : Bool) :
    ∃ last, receiveSymbol b s =
      .next { s with timer := { t := 0#16, pre := 0#16 }, cec := blockEnded last s.cec } := by
  cases ha : s.cec.ackpend with
  | false =>
    refine ⟨b, ?_⟩
    rw [receiveSymbol_of_not_ackSlot hv hs hd (by simp [opensAck, ha])]
    simp only [receiveBit, h9, blockEnd, blockEnded]
    cases s.cec.eom <;> simp [ha]
  | true =>
    refine ⟨false, ?_⟩
    obtain ⟨q, hq, hqs⟩ := receiveSymbol_ackSlot hv hs (by simp [opensAck, ha, h9]) b
    rw [hq, hqs]
    simp only [receiveBit, h9, blockEnd, blockEnded, clearTimer]
    cases s.cec.eom <;> simp [ho, hd]

/-- The EOM and the ACK bit. -/
theorem feed_endOfBlock (h8 : s.cec.bit = 8#4) (ho : s.cec.oe = false) (eom ack : Bool) :
    ∃ last, feed receiveSymbol [eom, ack] s = .next { s with
      timer := { t := 0#16, pre := 0#16 }
      cec := blockEnded last { s.cec with eom := eom, bit := 9#4 }
      shared := { s.shared with taken := takenAfterEom eom s } } := by
  obtain ⟨last, hack⟩ := receiveSymbol_ackBit (s := { s with
      timer := { t := 0#16, pre := 0#16 }
      cec := { s.cec with lastbit := eom, eom := eom, bit := 9#4 }
      shared := { s.shared with taken := takenAfterEom eom s } }) hv hs hd rfl ho ack
  refine ⟨last, ?_⟩
  rw [feed_cons, receiveSymbol_eomBit hv hs hd h8, andThen_next, feed_cons, hack, andThen_next, feed_nil]
  rfl

/-- The first bits of a block. -/
theorem feed_dataBits (l : List Bool) (hl : s.cec.bit.toNat + l.length ≤ 7) :
    ∃ tm last, feed receiveSymbol l s = .next { s with
      timer := tm
      cec := { s.cec with
        lastbit := last, shift := l.foldl shiftIn s.cec.shift, bit := s.cec.bit + BitVec.ofNat 4 l.length } } := by
  induction l generalizing s with
  | nil => exact ⟨s.timer, s.cec.lastbit, by simp⟩
  | cons b l ih =>
    rw [List.length_cons] at hl
    have hb : (s.cec.bit + 1).toNat = s.cec.bit.toNat + 1 := bit_add_one (by omega)
    obtain ⟨tm, last, hrest⟩ := ih (s := { s with
      timer := { t := 0#16, pre := 0#16 }
      cec := { s.cec with lastbit := b, shift := shiftIn s.cec.shift b, bit := s.cec.bit + 1 } }) hv hs hd
      (by show (s.cec.bit + 1).toNat + l.length ≤ 7; omega)
    refine ⟨tm, last, ?_⟩
    rw [feed_cons, receiveSymbol_dataBit hv hs hd (by omega), andThen_next, hrest]
    have : s.cec.bit + 1 + BitVec.ofNat 4 l.length = s.cec.bit + BitVec.ofNat 4 (l.length + 1) := by
      rw [BitVec.ofNat_add, BitVec.add_assoc, BitVec.add_comm 1]
      rfl
    simp only [this, List.foldl_cons, List.length_cons]

/-- A block is its last data bit, in a state that holds the other seven, and the EOM and ACK bits. -/
theorem receiveBlock_eq (h0 : s.cec.bit = 0#4) (d : Byte) (eom ack : Bool) :
    ∃ v last tm, shiftIn v (d.getLsbD 0) = d ∧
      receiveBlock d eom ack s =
        andThen (receiveSymbol (d.getLsbD 0) (awaitingBit7 v last tm s)) (feed receiveSymbol [eom, ack]) := by
  obtain ⟨tm, last, hrun⟩ := feed_dataBits hv hs hd
    [d.getLsbD 7, d.getLsbD 6, d.getLsbD 5, d.getLsbD 4, d.getLsbD 3, d.getLsbD 2, d.getLsbD 1] (by simp [h0])
  refine ⟨_, last, tm, shiftIn_seven s.cec.shift d, ?_⟩
  have hbits : blockBits d eom ack =
      [d.getLsbD 7, d.getLsbD 6, d.getLsbD 5, d.getLsbD 4, d.getLsbD 3, d.getLsbD 2, d.getLsbD 1] ++
        [d.getLsbD 0, eom, ack] := rfl
  rw [receiveBlock, hbits, feed_append, hrun, andThen_next, feed_cons, h0]
  rfl

end

/-! ### The bit that completes the byte (41 R144 to R147) -/

section

variable {s : State} (hv : s.cfg.Valid) (hd : s.cec.ackdrv = false) (h7 : s.cec.bit = 7#4) {b : Bool} {byte : Byte}
  (hb : shiftIn s.cec.shift b = byte)
include hv hd h7 hb

/-- A header that is kept goes to BUF[0] (41 R144 to R146). -/
theorem receiveSymbol_headerKept (hs : s.cec.state = .rxWho) (hk : isKept s (destinationOf byte) = true) :
    receiveSymbol b s = .next { s with
      timer := { t := 0#16, pre := 0#16 }
      shared := { s.shared with
        buf := writeMem s.shared.buf 0 byte, length := 1#5, taken := orTaken s.shared.taken (sourceOf byte) }
      cec := { s.cec with
        lastbit := b, shift := byte, bit := 8#4, keep := true, own := isOwned s (destinationOf byte)
        ackpend := isOwned s (destinationOf byte) } } := by
  rw [receiveSymbol_of_bit_ne hv (.inl hs) hd (by simp [h7]), receiveBit]
  simp [h7, hs, hb, headerDecide, hk, headerStore, bufWrite]

/-- Any other header is abandoned (41 R145). -/
theorem receiveSymbol_headerDropped (hs : s.cec.state = .rxWho) (hk : isKept s (destinationOf byte) = false) :
    receiveSymbol b s = .next { s with
      timer := { t := 0#16, pre := 0#16 }
      shared := { s.shared with taken := orTaken s.shared.taken (sourceOf byte) }
      cec := { s.cec with lastbit := b, shift := byte, state := .idle }
      env := { s.env with events := s.env.events ++ [.addrMismatch (destinationOf byte)] } } := by
  rw [receiveSymbol_of_bit_ne hv (.inl hs) hd (by simp [h7]), receiveBit]
  simp [h7, hs, hb, headerDecide, hk, emit]

/-- A data byte that BUF has a place for (41 R147). -/
theorem receiveSymbol_stored (hs : s.cec.state = .rxData) (hblk : s.cec.blk.toNat < 16) :
    receiveSymbol b s = .next { s with
      timer := { t := 0#16, pre := 0#16 }
      shared := { s.shared with buf := writeMem s.shared.buf s.cec.blk.toNat byte, length := s.cec.blk + 1 }
      cec := { s.cec with lastbit := b, shift := byte, bit := 8#4, ackpend := s.cec.own } } := by
  obtain ⟨-, -, hcap, -⟩ := valid_decided hv
  have hplace : s.cec.blk.toNat % 16 = s.cec.blk.toNat := Nat.mod_eq_of_lt hblk
  rw [receiveSymbol_of_bit_ne hv (.inr hs) hd (by simp [h7]), receiveBit]
  simp [h7, hs, hb, dataBlock, hcap, hblk, bufWrite, hplace]

/-- A 17th block (41 R147). -/
theorem receiveSymbol_overrun (hs : s.cec.state = .rxData) (hblk : ¬s.cec.blk.toNat < 16) :
    receiveSymbol b s = .next { s with
      timer := { t := 0#16, pre := 0#16 }
      cec := { s.cec with lastbit := b, shift := byte, state := .idle, keep := false, own := false, ackpend := false }
      env := { s.env with events := s.env.events ++ [.overrun s.cec.blk] } } := by
  obtain ⟨-, -, hcap, -⟩ := valid_decided hv
  rw [receiveSymbol_of_bit_ne hv (.inr hs) hd (by simp [h7]), receiveBit]
  simp [h7, hs, hb, dataBlock, hcap, hblk, emit]

end

/-- The EOM and ACK bits of a frame that has been abandoned (41 R141). -/
theorem feed_endOfBlock_idle {s : State} (hv : s.cfg.Valid) (hs : s.cec.state = .idle) (hd : s.cec.ackdrv = false)
    (eom ack : Bool) :
    feed receiveSymbol [eom, ack] s = .next { s with timer := { t := 0#16, pre := 0#16 } } := by
  rw [feed_cons, receiveSymbol_idle hv hs hd, andThen_next, feed_cons, receiveSymbol_idle (s := clearTimer s) hv hs hd]
  rfl

/-- A valid configuration's kept and owned frames (41 R145). -/
theorem isOwned_iff {s : State} (hv : s.cfg.Valid) (dst : BitVec 4) :
    isOwned s dst = true ↔ dst ≠ 0xF#4 ∧ dst = s.shared.cecAddr := by
  obtain ⟨-, -, -, hbcast, -⟩ := valid_decided hv
  simp [isOwned, isBroadcast, hbcast]

theorem isKept_iff {s : State} (hv : s.cfg.Valid) (dst : BitVec 4) :
    isKept s dst = true ↔ dst = 0xF#4 ∨ dst = s.shared.cecAddr ∨ s.shared.monitor = true := by
  obtain ⟨-, -, -, hbcast, -⟩ := valid_decided hv
  simp only [isKept, isOwned, isBroadcast, hbcast, Bool.or_eq_true, Bool.and_eq_true, Bool.not_eq_true', beq_iff_eq,
    beq_eq_false_iff_ne]
  tauto

/-! ### Whole blocks (41 R143 to R151) -/

section

variable {s : State} (hv : s.cfg.Valid) (hd : s.cec.ackdrv = false) (h0 : s.cec.bit = 0#4)
include hv hd h0

/-- A header block that is kept. -/
theorem receiveBlock_headerKept (hs : s.cec.state = .rxWho) (ho : s.cec.oe = false) (byte : Byte) (eom ack : Bool)
    (hk : isKept s (destinationOf byte) = true) :
    ∃ last, receiveBlock byte eom ack s = .next { s with
      timer := { t := 0#16, pre := 0#16 }
      shared := { s.shared with
        buf := writeMem s.shared.buf 0 byte, length := 1#5
        taken :=
          if eom = true ∧ destinationOf byte = s.shared.cecAddr then
            orTaken (orTaken s.shared.taken (sourceOf byte)) s.shared.cecAddr
          else orTaken s.shared.taken (sourceOf byte) }
      cec := blockEnded last { s.cec with
        shift := byte, bit := 9#4, eom := eom, keep := true, own := isOwned s (destinationOf byte)
        ackpend := isOwned s (destinationOf byte) } } := by
  obtain ⟨v, last, tm, hbyte, hrun⟩ := receiveBlock_eq hv (.inl hs) hd h0 byte eom ack
  rw [hrun, receiveSymbol_headerKept (s := awaitingBit7 v last tm s) hv hd rfl hbyte hs hk, andThen_next]
  obtain ⟨last', hend⟩ := feed_endOfBlock (s := { s with
      timer := { t := 0#16, pre := 0#16 }
      shared := { s.shared with
        buf := writeMem s.shared.buf 0 byte, length := 1#5, taken := orTaken s.shared.taken (sourceOf byte) }
      cec := { s.cec with
        lastbit := byte.getLsbD 0, shift := byte, bit := 8#4, keep := true, own := isOwned s (destinationOf byte)
        ackpend := isOwned s (destinationOf byte) } }) hv (.inl hs) hd rfl ho eom ack
  refine ⟨last', hend.trans ?_⟩
  simp [takenAfterEom, hs, blockEnded]

/-- A header block that is not kept. -/
theorem receiveBlock_headerDropped (hs : s.cec.state = .rxWho) (byte : Byte) (eom ack : Bool)
    (hk : isKept s (destinationOf byte) = false) :
    ∃ last, receiveBlock byte eom ack s = .next { s with
      timer := { t := 0#16, pre := 0#16 }
      shared := { s.shared with taken := orTaken s.shared.taken (sourceOf byte) }
      cec := { s.cec with lastbit := last, shift := byte, bit := 7#4, state := .idle }
      env := { s.env with events := s.env.events ++ [.addrMismatch (destinationOf byte)] } } := by
  obtain ⟨v, last, tm, hbyte, hrun⟩ := receiveBlock_eq hv (.inl hs) hd h0 byte eom ack
  refine ⟨byte.getLsbD 0, ?_⟩
  rw [hrun, receiveSymbol_headerDropped (s := awaitingBit7 v last tm s) hv hd rfl hbyte hs hk, andThen_next]
  refine feed_endOfBlock_idle ?_ ?_ ?_ eom ack
  exacts [hv, rfl, hd]

/-- A data block that BUF has a place for. -/
theorem receiveBlock_stored (hs : s.cec.state = .rxData) (ho : s.cec.oe = false) (byte : Byte) (eom ack : Bool)
    (hblk : s.cec.blk.toNat < 16) :
    ∃ last, receiveBlock byte eom ack s = .next { s with
      timer := { t := 0#16, pre := 0#16 }
      shared := { s.shared with buf := writeMem s.shared.buf s.cec.blk.toNat byte, length := s.cec.blk + 1 }
      cec := blockEnded last { s.cec with shift := byte, bit := 9#4, eom := eom, ackpend := s.cec.own } } := by
  obtain ⟨v, last, tm, hbyte, hrun⟩ := receiveBlock_eq hv (.inr hs) hd h0 byte eom ack
  rw [hrun, receiveSymbol_stored (s := awaitingBit7 v last tm s) hv hd rfl hbyte hs hblk, andThen_next]
  obtain ⟨last', hend⟩ := feed_endOfBlock (s := { s with
      timer := { t := 0#16, pre := 0#16 }
      shared := { s.shared with buf := writeMem s.shared.buf s.cec.blk.toNat byte, length := s.cec.blk + 1 }
      cec := { s.cec with lastbit := byte.getLsbD 0, shift := byte, bit := 8#4, ackpend := s.cec.own } })
    hv (.inr hs) hd rfl ho eom ack
  refine ⟨last', hend.trans ?_⟩
  simp [takenAfterEom, hs, blockEnded]

/-- A 17th block. -/
theorem receiveBlock_overrun (hs : s.cec.state = .rxData) (byte : Byte) (eom ack : Bool) (hblk : ¬s.cec.blk.toNat < 16) :
    ∃ last, receiveBlock byte eom ack s = .next { s with
      timer := { t := 0#16, pre := 0#16 }
      cec := { s.cec with
        lastbit := last, shift := byte, bit := 7#4, state := .idle, keep := false, own := false, ackpend := false }
      env := { s.env with events := s.env.events ++ [.overrun s.cec.blk] } } := by
  obtain ⟨v, last, tm, hbyte, hrun⟩ := receiveBlock_eq hv (.inr hs) hd h0 byte eom ack
  refine ⟨byte.getLsbD 0, ?_⟩
  rw [hrun, receiveSymbol_overrun (s := awaitingBit7 v last tm s) hv hd rfl hbyte hs hblk, andThen_next]
  refine feed_endOfBlock_idle ?_ ?_ ?_ eom ack
  exacts [hv, rfl, hd]

end

section

variable (last : Bool) (r : CecRegs)

@[simp] theorem blockEnded_ackpend : (blockEnded last r).ackpend = false := by unfold blockEnded; split <;> rfl
@[simp] theorem blockEnded_ackdrv : (blockEnded last r).ackdrv = r.ackdrv := by unfold blockEnded; split <;> rfl
@[simp] theorem blockEnded_oe : (blockEnded last r).oe = r.oe := by unfold blockEnded; split <;> rfl

end

/-- A read after a write (20 R60). -/
theorem readMem_writeMem {m : Memory} (h : Memory.wf m = true) (a : Nat) (v : Byte) (x : Nat) :
    readMem (writeMem m a v) x = if x = a then v else readMem m x := by
  split
  next hx => rw [hx, readMem_writeMem_same h]
  next hx => exact readMem_writeMem_ne m v hx

/-- At the start of a block no ACK is pending (10 R34). -/
theorem Inv.ackpend_eq_false {s : State} (hi : Inv s) (h0 : s.cec.bit = 0#4) : s.cec.ackpend = false :=
  Bool.eq_false_iff.2 fun h => by
    obtain ⟨-, h8 | h9⟩ := hi.ackpend h
    · exact absurd (h0.symm.trans h8) (by decide)
    · exact absurd (h0.symm.trans h9) (by decide)

theorem exec_header_or_ping {src dst : BitVec 4} {eom ack : Bool} {i : Instr}
    (hi : i = .cecHeaderBlock src dst eom ack ∨ (i = .cecPing dst ack ∧ src = dst ∧ eom = true)) (s : State) :
    exec i s = receiveBlock (headerByte src dst) eom ack s := by
  obtain rfl | ⟨rfl, rfl, rfl⟩ := hi <;> rfl

/-- Settles O48: a kept header or a dropped one. -/
theorem headerBlockIsReceived : Obligations.HeaderBlockIsReceived := by
  intro s src dst eom ack i hi hinv hs h0 hd ho
  have hpend := hinv.ackpend_eq_false h0
  rw [exec_header_or_ping hi]
  by_cases hk : dst = 0xF#4 ∨ dst = s.shared.cecAddr ∨ s.shared.monitor = true
  · obtain ⟨last, hrun⟩ := receiveBlock_headerKept hinv.valid hd h0 hs ho (headerByte src dst) eom ack
      (by rw [destinationOf_headerByte]; exact (isKept_iff hinv.valid dst).2 hk)
    refine ⟨_, hrun, ⟨rfl, rfl, rfl, rfl⟩, rfl, rfl, rfl, rfl, blockEnded_ackpend _ _, (blockEnded_ackdrv _ _).trans hd,
      (blockEnded_oe _ _).trans ho, ?_⟩
    rw [if_pos hk]
    refine ⟨rfl, rfl, readMem_writeMem hinv.bufWf 0 _, ?_, ?_⟩
    · rw [destinationOf_headerByte, sourceOf_headerByte]
      by_cases hping : eom = true ∧ dst = s.shared.cecAddr
      · rw [if_pos hping, if_pos hping, hping.2]
        rfl
      · rw [if_neg hping, if_neg hping, BitVec.or_zero]
        rfl
    · rw [destinationOf_headerByte]
      cases eom with
      | true => exact ⟨rfl, rfl, rfl⟩
      | false => exact ⟨rfl, congrArg (· + 1) (hinv.headerBlock hs), rfl, rfl, isOwned_iff hinv.valid dst⟩
  · obtain ⟨last, hrun⟩ := receiveBlock_headerDropped hinv.valid hd h0 hs (headerByte src dst) eom ack
      (by rw [destinationOf_headerByte]; exact Bool.eq_false_iff.2 (mt (isKept_iff hinv.valid dst).1 hk))
    refine ⟨_, hrun, ⟨rfl, rfl, rfl, rfl⟩, rfl, rfl, rfl, rfl, hpend, hd, ho, ?_⟩
    rw [if_neg hk]
    simp [orTaken]

/-- Settles O49: a block with a place in BUF or a 17th one. -/
theorem dataBlockIsReceived : Obligations.DataBlockIsReceived := by
  intro s d eom ack hinv hs h0 hd ho
  rw [show exec (.cecDataBlock d eom ack) s = receiveBlock d eom ack s from rfl]
  by_cases hblk : s.cec.blk.toNat < 16
  · obtain ⟨last, hrun⟩ := receiveBlock_stored hinv.valid hd h0 hs ho d eom ack hblk
    refine ⟨_, hrun, ⟨rfl, rfl, rfl, rfl⟩, rfl, rfl, rfl, blockEnded_ackpend _ _, (blockEnded_ackdrv _ _).trans hd,
      (blockEnded_oe _ _).trans ho, ?_⟩
    rw [if_pos hblk]
    refine ⟨rfl, blk_add_one hblk, readMem_writeMem hinv.bufWf _ d, ?_⟩
    cases eom with
    | true => exact ⟨rfl, rfl, rfl⟩
    | false => exact ⟨rfl, rfl, rfl, hinv.keep.2 (.inl hs), rfl⟩
  · obtain ⟨last, hrun⟩ := receiveBlock_overrun hinv.valid hd h0 hs d eom ack hblk
    refine ⟨_, hrun, ⟨rfl, rfl, rfl, rfl⟩, rfl, rfl, rfl, rfl, hd, ho, ?_⟩
    rw [if_neg hblk]
    exact ⟨rfl, rfl, rfl, rfl, rfl⟩

end Sys2Proof.Machine
end

section
/-! SUPPORT. A sent block bit by bit: the four instants of a bit period, a bit that the wire carries undisturbed, and
the ACK bit (40 R114, 42 R174 to R178; log 7). -/

namespace Sys2Proof.Machine

/-! ### The instants of a bit period (42 R170) -/

/-- How long the block pulls the line in a bit of this value (40 R114). -/
def lowTime (c : Config) (v : Bool) : Nat := if v then c.t1Low else c.t0Low

theorem txBitCycle_release {s : State} {v : Bool} (line : Bool) (hs : s.cec.state = .txBit)
    (hr : reach s (lowTime s.cfg v) = true) (a : State) : txBitCycle v line s a = .next (releaseCec a) := by
  have hr' : reach s (if v then s.cfg.t1Low else s.cfg.t0Low) = true := hr
  simp only [txBitCycle, hs, hr', if_true]

/-- Settles O51. -/
theorem bitsAreReleasedAtTheirLowTime : Obligations.BitsAreReleasedAtTheirLowTime := by
  intro s hs
  exact ⟨fun hr => txBitCycle_release (v := true) _ hs hr s, fun hr => txBitCycle_release (v := false) _ hs hr s⟩

/-- An instant of a bit period is one of the three at which something acts, or quiet. -/
theorem transmitInstant_eq {s : State} (hv : s.cfg.Valid) (hs : s.cec.state = .txBit) (w : Bool) {n : Nat} (hn : 1 ≤ n)
    (hn' : n ≤ 65536) :
    transmitInstant w n s =
      if n = lowTime s.cfg s.tx.v then .next (releaseCec (waitReach n s))
      else if n = s.cfg.tMid then
        .next (if s.cec.bit.toNat ≤ 8 then arbCheck s.tx.v (w && !s.cec.oe) (waitReach n s) (waitReach n s)
          else ackCheck (w && !s.cec.oe) (waitReach n s) (waitReach n s))
      else if n = s.cfg.tBit then nextBit (waitReach n s) (waitReach n s)
      else .next (waitReach n s) := by
  obtain ⟨-, -, -, -, -, -, hj, hj'⟩ := valid_bit_times hv
  simp only [transmitInstant, hs, txBitCycle, waitReach_cec, waitReach_tx, waitReach_cfg,
    reach_waitReach hn hn' hj hj', decide_eq_true_eq, Config.tSample, lowTime]
  rfl

section

variable {s : State} (hv : s.cfg.Valid) (hs : s.cec.state = .txBit) (w : Bool)
include hv hs

theorem transmitInstant_release {v : Bool} (hval : s.tx.v = v) :
    transmitInstant w (lowTime s.cfg v) s = .next (releaseCec (waitReach (lowTime s.cfg v) s)) := by
  obtain ⟨_, _, _, _, _, _, _, _⟩ := valid_bit_times hv
  have hlow : 1 ≤ lowTime s.cfg v ∧ lowTime s.cfg v ≤ 65536 := by
    unfold lowTime; split <;> omega
  rw [transmitInstant_eq hv hs w hlow.1 hlow.2, hval, if_pos rfl]

/-- The low time of the other value is no instant of this bit. -/
theorem transmitInstant_otherLow {v : Bool} (hval : s.tx.v = !v) :
    transmitInstant w (lowTime s.cfg v) s = .next (waitReach (lowTime s.cfg v) s) := by
  obtain ⟨_, _, _, _, _, _, _, _⟩ := valid_bit_times hv
  have hlow : 1 ≤ lowTime s.cfg v ∧ lowTime s.cfg v ≤ 65536 ∧ lowTime s.cfg v ≠ lowTime s.cfg (!v) ∧
      lowTime s.cfg v ≠ s.cfg.tMid ∧ lowTime s.cfg v ≠ s.cfg.tBit := by
    cases v <;> simp only [lowTime, Bool.not_true, Bool.not_false, Bool.false_eq_true, if_true, if_false] <;> omega
  obtain ⟨h1, h2, h3, h4, h5⟩ := hlow
  rw [transmitInstant_eq hv hs w h1 h2, hval, if_neg h3, if_neg h4, if_neg h5]

theorem transmitInstant_sample : transmitInstant w s.cfg.tMid s =
    .next (if s.cec.bit.toNat ≤ 8 then arbCheck s.tx.v (w && !s.cec.oe) (waitReach s.cfg.tMid s) (waitReach s.cfg.tMid s)
      else ackCheck (w && !s.cec.oe) (waitReach s.cfg.tMid s) (waitReach s.cfg.tMid s)) := by
  obtain ⟨_, _, _, _, _, _, _, _⟩ := valid_bit_times hv
  have hlow : s.cfg.tMid ≠ lowTime s.cfg s.tx.v := by
    unfold lowTime; split <;> omega
  rw [transmitInstant_eq hv hs w (by omega) (by omega), if_neg hlow, if_pos rfl]

/-- The read-back of a data or EOM bit that agrees (42 R176). -/
theorem transmitInstant_agrees (hbit : s.cec.bit.toNat ≤ 8) (hw : (w && !s.cec.oe) = s.tx.v) :
    transmitInstant w s.cfg.tMid s = .next (waitReach s.cfg.tMid s) := by
  rw [transmitInstant_sample hv hs, if_pos hbit, hw, arbCheck, bne_self_eq_false]
  rfl

theorem transmitInstant_end : transmitInstant w s.cfg.tBit s =
    nextBit (waitReach s.cfg.tBit s) (waitReach s.cfg.tBit s) := by
  obtain ⟨_, _, _, _, _, _, _, _⟩ := valid_bit_times hv
  have hlow : s.cfg.tBit ≠ lowTime s.cfg s.tx.v := by
    unfold lowTime; split <;> omega
  rw [transmitInstant_eq hv hs w (by omega) (by omega), if_neg hlow, if_neg (by omega), if_pos rfl]

/-- A data or EOM bit that the wire carries as it is sent releases the line and does nothing else up to the end of its
period. -/
theorem feed_undisturbedBit (hbit : s.cec.bit.toNat ≤ 8) (hw : s.tx.v = w) :
    ∃ tm, feed (transmitInstant w) [s.cfg.t1Low, s.cfg.tMid, s.cfg.t0Low] s =
      .next { s with timer := tm, cec := { s.cec with oe := false } } := by
  refine ⟨(waitReach s.cfg.t0Low s).timer, ?_⟩
  subst hw
  cases hval : s.tx.v with
  | true =>
    have hlow : transmitInstant true s.cfg.t1Low s = .next (releaseCec (waitReach s.cfg.t1Low s)) :=
      transmitInstant_release (v := true) hv hs true hval
    generalize hp : releaseCec (waitReach s.cfg.t1Low s) = p at hlow
    have hsample : transmitInstant true s.cfg.tMid p = .next (waitReach s.cfg.tMid p) := by
      subst hp
      exact transmitInstant_agrees (s := releaseCec (waitReach _ s)) hv hs true hbit hval.symm
    have hquiet : transmitInstant true s.cfg.t0Low (waitReach s.cfg.tMid p) =
        .next (waitReach s.cfg.t0Low (waitReach s.cfg.tMid p)) := by
      subst hp
      exact transmitInstant_otherLow (s := waitReach _ (releaseCec (waitReach _ s))) (v := false) hv hs true hval
    rw [feed_cons, hlow, andThen_next, feed_cons, hsample, andThen_next, feed_cons, hquiet, ← hp]
    rfl
  | false =>
    have hquiet : transmitInstant false s.cfg.t1Low s = .next (waitReach s.cfg.t1Low s) :=
      transmitInstant_otherLow (v := true) hv hs false hval
    have hsample : transmitInstant false s.cfg.tMid (waitReach s.cfg.t1Low s) =
        .next (waitReach s.cfg.tMid (waitReach s.cfg.t1Low s)) :=
      transmitInstant_agrees (s := waitReach s.cfg.t1Low s) hv hs false hbit hval.symm
    have hlow : transmitInstant false s.cfg.t0Low (waitReach s.cfg.tMid (waitReach s.cfg.t1Low s)) =
        .next (releaseCec (waitReach s.cfg.t0Low (waitReach s.cfg.tMid (waitReach s.cfg.t1Low s)))) :=
      transmitInstant_release (s := waitReach _ (waitReach _ s)) (v := false) hv hs false hval
    rw [feed_cons, hquiet, andThen_next, feed_cons, hsample, andThen_next, feed_cons, hlow]
    rfl

end

/-! ### A bit period (42 R174, R175) -/

/-- The value of bit `j` of block `k` of the transmission (42 R174). -/
def blockBit (s : State) (k j : Nat) : Bool :=
  if j ≤ 7 then (readMem s.tx.buf k).getLsbD (7 - j) else if j = 8 then decide (k + 1 = s.tx.len.toNat) else true

theorem txBitValue_eq {s : State} {k : Nat} (hk : k < s.cfg.bufCap) (j : Nat) :
    txBitValue s k j = .ok (blockBit s k j) := by
  simp only [txBitValue, blockBit, hk, if_true]
  split_ifs <;> rfl

/-- The value of bit `j` of the block CEC_BLK. -/
abbrev bitSent (s : State) (j : Nat) : Bool := blockBit s s.cec.blk.toNat j

/-- The state in which bit `j` of the block CEC_BLK is being sent. -/
def sendingBit (tm : Timer) (j : Nat) (s : State) : State :=
  { s with timer := tm, cec := { s.cec with bit := BitVec.ofNat 4 j, oe := true }, tx := { s.tx with v := bitSent s j } }

/-- The same bit after the block has released the line. -/
def releasedBit (tm : Timer) (j : Nat) (s : State) : State :=
  { s with timer := tm, cec := { s.cec with bit := BitVec.ofNat 4 j, oe := false }, tx := { s.tx with v := bitSent s j } }

/-- The start of a bit of a block that TX_BUF has (42 R173, R175). -/
theorem startTxBit_eq {p : State} {k : Nat} (hk : k < p.cfg.bufCap) (j : Nat) (a : State) :
    startTxBit k j p a = .next { a with
      timer := { t := 0#16, pre := 0#16 }
      cec := { a.cec with state := .txBit, bit := BitVec.ofNat 4 j, blk := BitVec.ofNat 5 k, oe := true }
      tx := { a.tx with v := blockBit p k j } } := by
  rw [startTxBit, txBitValue_eq hk]
  rfl

section

variable {s : State} (hv : s.cfg.Valid) (hs : s.cec.state = .txBit)
include hv hs

/-- A data or EOM bit that the wire carries as it is sent: the next bit of the block starts. -/
theorem transmitSymbol_bit (hk : s.cec.blk.toNat < 16) {j : Nat} (hj : j ≤ 8) (tm : Timer) :
    transmitSymbol (bitSent s j) (sendingBit tm j s) = .next (sendingBit { t := 0#16, pre := 0#16 } (j + 1) s) := by
  obtain ⟨-, -, hcap, -⟩ := valid_decided hv
  have hbit : (BitVec.ofNat 4 j).toNat = j := by rw [BitVec.toNat_ofNat]; omega
  obtain ⟨tm', hrun⟩ := feed_undisturbedBit (s := sendingBit tm j s) hv hs (bitSent s j)
    (by show (BitVec.ofNat 4 j).toNat ≤ 8; omega) rfl
  have hrun : feed (transmitInstant (bitSent s j)) [s.cfg.t1Low, s.cfg.tMid, s.cfg.t0Low] (sendingBit tm j s) =
      .next (releasedBit tm' j s) := hrun
  have hend : transmitInstant (bitSent s j) s.cfg.tBit (releasedBit tm' j s) =
      startTxBit s.cec.blk.toNat (j + 1) (waitReach s.cfg.tBit (releasedBit tm' j s))
        (waitReach s.cfg.tBit (releasedBit tm' j s)) := by
    refine (transmitInstant_end (s := releasedBit tm' j s) hv hs (bitSent s j)).trans ?_
    simp only [nextBit, waitReach_cec, releasedBit, hbit]
    rw [if_pos (by omega)]
  have hperiod : transmitSymbol (bitSent s j) (sendingBit tm j s) =
      feed (transmitInstant (bitSent s j)) ([s.cfg.t1Low, s.cfg.tMid, s.cfg.t0Low] ++ [s.cfg.tBit])
        (sendingBit tm j s) := rfl
  rw [hperiod, feed_append, hrun, andThen_next, feed_cons, hend, startTxBit_eq (by show _ < s.cfg.bufCap; omega)]
  simp [sendingBit, releasedBit, blockBit, hs]

/-- The bits `j` to `j + n - 1` of a block. -/
theorem feed_bits (hk : s.cec.blk.toNat < 16) (n : Nat) : ∀ (j : Nat) (tm : Timer), j + n ≤ 9 →
    ∃ tm', feed transmitSymbol ((List.range' j n).map (bitSent s)) (sendingBit tm j s) =
      .next (sendingBit tm' (j + n) s) := by
  induction n with
  | zero => exact fun j tm _ => ⟨tm, rfl⟩
  | succ n ih =>
    intro j tm hn
    obtain ⟨tm', hrest⟩ := ih (j + 1) { t := 0#16, pre := 0#16 } (by omega)
    refine ⟨tm', ?_⟩
    rw [List.range'_succ, List.map_cons, feed_cons, transmitSymbol_bit hv hs hk (by omega), andThen_next, hrest,
      Nat.add_right_comm]
    rfl

end

/-- The bits of a block in wire order, as `bitSent` numbers them. -/
theorem blockBits_eq {s : State} {d : Byte} {eom : Bool} (hd : d = readMem s.tx.buf s.cec.blk.toNat)
    (he : eom = decide (s.cec.blk.toNat + 1 = s.tx.len.toNat)) (ack : Bool) :
    blockBits d eom ack = (List.range' 0 9).map (bitSent s) ++ [ack] := by
  subst hd he
  rfl

/-! ### The ACK bit (42 R178) -/

/-- The shared state after the good ACK of the block CEC_BLK (42 R178). -/
def ackedShared (s : State) : Shared :=
  { s.shared with
    length := s.tx.len - (s.cec.blk + 1)
    taken :=
      if s.cec.blk = 0#5 ∧ s.tx.bcast = false then orTaken s.shared.taken (destinationOf (txHeader s))
      else s.shared.taken }

section

variable {s : State} (hv : s.cfg.Valid) (hs : s.cec.state = .txBit)
include hv hs

/-- The ACK bit up to its sample point, with the follower's good ACK on the wire. -/
theorem feed_goodAck (tm : Timer) :
    ∃ tm', feed (transmitInstant s.tx.bcast) [s.cfg.t1Low, s.cfg.tMid] (sendingBit tm 9 s) =
      .next (if s.cec.blk = s.tx.len - 1 then txDone { releasedBit tm' 9 s with shared := ackedShared s }
        else { releasedBit tm' 9 s with shared := ackedShared s }) := by
  have hlow : transmitInstant s.tx.bcast s.cfg.t1Low (sendingBit tm 9 s) =
      .next (releaseCec (waitReach s.cfg.t1Low (sendingBit tm 9 s))) :=
    transmitInstant_release (s := sendingBit tm 9 s) (v := true) hv hs _ rfl
  generalize hp : releaseCec (waitReach s.cfg.t1Low (sendingBit tm 9 s)) = p at hlow
  have hsample : transmitInstant s.tx.bcast s.cfg.tMid p =
      .next (ackCheck (s.tx.bcast && !p.cec.oe) (waitReach s.cfg.tMid p) (waitReach s.cfg.tMid p)) := by
    subst hp
    exact transmitInstant_sample (s := releaseCec (waitReach s.cfg.t1Low (sendingBit tm 9 s))) hv hs _
  have hgood : ackGood (s.tx.bcast && !p.cec.oe) (waitReach s.cfg.tMid p) = true := by
    subst hp
    cases hb : s.tx.bcast <;> simp [ackGood, releaseCec, sendingBit, hb]
  have hcount : ackCount (waitReach s.cfg.tMid p) (waitReach s.cfg.tMid p) =
      { releasedBit (waitReach s.cfg.tMid p).timer 9 s with shared := ackedShared s } := by
    subst hp
    simp [ackCount, waitReach, releaseCec, sendingBit, releasedBit, ackedShared, txHeader]
  have hblk : (waitReach s.cfg.tMid p).cec.blk = s.cec.blk ∧ (waitReach s.cfg.tMid p).tx.len = s.tx.len := by
    subst hp
    exact ⟨rfl, rfl⟩
  refine ⟨(waitReach s.cfg.tMid p).timer, ?_⟩
  rw [feed_cons, hlow, andThen_next, feed_cons, hsample, andThen_next, feed_nil, ackCheck, if_pos hgood, hcount, hblk.1,
    hblk.2]

/-- The ACK bit of the last block ends the transmission. -/
theorem transmitSymbol_lastAck (hlast : s.cec.blk = s.tx.len - 1) (tm : Timer) :
    ∃ tm', transmitSymbol s.tx.bcast (sendingBit tm 9 s) =
      .next (txDone { releasedBit tm' 9 s with shared := ackedShared s }) := by
  obtain ⟨tm', hrun⟩ := feed_goodAck hv hs tm
  rw [if_pos hlast] at hrun
  refine ⟨tm', ?_⟩
  have hperiod : transmitSymbol s.tx.bcast (sendingBit tm 9 s) =
      feed (transmitInstant s.tx.bcast) ([s.cfg.t1Low, s.cfg.tMid] ++ [s.cfg.t0Low, s.cfg.tBit])
        (sendingBit tm 9 s) := rfl
  rw [hperiod, feed_append, hrun, andThen_next]
  rfl

/-- The ACK bit of another block: the first bit of the next one starts. -/
theorem transmitSymbol_ack (hlast : s.cec.blk ≠ s.tx.len - 1) (hk : s.cec.blk.toNat + 1 < 16) (tm : Timer) :
    transmitSymbol s.tx.bcast (sendingBit tm 9 s) = .next { s with
      timer := { t := 0#16, pre := 0#16 }
      shared := ackedShared s
      cec := { s.cec with oe := true, bit := 0#4, blk := s.cec.blk + 1 }
      tx := { s.tx with v := (readMem s.tx.buf (s.cec.blk.toNat + 1)).getLsbD 7 } } := by
  obtain ⟨-, -, hcap, -⟩ := valid_decided hv
  obtain ⟨tm', hrun⟩ := feed_goodAck hv hs tm
  rw [if_neg hlast] at hrun
  generalize hp : ({ releasedBit tm' 9 s with shared := ackedShared s } : State) = p at hrun
  have hquiet : transmitInstant s.tx.bcast s.cfg.t0Low p = .next (waitReach s.cfg.t0Low p) := by
    subst hp
    exact transmitInstant_otherLow (s := { releasedBit tm' 9 s with shared := ackedShared s }) (v := false) hv hs _ rfl
  have hend : transmitInstant s.tx.bcast s.cfg.tBit (waitReach s.cfg.t0Low p) =
      startTxBit (s.cec.blk.toNat + 1) 0 (waitReach s.cfg.tBit p) (waitReach s.cfg.tBit p) := by
    subst hp
    exact transmitInstant_end (s := waitReach s.cfg.t0Low { releasedBit tm' 9 s with shared := ackedShared s }) hv hs _
  have hperiod : transmitSymbol s.tx.bcast (sendingBit tm 9 s) =
      feed (transmitInstant s.tx.bcast) ([s.cfg.t1Low, s.cfg.tMid] ++ [s.cfg.t0Low, s.cfg.tBit])
        (sendingBit tm 9 s) := rfl
  have hblk : BitVec.ofNat 5 (s.cec.blk.toNat + 1) = s.cec.blk + 1 := by
    rw [BitVec.ofNat_add, BitVec.ofNat_toNat, BitVec.setWidth_eq]
    rfl
  rw [hperiod, feed_append, hrun, andThen_next, feed_cons, hquiet, andThen_next, feed_cons, hend,
    startTxBit_eq (by subst hp; show _ < s.cfg.bufCap; omega), hblk]
  subst hp
  simp [releasedBit, blockBit, hs]

end

/-! ### The whole block -/

/-- The state at the start of a block is one in which its bit 0 is being sent. -/
theorem eq_sendingBit {s : State} (hv : s.tx.v = (readMem s.tx.buf s.cec.blk.toNat).getLsbD 7) (h0 : s.cec.bit = 0#4)
    (ho : s.cec.oe = true) : s = sendingBit s.timer 0 s := by
  have hcec : ({ s.cec with bit := BitVec.ofNat 4 0, oe := true } : CecRegs) = s.cec := by rw [← ho, ← h0]
  have htx : ({ s.tx with v := bitSent s 0 } : TxRegs) = s.tx := by
    show ({ s.tx with v := (readMem s.tx.buf s.cec.blk.toNat).getLsbD 7 } : TxRegs) = s.tx
    rw [← hv]
  rw [sendingBit, hcec, htx]

/-- Settles O55: nine undisturbed bits and a good ACK. -/
theorem ackedBlockIsSent : Obligations.AckedBlockIsSent := by
  intro s d eom ack hi hs h0 ho hd hval heom hack
  obtain ⟨-, -, hcap, -⟩ := valid_decided hi.valid
  obtain ⟨hpend, hblk, -⟩ := hi.sending (.inr hs)
  have hlen : s.tx.len.toNat ≤ 16 := hcap ▸ hi.txLen.1
  obtain ⟨tm, hbits⟩ := feed_bits hi.valid hs (by omega) 9 0 s.timer le_rfl
  have hrun : exec (.cecTxBlock d eom ack) s = transmitSymbol ack (sendingBit tm 9 s) := by
    calc exec (.cecTxBlock d eom ack) s
      _ = feed transmitSymbol ((List.range' 0 9).map (bitSent s) ++ [ack]) s := by rw [← blockBits_eq hd heom]; rfl
      _ = andThen (feed transmitSymbol ((List.range' 0 9).map (bitSent s)) (sendingBit s.timer 0 s))
            (feed transmitSymbol [ack]) := by rw [feed_append, ← eq_sendingBit (hd ▸ hval) h0 ho]
      _ = transmitSymbol ack (sendingBit tm 9 s) := by rw [hbits]; exact andThen_next_right _
  have hshared : (ackedShared s).length.toNat + (s.cec.blk.toNat + 1) = s.tx.len.toNat := by
    show (s.tx.len - (s.cec.blk + 1)).toNat + (s.cec.blk.toNat + 1) = s.tx.len.toNat
    bv_omega
  rw [hrun, hack]
  by_cases hlast : s.cec.blk.toNat + 1 = s.tx.len.toNat
  · obtain ⟨tm', hdone⟩ := transmitSymbol_lastAck hi.valid hs (by bv_omega) tm
    refine ⟨_, hdone, ⟨rfl, rfl, rfl, rfl⟩, rfl, rfl, hshared, rfl, rfl, ?_⟩
    rw [heom, if_pos (decide_eq_true hlast)]
    exact ⟨rfl, rfl⟩
  · refine ⟨_, transmitSymbol_ack hi.valid hs (by bv_omega) (by omega) tm, ⟨rfl, rfl, rfl, rfl⟩, rfl, rfl, hshared, rfl,
      rfl, ?_⟩
    rw [heom, if_neg (by simpa using hlast)]
    exact ⟨rfl, rfl⟩

end Sys2Proof.Machine
end

section
/-! SUPPORT. The jiffy timer: what one tick does, what the ticks after a clear add up to, and in which cycles it is cleared
instead (40 R110, R111; 45 R273 to R275). -/

namespace Sys2Proof.Machine

/-- The inequalities of 00 R9 between the times of a START and of a timeout. -/
theorem valid_start_times {c : Config} (h : c.Valid) : c.tStartLow < c.tStartTotal ∧ c.t0Low < c.tTimeout := by
  obtain ⟨-, -, -, -, -, -, -, -, -, -, -, -, -, -, -, -, h0, -, -, hs, -, hb, -⟩ := h
  exact ⟨hs, h0.trans hb⟩

/-! ### One tick (40 R110) -/

theorem toNat_satInc {n : Nat} (v : BitVec n) : (satInc v).toNat = min (v.toNat + 1) (2 ^ n - 1) := by
  have hlt : v.toNat < 2 ^ n := v.isLt
  unfold satInc
  split
  next hv => rw [hv, BitVec.toNat_allOnes]; omega
  next hv =>
    have hne : v.toNat ≠ 2 ^ n - 1 := fun h => hv (BitVec.eq_of_toNat_eq (h.trans BitVec.toNat_allOnes.symm))
    have hsucc : v.toNat + 1 < 2 ^ n := by omega
    rw [BitVec.toNat_add, BitVec.ofNat_eq_ofNat, BitVec.toNat_ofNat, Nat.add_mod_mod, Nat.mod_eq_of_lt hsucc]
    omega

theorem jiffyEnds_iff {s : State} : jiffyEnds s = true ↔ s.timer.pre.toNat + 1 = s.cfg.jiffyCycles := beq_iff_eq

theorem reach_iff {s : State} {n : Nat} :
    reach s n = true ↔ s.timer.pre.toNat + 1 = s.cfg.jiffyCycles ∧ s.timer.t.toNat + 1 = n := by
  simp only [reach, Bool.and_eq_true, jiffyEnds_iff, beq_iff_eq]

theorem tickTimer_of_jiffy_ends {s : State} (h : s.timer.pre.toNat + 1 = s.cfg.jiffyCycles) :
    tickTimer s = { t := satInc s.timer.t, pre := 0#16 } := by
  rw [tickTimer, if_pos (jiffyEnds_iff.2 h)]

theorem tickTimer_within_jiffy {s : State} (h : s.timer.pre.toNat + 1 ≠ s.cfg.jiffyCycles) :
    tickTimer s = { t := s.timer.t, pre := s.timer.pre + 1 } := by
  rw [tickTimer, if_neg (mt jiffyEnds_iff.1 h)]

/-- One tick as numbers. -/
theorem tickTimer_spec {s : State} (hv : s.cfg.Valid) :
    if s.timer.pre.toNat = s.cfg.jiffyCycles - 1 then
      (tickTimer s).t.toNat = min (s.timer.t.toNat + 1) 0xFFFF ∧ (tickTimer s).pre = 0#16
    else (tickTimer s).t = s.timer.t ∧ (tickTimer s).pre.toNat = (s.timer.pre.toNat + 1) % 65536 := by
  obtain ⟨-, -, -, -, -, -, hj, -⟩ := valid_bit_times hv
  split
  next h =>
    rw [tickTimer_of_jiffy_ends (by omega)]
    exact ⟨toNat_satInc _, rfl⟩
  next h =>
    rw [tickTimer_within_jiffy (by omega)]
    exact ⟨rfl, BitVec.toNat_add _ _⟩

/-! ### Ticks after a clear (40 R111) -/

/-- The timer `k` cycles after a clear, with `j` cycles in a jiffy: the whole jiffies, saturating, and the cycles of the last
one. -/
def elapsed (j k : Nat) : Timer := { t := BitVec.ofNat 16 (min (k / j) 0xFFFF), pre := BitVec.ofNat 16 (k % j) }

theorem elapsed_zero (j : Nat) : elapsed j 0 = { t := 0#16, pre := 0#16 } := by
  simp [elapsed]

theorem toNat_elapsed_t (j k : Nat) : (elapsed j k).t.toNat = min (k / j) 0xFFFF := by
  rw [elapsed, BitVec.toNat_ofNat, Nat.mod_eq_of_lt (by omega)]

theorem toNat_elapsed_pre {j : Nat} (hj : 1 ≤ j) (hj' : j ≤ 65536) (k : Nat) : (elapsed j k).pre.toNat = k % j := by
  have : k % j < j := Nat.mod_lt k hj
  rw [elapsed, BitVec.toNat_ofNat, Nat.mod_eq_of_lt (by omega)]

theorem satInc_elapsed_t (j k : Nat) : satInc (elapsed j k).t = BitVec.ofNat 16 (min (k / j + 1) 0xFFFF) := by
  apply BitVec.eq_of_toNat_eq
  rw [toNat_satInc, toNat_elapsed_t, BitVec.toNat_ofNat, Nat.mod_eq_of_lt (by omega)]
  omega

/-- One more cycle, which may end a jiffy. -/
theorem tickTimer_elapsed {s : State} (hv : s.cfg.Valid) (k : Nat) :
    tickTimer { s with timer := elapsed s.cfg.jiffyCycles k } = elapsed s.cfg.jiffyCycles (k + 1) := by
  obtain ⟨-, -, -, -, -, -, hj, hj'⟩ := valid_bit_times hv
  have hpre := toNat_elapsed_pre hj hj' k
  have hk := Nat.div_add_mod k s.cfg.jiffyCycles
  have hlt := Nat.mod_lt k hj
  by_cases hend : k % s.cfg.jiffyCycles + 1 = s.cfg.jiffyCycles
  · obtain ⟨hdiv, hmod⟩ : (k + 1) / s.cfg.jiffyCycles = k / s.cfg.jiffyCycles + 1 ∧ (k + 1) % s.cfg.jiffyCycles = 0 :=
      (Nat.div_mod_unique hj).2 ⟨by rw [Nat.mul_succ]; omega, hj⟩
    rw [tickTimer_of_jiffy_ends (hpre ▸ hend), satInc_elapsed_t, elapsed, hdiv, hmod]
  · obtain ⟨hdiv, hmod⟩ : (k + 1) / s.cfg.jiffyCycles = k / s.cfg.jiffyCycles ∧
        (k + 1) % s.cfg.jiffyCycles = k % s.cfg.jiffyCycles + 1 :=
      (Nat.div_mod_unique hj).2 ⟨by omega, by omega⟩
    rw [tickTimer_within_jiffy (hpre ▸ hend), elapsed, elapsed, hdiv, hmod, BitVec.ofNat_add]
    rfl

theorem tickTimer_iterate {s : State} (hv : s.cfg.Valid) (k : Nat) :
    (fun x => tickTimer { s with timer := x })^[k] { t := 0#16, pre := 0#16 } = elapsed s.cfg.jiffyCycles k := by
  induction k with
  | zero => exact (elapsed_zero _).symm
  | succ k ih => rw [Function.iterate_succ_apply', ih, tickTimer_elapsed hv]

/-- Settles O11, by induction on the cycles. -/
theorem timerMeasuresJiffies : Obligations.TimerMeasuresJiffies := fun _ k hv => tickTimer_iterate hv k

/-- Settles O12. The strobe's cycle is the last one of the `n`-th jiffy. -/
theorem reachComesAfterNJiffies : Obligations.ReachComesAfterNJiffies := by
  intro s k n hv hk hn hn'
  obtain ⟨-, -, -, -, -, -, hj, hj'⟩ := valid_bit_times hv
  set j := s.cfg.jiffyCycles
  have hjiffies : n * j = j * (n - 1) + j := by
    obtain ⟨m, rfl⟩ := Nat.exists_eq_add_of_le' hn
    rw [Nat.add_sub_cancel, Nat.add_one_mul, Nat.mul_comm]
  calc reach { s with timer := (fun x => tickTimer { s with timer := x })^[k - 1] { t := 0#16, pre := 0#16 } } n = true
    _ ↔ (elapsed j (k - 1)).pre.toNat + 1 = j ∧ (elapsed j (k - 1)).t.toNat + 1 = n := by
      rw [tickTimer_iterate hv, reach_iff]
    _ ↔ (k - 1) / j = n - 1 ∧ (k - 1) % j = j - 1 := by
      rw [toNat_elapsed_pre hj hj', toNat_elapsed_t]
      omega
    _ ↔ j - 1 + j * (n - 1) = k - 1 ∧ j - 1 < j := Nat.div_mod_unique hj
    _ ↔ k = n * j := by omega

/-! ### The timer of a cycle (45 R275) -/

/-- The timer after a cycle: cleared, or ticked. -/
def timerAfter (cleared : Bool) (s : State) : Timer := if cleared then { t := 0#16, pre := 0#16 } else tickTimer s

theorem timer_of_clockedResult {c : Bool} {s t : State} {r : Result} (h : clockedResult c s r = .next t) :
    t.timer = timerAfter c s := by
  obtain ⟨u, -, hu⟩ := andThen_eq_next.1 h
  exact (congrArg State.timer (Host.Outcome.next.inj hu)).symm

/-- The timer that the executed row leaves in a cycle, whatever the I2C engine wrote before it. -/
theorem applyCec_timer {s a t : State} {i : Instr} (hv : s.cfg.Valid) (hi : CecPresents s i)
    (h : applyCec i s (clocked false s a) = .next t) : t.timer = timerAfter (timerClear s) s := by
  cases hi with
  | startRx hs hr hl =>
    simp only [applyCec, applyCecStartRx, hs, hl, if_true] at h
    cases h
    simp only [timerClear, hs, hr, Bool.true_or]
    rfl
  | attempt hs hgo =>
    simp only [applyCec, applyCecStartTx, hs, hgo, if_true] at h
    cases h
    simp only [timerClear, hs, hgo, Bool.or_true]
    rfl
  | bitRx hs hr =>
    rw [timerClear_receiving hs, hr, Bool.true_or]
    exact timer_of_clockedResult ((applyCecBitRx_clocked hs).symm.trans h)
  | ackOpens hs hf ho =>
    rw [timerClear_receiving hs, hf, Bool.or_true]
    rcases hs with hs | hs <;> simp only [applyCec, applyCecAckDrive, ackDrive, hs, hf, ho] at h <;> cases h <;> rfl
  | ackEnds hs hr hf he =>
    rw [timerClear_receiving hs, hr, hf]
    rcases hs with hs | hs <;> simp only [applyCec, applyCecAckDrive, ackDrive, hs, hf, he] at h <;> cases h <;> rfl
  | startTx hs =>
    simp only [applyCec, applyCecStartTx, hs] at h
    simp only [timerClear, hs]
    split at h
    next hr =>
      rw [reach_exclusive hr (valid_start_times hv).1.ne]
      cases h
      rfl
    next =>
      split at h
      next ht =>
        rw [ht]
        exact timer_of_clockedResult ((startTxBit_clocked 0 0 false s s a).symm.trans h)
      next ht =>
        rw [Bool.eq_false_iff.2 ht]
        cases h
        rfl
  | bitTx hs =>
    have hclocked := txBitCycle_clocked hv hs a
    cases hb : s.tx.v <;> rw [hb] at h hclocked <;> exact timer_of_clockedResult (hclocked.symm.trans h)

/-- The timer of a cycle without a row of the CEC engine: the other edges of IDLE and of a frame clear it. -/
theorem betweenCec_timer {s a : State} (hf : fetchCec s = none) (ha : a.timer = tickTimer s) :
    (betweenCec s a).timer = timerAfter (timerClear s) s := by
  have hframe (hs : s.cec.state.Receiving) :
      (if s.sync.cec.fall then clearTimer a else if timedOut s then timeoutAbort s a else a).timer =
        timerAfter (timerClear s) s := by
    rw [timerClear_receiving hs, (no_row_of_receiving hs hf).1, Bool.false_or]
    cases s.sync.cec.fall with
    | true => rfl
    | false =>
      rw [if_neg Bool.false_ne_true]
      split <;> exact ha
  cases hs : s.cec.state with
  | idle =>
    simp only [fetchCec, hs] at hf
    simp only [betweenCec, timerClear, hs]
    cases hr : s.sync.cec.rise with
    | true => rfl
    | false =>
      have hgo : txGo s = false := by simpa [hr] using hf
      rw [hgo, Bool.or_false]
      cases s.sync.cec.fall with
      | true => rfl
      | false => exact ha
  | rxWho => simpa only [betweenCec, hs] using hframe (.inl hs)
  | rxData => simpa only [betweenCec, hs] using hframe (.inr hs)
  | txStart | txBit => simp [fetchCec, hs] at hf
  | unused5 | unused6 | unused7 =>
    simp only [betweenCec, timerClear, hs]
    exact ha

/-- What the I2C engine leaves of the background is a state with the clock edge in it. -/
theorem eq_clocked_of_i2cFrame {s a : State} (h : I2cFrame (background s) a) : a = clocked false s a := by
  obtain ⟨-, -, htimer, hsync, -, hpins, hedges⟩ := h
  calc a = { a with timer := a.timer, sync := a.sync, env := { a.env with pins := a.env.pins, edges := a.env.edges } } := rfl
    _ = clocked false s a := by rw [htimer, hsync, hpins, hedges]; rfl

theorem cecEngine_timer {s a t : State} (hv : s.cfg.Valid) (ha : I2cFrame (background s) a)
    (h : cecEngine s a = .next t) : t.timer = timerAfter (timerClear s) s := by
  unfold cecEngine at h
  split at h
  next hi => exact applyCec_timer hv (cecPresents_of_fetch hi) (eq_clocked_of_i2cFrame ha ▸ h)
  next hi => exact Host.Outcome.next.inj h ▸ betweenCec_timer hi ha.timer

/-- Settles O10. The CEC engine writes the timer last, over the tick, except in SOFT_RESET's cycle, which resets it. -/
theorem timerOfEveryCycle : Obligations.TimerOfEveryCycle := by
  intro s t h
  obtain ⟨hv, ⟨hr, rfl⟩ | ⟨hr, -, hcycle⟩⟩ := step_eq_next.1 h
  · rw [if_pos (.inl hr)]
    exact ⟨rfl, rfl⟩
  rcases cycle_eq_next hcycle with ⟨hs, a, hi, hc⟩ | ⟨hs, a, hc, hi⟩
  · rw [cecEngine_timer hv (i2cEngine_frame hs hi) hc]
    cases hclear : timerClear s with
    | true =>
      rw [if_pos (.inr (.inr rfl))]
      exact ⟨rfl, rfl⟩
    | false =>
      rw [if_neg (by simp [hr, hs])]
      exact tickTimer_spec hv
  · rw [if_pos (.inr (.inl hs))]
    obtain ⟨b, rfl⟩ := i2cEngine_of_softReset hs hi
    exact ⟨rfl, rfl⟩

end Sys2Proof.Machine
end

section
/-! SUPPORT. The symbols of the CEC engine as its rows: a measured START and a measured bit, the START that this block
sends, and the abort of a frame whose next edge does not come (40 R112 to R116; 41 R141 to R143, R150; 42 R171 to R173). -/

namespace Sys2Proof.Machine

/-! ### Measured symbols (40 R112, R113) -/

theorem isStartPulse_iff {c : Config} {l : BitVec 16} :
    isStartPulse c l = true ↔ c.startMin ≤ l.toNat ∧ l.toNat < c.tTimeout := by
  simp only [isStartPulse, Bool.and_eq_true, Nat.ble_eq, Nat.blt_eq]

theorem classify_iff {c : Config} {l : BitVec 16} : classify c l = true ↔ l.toNat < c.tMid := by
  rw [classify, Nat.blt_eq]

/-- Settles O42. The two answers are told apart by the START window. -/
theorem startPulseOpensAFrame : Obligations.StartPulseOpensAFrame := by
  intro s l hs
  have hexec : exec (.cecStartRx l) s =
      if isStartPulse s.cfg l then .next (clearTimer (frameInit s)) else .next (clearTimer s) := by
    show applyCecStartRx l s s = _
    simp only [applyCecStartRx, hs]
  rw [hexec, if_congr isStartPulse_iff rfl rfl]
  rfl

/-- A bit shifted in doubles the byte and drops its top bit (41 R143). -/
theorem toNat_shiftIn (v : Byte) (b : Bool) : (shiftIn v b).toNat = (2 * v.toNat + b.toNat) % 256 := by
  revert v b; decide

/-- CEC_BIT_RX in a frame delivers the classified bit and clears the timer. -/
theorem exec_cecBitRx {s : State} (hs : s.cec.state.Receiving) (l : BitVec 16) :
    exec (.cecBitRx l) s = .next (receiveBit (classify s.cfg l) s
      (clearTimer { s with cec := { s.cec with lastbit := classify s.cfg l } })) := by
  show applyCecBitRx l s s = _
  rcases hs with hs | hs <;> simp only [applyCecBitRx, hs]

theorem receiveBit_dataBit {s : State} (hn : s.cec.bit.toNat < 7) (b : Bool) (a : State) :
    receiveBit b s a = { a with cec := { a.cec with shift := shiftIn s.cec.shift b, bit := s.cec.bit + 1 } } := by
  rw [receiveBit, if_pos hn]

/-- Settles O43. A bit before bit 7 is only shifted in and counted. -/
theorem dataBitsAreShiftedIn : Obligations.DataBitsAreShiftedIn := by
  intro s l hs hn
  refine ⟨_, exec_cecBitRx hs l, ?_⟩
  rw [receiveBit_dataBit hn]
  exact ⟨classify_iff, toNat_shiftIn _ _, bit_add_one (by omega), rfl⟩

/-! ### The START this block sends (40 R115, 42 R171 to R173) -/

theorem txGo_of_free {s : State} (hs : s.cec.state = .idle) (hp : s.tx.pending = true) (hline : s.sync.cec.s2 = true)
    (hlast : s.sync.cec.p = true) (hfree : s.cfg.tFree ≤ s.timer.t.toNat) : txGo s = true := by
  simp [txGo, Sync.rise, Sync.fall, hs, hp, hline, hlast, hfree]

theorem exec_cecStartTx_attempt {s : State} (hs : s.cec.state = .idle) (hgo : txGo s = true) :
    exec .cecStartTx s = .next (attemptInit s s) := by
  show applyCecStartTx s s = _
  simp only [applyCecStartTx, hs, hgo, if_true]

theorem exec_cecStartTx_release {s : State} (hs : s.cec.state = .txStart) (hr : reach s s.cfg.tStartLow = true) :
    exec .cecStartTx s = .next (releaseCec s) := by
  show applyCecStartTx s s = _
  simp only [applyCecStartTx, hs, hr, if_true]

/-- The two instants of a START are different (00 R9). -/
theorem exec_cecStartTx_firstBit {s : State} (hv : s.cfg.Valid) (hs : s.cec.state = .txStart)
    (hr : reach s s.cfg.tStartTotal = true) : exec .cecStartTx s = firstBit s s := by
  have hlow : reach s s.cfg.tStartLow = false := reach_exclusive hr (valid_start_times hv).1.ne'
  show applyCecStartTx s s = _
  simp only [applyCecStartTx, hs, hlow, hr, if_true, Bool.false_eq_true, if_false]

/-- Settles O50: the attempt, the release of the line and the first bit, each in its own cycle. -/
theorem attemptStartsInThreeCycles : Obligations.AttemptStartsInThreeCycles := by
  intro s hv
  obtain ⟨-, -, hcap, hbcast, -⟩ := valid_decided hv
  refine ⟨fun hs hp hline hlast hfree => ?_, fun hs hr => exec_cecStartTx_release hs hr, fun hs hr => ?_⟩
  · rw [exec_cecStartTx_attempt hs (txGo_of_free hs hp hline hlast hfree), ← hbcast]
    rfl
  · rw [exec_cecStartTx_firstBit hv hs hr, firstBit, startTxBit_eq (by omega)]
    rfl

/-! ### A missing edge (40 R116, 41 R150) -/

/-- At a timeout the time of the ACK drive is past (00 R9), so no row is executed. -/
theorem fetchCec_of_timedOut {s : State} (hv : s.cfg.Valid) (hs : s.cec.state.Receiving) (hr : s.sync.cec.rise = false)
    (hf : s.sync.cec.fall = false) (ht : s.cfg.tTimeout ≤ s.timer.t.toNat) : fetchCec s = none := by
  have hlow : reach s s.cfg.t0Low = false := by
    have := (valid_start_times hv).2
    rw [Bool.eq_false_iff, ne_eq, reach_iff]
    omega
  rw [fetchCec_of_receiving hs, hr, hf, endsAck, hlow, Bool.and_false]
  rfl

theorem betweenCec_of_timedOut {s : State} (hs : s.cec.state.Receiving) (hf : s.sync.cec.fall = false)
    (ht : s.cfg.tTimeout ≤ s.timer.t.toNat) (a : State) : betweenCec s a = timeoutAbort s a := by
  have htimed : timedOut s = true := Nat.ble_eq_true_of_le ht
  rcases hs with hs | hs <;> simp only [betweenCec, hs, hf, htimed, Bool.false_eq_true, if_false, if_true]

/-- Settles O26. The I2C engine is quiet and no row is executed, so the cycle is the abort over the background. -/
theorem timeoutAbortsTheFrame : Obligations.TimeoutAbortsTheFrame := by
  intro s hv hrst hu hn hs hr hf ht
  refine ⟨timeoutAbort s (background s), ?_, rfl, rfl, rfl, rfl, rfl, rfl, rfl⟩
  calc step s = cecEngine s (background s) := by rw [step_eq_cycle hv hrst hu, cycle_of_no_strobe hn]
    _ = .next (betweenCec s (background s)) := by rw [cecEngine, fetchCec_of_timedOut hv hs hr hf ht]
    _ = .next (timeoutAbort s (background s)) := by rw [betweenCec_of_timedOut hs hf ht]

end Sys2Proof.Machine
end

section
/-! SUPPORT. A received bit by its place in the block, whatever state it writes over: the bit that completes a header, the
bit that completes a data byte, the EOM bit and the ACK bit; and the two cycles of the ACK drive (41 R143 to R149, R151). -/

namespace Sys2Proof.Machine

/-! ### CEC_BIT_RX with the bit given (40 R112) -/

theorem classify_eq_decide (c : Config) (l : BitVec 16) : classify c l = decide (l.toNat < c.tMid) :=
  Bool.eq_iff_iff.2 (classify_iff.trans decide_eq_true_iff.symm)

/-- The row delivers the bit that its pulse stands for. -/
theorem exec_cecBitRx_of_eq {s : State} {l : BitVec 16} {b : Bool} (hs : s.cec.state.Receiving)
    (hb : b = decide (l.toNat < s.cfg.tMid)) :
    exec (.cecBitRx l) s = .next (receiveBit b s (clearTimer { s with cec := { s.cec with lastbit := b } })) := by
  rw [exec_cecBitRx hs, classify_eq_decide, ← hb]

/-! ### The bit that completes a header (41 R144 to R146) -/

section

variable {s : State} (hs : s.cec.state = .rxWho) (h7 : s.cec.bit = 7#4)
include hs h7

theorem receiveBit_header (b : Bool) (a : State) :
    receiveBit b s a = headerDecide (shiftIn s.cec.shift b) s
      { a with cec := { a.cec with shift := shiftIn s.cec.shift b } } := by
  simp only [receiveBit, h7, hs]
  rfl

theorem receiveBit_headerKept {b : Bool} (hk : isKept s (destinationOf (shiftIn s.cec.shift b)) = true) (a : State) :
    receiveBit b s a = { a with
      shared := { a.shared with
        buf := writeMem s.shared.buf 0 (shiftIn s.cec.shift b), length := 1#5
        taken := orTaken s.shared.taken (sourceOf (shiftIn s.cec.shift b)) }
      cec := { a.cec with
        shift := shiftIn s.cec.shift b, keep := true, own := isOwned s (destinationOf (shiftIn s.cec.shift b))
        ackpend := isOwned s (destinationOf (shiftIn s.cec.shift b)), bit := 8#4 } } := by
  rw [receiveBit_header hs h7]
  simp only [headerDecide, hk, if_true]
  rfl

theorem receiveBit_headerDropped {b : Bool} (hk : isKept s (destinationOf (shiftIn s.cec.shift b)) = false) (a : State) :
    receiveBit b s a = emit (.addrMismatch (destinationOf (shiftIn s.cec.shift b))) { a with
      shared := { a.shared with taken := orTaken s.shared.taken (sourceOf (shiftIn s.cec.shift b)) }
      cec := { a.cec with shift := shiftIn s.cec.shift b, state := .idle } } := by
  rw [receiveBit_header hs h7]
  simp only [headerDecide, hk, Bool.false_eq_true, if_false]

end

/-- Settles O44. The header is kept or abandoned by its destination; TAKEN has its source either way. -/
theorem headerIsDecidedAtItsLastBit : Obligations.HeaderIsDecidedAtItsLastBit := by
  rintro s l b _ hv hs h7 hwf hb rfl
  refine ⟨_, exec_cecBitRx_of_eq (.inl hs) hb, ?_⟩
  cases hk : isKept s (destinationOf (shiftIn s.cec.shift b)) with
  | true =>
    rw [receiveBit_headerKept hs h7 hk, if_pos ((isKept_iff hv _).1 hk)]
    exact ⟨⟨rfl, rfl, rfl, rfl⟩, rfl, rfl, rfl, rfl, rfl, rfl, rfl, wf_writeMem hwf (by decide) _,
      readMem_writeMem hwf 0 _, _, isOwned_iff hv _, rfl⟩
  | false =>
    rw [receiveBit_headerDropped hs h7 hk, if_neg (mt (isKept_iff hv _).2 (Bool.eq_false_iff.1 hk))]
    exact ⟨⟨rfl, rfl, rfl, rfl⟩, rfl, rfl, rfl, rfl, rfl, rfl, rfl, rfl, rfl⟩

/-! ### The bit that completes a data byte (41 R147) -/

/-- A place of BUF named by the block index's four low bits. -/
theorem toNat_setWidth_blk {k : BitVec 5} (h : k.toNat < 16) : (k.setWidth 4).toNat = k.toNat := by bv_omega

section

variable {s : State} (hs : s.cec.state = .rxData) (h7 : s.cec.bit = 7#4)
include hs h7

theorem receiveBit_data (b : Bool) (a : State) :
    receiveBit b s a = dataBlock (shiftIn s.cec.shift b) s
      { a with cec := { a.cec with shift := shiftIn s.cec.shift b } } := by
  simp only [receiveBit, h7, hs]
  rfl

theorem receiveBit_stored (hv : s.cfg.Valid) (hblk : s.cec.blk.toNat < 16) (b : Bool) (a : State) :
    receiveBit b s a = { a with
      shared := { a.shared with
        buf := writeMem s.shared.buf s.cec.blk.toNat (shiftIn s.cec.shift b), length := s.cec.blk + 1 }
      cec := { a.cec with shift := shiftIn s.cec.shift b, ackpend := s.cec.own, bit := 8#4 } } := by
  obtain ⟨-, -, hcap, -⟩ := valid_decided hv
  rw [receiveBit_data hs h7, dataBlock, hcap, if_pos hblk, ← toNat_setWidth_blk hblk]
  rfl

theorem receiveBit_overrun (hv : s.cfg.Valid) (hblk : ¬s.cec.blk.toNat < 16) (b : Bool) (a : State) :
    receiveBit b s a = emit (.overrun s.cec.blk) { a with
      cec := { a.cec with
        shift := shiftIn s.cec.shift b, state := .idle, keep := false, own := false, ackpend := false } } := by
  obtain ⟨-, -, hcap, -⟩ := valid_decided hv
  rw [receiveBit_data hs h7, dataBlock, hcap, if_neg hblk]

end

/-- Settles O45: a block with a place in BUF or a 17th one. -/
theorem dataByteIsStoredOrOverruns : Obligations.DataByteIsStoredOrOverruns := by
  rintro s l b _ hv hs h7 hwf hb rfl
  refine ⟨_, exec_cecBitRx_of_eq (.inr hs) hb, ?_⟩
  by_cases hblk : s.cec.blk.toNat < 16
  · rw [receiveBit_stored hs h7 hv hblk, if_pos hblk]
    exact ⟨⟨rfl, rfl, rfl, rfl⟩, rfl, rfl, rfl, rfl, blk_add_one hblk, wf_writeMem hwf hblk _, readMem_writeMem hwf _ _, rfl⟩
  · rw [receiveBit_overrun hs h7 hv hblk, if_neg hblk]
    exact ⟨⟨rfl, rfl, rfl, rfl⟩, rfl, rfl, rfl, rfl, rfl, rfl⟩

/-! ### The EOM bit and the ACK bit (41 R148, R149) -/

theorem pingCheck_eq (b : Bool) (s a : State) :
    pingCheck b s a =
      if s.cec.state = .rxWho ∧ b = true ∧ destinationOf s.cec.shift = s.shared.cecAddr then
        { a with shared := { a.shared with taken := orTaken s.shared.taken s.shared.cecAddr } }
      else a := by
  simp only [pingCheck, Bool.and_eq_true, beq_iff_eq, and_assoc]

theorem receiveBit_eom {s : State} (h8 : s.cec.bit = 8#4) (b : Bool) (a : State) :
    receiveBit b s a = pingCheck b s { a with cec := { a.cec with eom := b, bit := 9#4 } } := by
  simp only [receiveBit, h8]
  rfl

theorem receiveBit_ack {s : State} (h9 : s.cec.bit = 9#4) (b : Bool) (a : State) : receiveBit b s a = blockEnd s a := by
  simp only [receiveBit, h9]
  rfl

/-- Settles O46: the EOM bit with and without a ping of the block's own address, and the ACK bit of the last block and of
another one. -/
theorem eomAndAckBitsEndTheBlock : Obligations.EomAndAckBitsEndTheBlock := by
  intro s l b hs hb
  rw [exec_cecBitRx_of_eq hs hb]
  refine ⟨fun h8 => ⟨_, rfl, ?_⟩, fun h9 => ?_⟩
  · rw [receiveBit_eom h8, pingCheck_eq]
    split_ifs <;> exact ⟨rfl, rfl⟩
  · rw [receiveBit_ack h9, blockEnd]
    cases s.cec.eom <;> rfl

/-! ### The ACK drive (41 R151) -/

/-- CEC_ACK_DRIVE in a frame: its two cycles, and no effect in any other (log 6). -/
theorem exec_cecAckDrive {s : State} (hs : s.cec.state.Receiving) :
    exec .cecAckDrive s =
      if s.sync.cec.fall = true ∧ s.cec.bit = 9#4 ∧ s.cec.ackpend = true then .next (ackDriveStart s)
      else if s.cec.ackdrv = true ∧ reach s s.cfg.t0Low = true then .next (ackDriveEnd s)
      else .next s := by
  show ackDrive s.sync.cec.fall s s = _
  rcases hs with hs | hs <;> simp only [ackDrive, hs, opensAck, endsAck, Bool.and_eq_true, beq_iff_eq]

/-- Settles O47: the fall that opens the ACK slot, and the time of the ACK's release in any other cycle. -/
theorem ownedBlockIsAcked : Obligations.OwnedBlockIsAcked := by
  intro s hs
  rw [exec_cecAckDrive hs]
  refine ⟨fun hf h9 hp => ?_, fun hno hd hr => ?_⟩
  · rw [if_pos ⟨hf, h9, hp⟩]
    rfl
  · rw [if_neg hno, if_pos ⟨hd, hr⟩]
    rfl

end Sys2Proof.Machine
end

section
/-! SUPPORT. The read-back of a sent bit at T_SAMPLE and the end of its period at T_BIT, in whatever state the block sends
the bit (42 R174 to R179). The idea: the three instants of a bit period are different times (00 R9), so a cycle at one of
them does that instant's work and nothing else. -/

namespace Sys2Proof.Machine

/-! ### The cycles of a sent bit -/

theorem exec_cecBitTx {v : Bool} {i : Instr} (hi : i = if v then .cecBit1Tx else .cecBit0Tx) (s : State) :
    exec i s = txBitCycle v s.sync.cec.s2 s s := by
  subst hi
  cases v <;> rfl

/-- A bit's release, its read-back and its end are three different times (00 R9). -/
theorem lowTime_instants {c : Config} (hv : c.Valid) (v : Bool) :
    lowTime c v ≠ c.tMid ∧ lowTime c v ≠ c.tBit ∧ c.tMid ≠ c.tBit := by
  obtain ⟨_, _, _, _, _, _, _, _⟩ := valid_bit_times hv
  cases v <;> simp only [lowTime, Bool.false_eq_true, if_true, if_false] <;> omega

section

variable {s : State} (hv : s.cfg.Valid) (hs : s.cec.state = .txBit)
include hv hs

theorem txBitCycle_sample (hr : reach s s.cfg.tMid = true) (v line : Bool) (a : State) :
    txBitCycle v line s a = .next (if s.cec.bit.toNat ≤ 8 then arbCheck v line s a else ackCheck line s a) := by
  have hlow : reach s (lowTime s.cfg v) = false := reach_exclusive hr (lowTime_instants hv v).1.symm
  rw [lowTime] at hlow
  simp only [txBitCycle, hs, hlow, Config.tSample, hr, Bool.false_eq_true, if_false, if_true]

theorem txBitCycle_end (hr : reach s s.cfg.tBit = true) (v line : Bool) (a : State) :
    txBitCycle v line s a = nextBit s a := by
  obtain ⟨-, hlowEnd, hmidEnd⟩ := lowTime_instants hv v
  have hlow : reach s (lowTime s.cfg v) = false := reach_exclusive hr hlowEnd.symm
  have hmid : reach s s.cfg.tMid = false := reach_exclusive hr hmidEnd.symm
  rw [lowTime] at hlow
  simp only [txBitCycle, hs, hlow, Config.tSample, hmid, hr, Bool.false_eq_true, if_false, if_true]

end

/-! ### The read-back at T_SAMPLE (42 R176 to R179) -/

theorem arbCheck_agrees {v line : Bool} (h : line = v) (p a : State) : arbCheck v line p a = a := by
  simp [arbCheck, h]

theorem arbCheck_disagrees {v line : Bool} (h : line ≠ v) (p a : State) : arbCheck v line p a = arbLost p a := by
  simp [arbCheck, h]

/-- Settles O52: a line that agrees, and a lost arbitration. -/
theorem arbitrationIsCheckedAtTSample : Obligations.ArbitrationIsCheckedAtTSample := by
  intro s v i hi hv hs hbit hr
  rw [exec_cecBitTx hi, txBitCycle_sample hv hs hr, if_pos hbit]
  refine ⟨fun hagree => ?_, fun hlost => ?_⟩
  · rw [arbCheck_agrees hagree]
  · rw [arbCheck_disagrees hlost]
    exact ⟨_, rfl, toNat_satInc s.tx.retry, rfl⟩

theorem ackGood_iff {line : Bool} {s : State} : ackGood line s = true ↔ line = s.tx.bcast := by
  rw [ackGood]
  cases s.tx.bcast <;> simp

theorem ackCount_eq (s : State) : ackCount s s = { s with shared := ackedShared s } := by
  simp only [ackCount, ackedShared, Bool.and_eq_true, beq_iff_eq, Bool.not_eq_true']

/-- LENGTH after a good ACK counts the blocks not yet ACKed. -/
theorem toNat_ackedShared_length {s : State} (h : s.cec.blk.toNat < s.tx.len.toNat) :
    (ackedShared s).length.toNat + (s.cec.blk.toNat + 1) = s.tx.len.toNat := by
  show (s.tx.len - (s.cec.blk + 1)).toNat + (s.cec.blk.toNat + 1) = s.tx.len.toNat
  bv_omega

/-- A good ACK ends the transmission at its last block and only counts at another one (42 R178). -/
theorem ackCheck_good {line : Bool} {s : State} (hgood : line = s.tx.bcast) :
    ackCheck line s s =
      if s.cec.blk = s.tx.len - 1 then txDone { s with shared := ackedShared s }
      else { s with shared := ackedShared s } := by
  rw [ackCheck, if_pos (ackGood_iff.2 hgood), ackCount_eq]

theorem ackCheck_missing {line : Bool} {s : State} (hbad : line ≠ s.tx.bcast) : ackCheck line s s = ackFail s s := by
  rw [ackCheck, if_neg (mt ackGood_iff.1 hbad)]

/-- Settles O53: a good ACK of the last block and of another one, and a missing ACK. -/
theorem ackIsReadAtTSample : Obligations.AckIsReadAtTSample := by
  intro s hv hs h9 hr hblk
  have hbit : ¬s.cec.bit.toNat ≤ 8 := by rw [h9]; decide
  have hlength := toNat_ackedShared_length hblk
  rw [exec_cecBitTx (v := true) (i := .cecBit1Tx) rfl, txBitCycle_sample hv hs hr, if_neg hbit]
  by_cases hgood : s.sync.cec.s2 = s.tx.bcast
  · rw [ackCheck_good hgood]
    by_cases hlast : s.cec.blk.toNat + 1 = s.tx.len.toNat
    · rw [if_pos (show s.cec.blk = s.tx.len - 1 by bv_omega)]
      refine ⟨_, rfl, ⟨rfl, rfl, rfl, rfl⟩, rfl, ?_⟩
      rw [if_pos hgood, if_pos hlast]
      exact ⟨rfl, hlength, rfl, rfl, rfl, rfl⟩
    · rw [if_neg (show s.cec.blk ≠ s.tx.len - 1 by bv_omega)]
      refine ⟨_, rfl, ⟨rfl, rfl, rfl, rfl⟩, rfl, ?_⟩
      rw [if_pos hgood, if_neg hlast]
      exact ⟨rfl, hlength, rfl, rfl, rfl, rfl⟩
  · rw [ackCheck_missing hgood]
    refine ⟨_, rfl, ⟨rfl, rfl, rfl, rfl⟩, rfl, ?_⟩
    rw [if_neg hgood]
    exact ⟨rfl, rfl, rfl, rfl, rfl⟩

/-! ### The end of the period at T_BIT (42 R174, R175) -/

/-- `next_bit()` by the block `k` and the place `j` of the bit that follows. -/
theorem nextBit_eq {s : State} {k j : Nat} (hk : k = if s.cec.bit.toNat < 9 then s.cec.blk.toNat else s.cec.blk.toNat + 1)
    (hj : j = if s.cec.bit.toNat < 9 then s.cec.bit.toNat + 1 else 0) (a : State) :
    nextBit s a = startTxBit k j s a := by
  subst hk hj
  unfold nextBit
  split <;> rfl

/-- Settles O54: the cycle is `next_bit()`, and TX_BUF has the block it goes to. -/
theorem nextBitStartsAtTBit : Obligations.NextBitStartsAtTBit := by
  intro s v i k j hi hv hs _ hr hk hj hk16
  obtain ⟨-, -, hcap, -⟩ := valid_decided hv
  rw [exec_cecBitTx hi, txBitCycle_end hv hs hr, nextBit_eq hk hj, startTxBit_eq (by omega), ← hs]
  rfl

end Sys2Proof.Machine
end

section
/-! SUPPORT. The cycles of the I2C engine one at a time: a condition, an address byte, a read byte, and the strobes that
complete no row (43 R201 to R214; log 6). -/

namespace Sys2Proof.Machine

/-! ### Conditions (43 R201, R202) -/

/-- Settles O38: each condition is one write to the engine's registers. -/
theorem conditionsRestartOrEndTheTransaction : Obligations.ConditionsRestartOrEndTheTransaction :=
  fun _ => ⟨rfl, rfl⟩

/-! ### Address bytes (43 R203 to R207) -/

/-- An address byte as a number: the address above the direction bit (30 R81). -/
theorem addressByte_eq_ofNat (a : BitVec 7) (r : Bool) : addressByte a r = BitVec.ofNat 8 (2 * a.toNat + r.toNat) := by
  revert a r; decide

/-- The 8th rise of an address byte. -/
theorem addressDecide_eq {s : State} (h7 : s.i2c.bitcnt = 7#4) (a : BitVec 7) (r : Bool) :
    addressDecide a r s s = { s with i2c := { s.i2c with
      shift := BitVec.ofNat 8 (2 * a.toNat + r.toNat), bitcnt := 8#4, rw := r, accept := decide (a = s.cfg.i2cAddr) } } := by
  simp only [addressDecide, byteArrives, h7, addressByte_eq_ofNat]
  rfl

/-- The ACK or NAK of an address byte, as one write to the engine's registers. -/
theorem addressAck_eq (s : State) :
    addressAck s s = { s with i2c :=
      if s.i2c.accept then { s.i2c with bitcnt := 0#4, sdaOe := true, state := .addrAck }
      else { s.i2c with bitcnt := 0#4, state := .ignore } } := by
  unfold addressAck
  split <;> rfl

section

variable {s : State} {a : BitVec 7} {r : Bool} {i : Instr} (hi : i = if r then .addrRead a else .addrWrite a)
  (hs : s.i2c.state = .addr)
include hi hs

/-- In ADDR both directions do the same (43 R204, R205). -/
theorem exec_address : exec i s = .next (addressCycle a r s s) := by
  subst hi
  cases r
  · show applyAddrWrite a s s = _
    simp only [applyAddrWrite, hs]
  · show applyAddrRead a s s = _
    simp only [applyAddrRead, hs]

theorem exec_address_eighthRise (h7 : s.i2c.bitcnt = 7#4) :
    exec i s = .next { s with i2c := { s.i2c with
      shift := BitVec.ofNat 8 (2 * a.toNat + r.toNat), bitcnt := 8#4, rw := r, accept := decide (a = s.cfg.i2cAddr) } } := by
  rw [exec_address hi hs, addressCycle, if_pos h7, addressDecide_eq h7]

theorem exec_address_fall (h8 : s.i2c.bitcnt = 8#4) :
    exec i s = .next { s with i2c :=
      if s.i2c.accept then { s.i2c with bitcnt := 0#4, sdaOe := true, state := .addrAck }
      else { s.i2c with bitcnt := 0#4, state := .ignore } } := by
  rw [exec_address hi hs, addressCycle, if_neg (by simp [h8]), if_pos h8, addressAck_eq]

end

/-- The fall that ends the ACK clock of a write (43 R206). -/
theorem exec_addrWrite_ackEnds {s : State} (hs : s.i2c.state = .addrAck) (a : BitVec 7) :
    exec (.addrWrite a) s = .next (toWrite s) := by
  show applyAddrWrite a s s = _
  simp only [applyAddrWrite, hs]

/-- The fall that ends the ACK clock of a read (43 R207). -/
theorem exec_addrRead_ackEnds {s : State} (hs : s.i2c.state = .addrAck) (a : BitVec 7) :
    exec (.addrRead a) s = toRead s s := by
  show applyAddrRead a s s = _
  simp only [applyAddrRead, hs]

/-- Settles O39: the two cycles in ADDR with the direction bit 0, and the end of the ACK clock. -/
theorem addressWriteInThreeCycles : Obligations.AddressWriteInThreeCycles := fun _ a =>
  ⟨exec_address_eighthRise (r := false) rfl, exec_address_fall (r := false) rfl, fun hs => exec_addrWrite_ackEnds hs a⟩

/-- Settles O40: the two cycles in ADDR with the direction bit 1, and the load of the window's first byte. -/
theorem addressReadInThreeCycles : Obligations.AddressReadInThreeCycles := by
  refine fun s a => ⟨exec_address_eighthRise (r := true) rfl, exec_address_fall (r := true) rfl, fun x hs hx => ?_⟩
  rw [exec_addrRead_ackEnds hs, toRead, hx]
  rfl

/-! ### Read bytes (43 R211 to R213) -/

theorem exec_readByte_bitClock {s : State} (hs : s.i2c.state = .rdData) (m : Bool) :
    exec (.readByte m) s = readClock s s := by
  show applyReadByte m s s = _
  simp only [applyReadByte, hs]

theorem exec_readByte_answer {s : State} (hs : s.i2c.state = .rdAck) (m : Bool) :
    exec (.readByte m) s = .next (masterAck m s) := by
  show applyReadByte m s s = _
  simp only [applyReadByte, hs]

theorem exec_readByte_load {s : State} (hs : s.i2c.state = .rdAcked) (m : Bool) :
    exec (.readByte m) s = nextRead s s := by
  show applyReadByte m s s = _
  simp only [applyReadByte, hs]

/-- Settles O41, state by state. -/
theorem readByteInItsCycles : Obligations.ReadByteInItsCycles := by
  refine fun s m => ⟨fun hs hn => ?_, fun hs h7 => ?_, fun hs => exec_readByte_answer hs m, fun x hs hx => ?_⟩
  · have h7 : s.i2c.bitcnt ≠ 7#4 := fun h => by simp [h] at hn
    rw [exec_readByte_bitClock hs, readClock, if_neg h7, if_pos hn]
  · rw [exec_readByte_bitClock hs, readClock, if_pos h7]
    exact ⟨_, rfl, toNat_satInc s.i2c.rdptr, rfl⟩
  · rw [exec_readByte_load hs, nextRead, hx]
    rfl

/-! ### Strobes that complete no row (43 R203, R209, R210, R214) -/

/-- A rise acts only in a byte that the master writes and in the clock of its answer. -/
theorem i2cOn_rise_quiet {s : State} (haddr : s.i2c.state ≠ .addr) (hwr : s.i2c.state ≠ .wrData)
    (hack : s.i2c.state ≠ .rdAck) (b : Bool) (a : State) : i2cOn (.rise b) s a = .next a := by
  cases hs : s.i2c.state with
  | addr => exact absurd hs haddr
  | wrData => exact absurd hs hwr
  | rdAck => exact absurd hs hack
  | _ => simp only [i2cOn, fetchI2cOn, hs, betweenI2c]

/-- A fall does nothing while the engine waits for a condition or for the master's answer. -/
theorem i2cOn_fall_quiet {s : State} (hs : s.i2c.state = .idle ∨ s.i2c.state = .ignore ∨ s.i2c.state = .rdAck) (a : State) :
    i2cOn .fall s a = .next a := by
  rcases hs with hs | hs | hs <;> simp only [i2cOn, fetchI2cOn, hs, betweenI2c]

/-- The fall after the 8th bit of a data byte (43 R209). -/
theorem i2cOn_fall_dataByte {s : State} (hs : s.i2c.state = .wrData) (h8 : s.i2c.bitcnt = 8#4) :
    i2cOn .fall s s = .next { s with i2c :=
      if s.i2c.accept then { s.i2c with bitcnt := 0#4, sdaOe := true, state := .wrAck }
      else { s.i2c with bitcnt := 0#4, state := .ignore } } := by
  simp only [i2cOn, fetchI2cOn, hs, betweenI2c, h8, if_true, dataAck]
  split <;> rfl

/-- The fall that ends the ACK clock of a data byte (43 R210). -/
theorem i2cOn_fall_wrAck {s : State} (hs : s.i2c.state = .wrAck) : i2cOn .fall s s = .next (ackEnd s) := by
  simp only [i2cOn, fetchI2cOn, hs, betweenI2c]

end Sys2Proof.Machine
end

section
/-! SUPPORT. An action without its payload: its command byte, the bits of a payload byte that does not complete, and the
condition that ends the transaction (44 R242, R244; log 8). -/

namespace Sys2Proof.Machine

/-! ### The command byte (44 R242) -/

theorem actionCommandByte_eq (c : Byte) (s : State) :
    actionCommandByte c s s = { s with i2c := { s.i2c.afterByte c true with cmd := c } } := rfl

/-- Each of the five action codes is decoded as its row without a payload byte. -/
theorem applyI2c_decodeCommand_action {c : Byte} (hc : isAction c = true) (s : State) :
    applyI2c (decodeCommand c) s s = .next { s with i2c := { s.i2c.afterByte c true with cmd := c } } := by
  rw [← actionCommandByte_eq]
  rcases (isAction_iff c).1 hc with rfl | rfl | rfl | rfl | rfl <;> rfl

theorem i2cOn_actionCommand {s : State} {sda : Bool} (hs : s.i2c.state = .wrData) (h7 : s.i2c.bitcnt = 7#4)
    (h0 : s.i2c.byteno = 0#5) (hc : isAction (shiftIn s.i2c.shift sda) = true) :
    i2cOn (.rise sda) s s = .next { s with i2c :=
      { s.i2c.afterByte (shiftIn s.i2c.shift sda) true with cmd := shiftIn s.i2c.shift sda } } := by
  rw [i2cOn_eighthRise_wrData hs h7, dataByteRow, if_pos h0, applyI2c_decodeCommand_action hc]

/-- A condition changes the I2C engine alone. -/
theorem exec_condition_frame {i : Instr} (hi : i = .i2cStart ∨ i = .i2cStop) (s : State) :
    ∃ t, exec i s = .next t ∧ SameCec s t ∧ t.shared = s.shared ∧ t.win = s.win ∧ t.env = s.env := by
  rcases hi with rfl | rfl <;> exact ⟨_, rfl, ⟨rfl, rfl, rfl, rfl, rfl⟩, rfl, rfl, rfl⟩

/-! ### Bits that complete no byte (43 R203) -/

theorem receivingByte_iff {s : State} : receivingByte s = true ↔ s.i2c.state = .addr ∨ s.i2c.state = .wrData := by
  simp only [receivingByte, Bool.or_eq_true, beq_iff_eq]

/-- The bits of a byte before its 8th are shifted in and counted. -/
theorem runClocks_bits (bits : List Bool) : ∀ {s : State}, receivingByte s = true →
    s.i2c.bitcnt.toNat + bits.length ≤ 7 →
    runClocks (bits.flatMap bitClock) s = .next { s with i2c := { s.i2c with
      shift := bits.foldl shiftIn s.i2c.shift, bitcnt := s.i2c.bitcnt + BitVec.ofNat 4 bits.length } } := by
  induction bits with
  | nil => intro s _ _; simp
  | cons b bits ih =>
    intro s h hn
    rw [List.length_cons] at hn
    have hnext : (sampled b s).i2c.bitcnt.toNat = s.i2c.bitcnt.toNat + 1 := bit_add_one (by omega)
    have hcount : s.i2c.bitcnt + 1 + BitVec.ofNat 4 bits.length = s.i2c.bitcnt + BitVec.ofNat 4 (bits.length + 1) := by
      rw [BitVec.ofNat_add, BitVec.add_assoc, BitVec.add_comm 1]
      rfl
    rw [List.flatMap_cons, runClocks_bitClock b h (by omega), ih (by rwa [receivingByte_sampled]) (by omega),
      List.length_cons, ← hcount]
    rfl

/-- A STOP or a repeated START in an unfinished byte: the rise before it samples a bit. -/
theorem runClocks_stop_unfinished {s : State} (h : receivingByte s = true) (hn : s.i2c.bitcnt ≠ 7#4) :
    runClocks stopClocks s = .next (i2cStopCondition (sampled false s)) := by
  rw [stopClocks, runClocks_cons, i2cOn_rise h hn]
  rfl

theorem runClocks_restart_unfinished {s : State} (h : receivingByte s = true) (hn : s.i2c.bitcnt ≠ 7#4) :
    runClocks restartClocks s = .next (i2cStartCondition (sampled true s)) := by
  rw [restartClocks, runClocks_cons, i2cOn_rise h hn]
  rfl

/-- `S W(x) c` and fewer bits of a payload byte than the condition's own bit would complete. -/
theorem runClocks_unfinishedPayload {c : Byte} (hc : isAction c = true) {bits : List Bool} (hbits : bits.length < 7)
    (s : State) :
    ∃ r : I2cRegs, runClocks (writeClocks s.cfg [c] ++ bits.flatMap bitClock) s = .next { s with i2c := r } ∧
      r.state = .wrData ∧ r.bitcnt ≠ 7#4 ∧ r.cmd = c := by
  obtain ⟨r, hstart, hst, hb, hn⟩ := runClocks_startWrite s
  obtain ⟨r', hcmd, hat⟩ := runClocks_actionCommand (s := { s with i2c := r }) hc hst hb hn
  have hrun := runClocks_bits bits (s := { s with i2c := r' }) (receivingByte_iff.2 (.inr hat.state))
    (by simp only [hat.bitcnt, BitVec.toNat_ofNat]; omega)
  refine ⟨{ r' with shift := bits.foldl shiftIn r'.shift, bitcnt := r'.bitcnt + BitVec.ofNat 4 bits.length }, ?_,
    hat.state, fun h => ?_, hat.cmd⟩
  · rw [writeClocks_eq, List.flatMap_singleton, runClocks_append, runClocks_append, hstart, andThen_next, hcmd, andThen_next]
    exact hrun
  · have hcount : (r'.bitcnt + BitVec.ofNat 4 bits.length).toNat = 7 := congrArg BitVec.toNat h
    rw [hat.bitcnt, BitVec.zero_add, BitVec.toNat_ofNat] at hcount
    omega

/-- Settles O31, clause by clause: the command bytes, the cycles that complete no row, and the whole transaction. -/
theorem actionWithoutPayloadDoesNothing : Obligations.ActionWithoutPayloadDoesNothing := by
  refine ⟨fun s => ⟨rfl, rfl, rfl, rfl, rfl⟩, ?_, fun s sda hs => ⟨fun hn => ?_, fun hn => ?_⟩,
    fun s => i2cOn_fall_dataByte, fun s => i2cOn_fall_wrAck, fun s sda => ⟨fun hs => ⟨?_, ?_⟩, fun hs => ?_, fun hs => ?_⟩,
    fun s c bits hc hbits => ?_⟩
  · rintro s sda _ hs h7 h0 rfl hc
    exact ⟨i2cOn_actionCommand hs h7 h0 hc, fun i hi => exec_condition_frame hi _⟩
  · exact i2cOn_rise (receivingByte_iff.2 hs) fun h => by simp [h] at hn
  · exact i2cOn_fall (receivingByte_iff.2 hs) fun h => by simp [h] at hn
  · rcases hs with hs | hs <;> exact i2cOn_rise_quiet (by simp [hs]) (by simp [hs]) (by simp [hs]) sda s
  · exact i2cOn_fall_quiet (hs.imp_right .inl) s
  · rcases hs with hs | hs | hs | hs <;> exact i2cOn_rise_quiet (by simp [hs]) (by simp [hs]) (by simp [hs]) sda s
  · exact i2cOn_fall_quiet (.inr (.inr hs)) s
  · obtain ⟨r, hrun, hst, hn, hcmd⟩ := runClocks_unfinishedPayload hc hbits s
    have hrec : receivingByte { s with i2c := r } = true := receivingByte_iff.2 (.inr hst)
    constructor <;> rw [runClocks_append, hrun, andThen_next]
    · exact ⟨_, runClocks_stop_unfinished hrec hn, rfl, rfl, rfl, hcmd⟩
    · exact ⟨_, runClocks_restart_unfinished hrec hn, rfl, rfl, rfl, rfl, hcmd⟩

end Sys2Proof.Machine
end

section
/-! SUPPORT. When SDA_OE changes (43 R216). The idea: of the strobes, only a fall of SCL and the two conditions write it, and
no cycle writes it twice, since the CEC engine leaves the I2C engine's registers alone. -/

namespace Sys2Proof.Machine

/-- What each strobe of a cycle says of the lines (43 R200). -/
theorem i2cStrobe_cases {s : State} {st : I2cStrobe} (h : i2cStrobe s = some st) :
    (st = .start ∧ i2cStartStrobe s = true) ∨ (st = .stop ∧ i2cStopStrobe s = true) ∨ (∃ b, st = .rise b) ∨
      (st = .fall ∧ s.sync.scl.fall = true) := by
  unfold i2cStrobe at h
  split_ifs at h with hstart hstop hrise hfall
  · exact .inl ⟨(Option.some.inj h).symm, hstart⟩
  · exact .inr (.inl ⟨(Option.some.inj h).symm, hstop⟩)
  · exact .inr (.inr (.inl ⟨_, (Option.some.inj h).symm⟩))
  · exact .inr (.inr (.inr ⟨(Option.some.inj h).symm, hfall⟩))

/-- The 8th rise of a data byte is a move of the dispatcher (43 R208), whatever state it writes over. -/
theorem i2cOn_eighthRise_move {s a t : State} {b : Bool} (hst : i2cStrobe s = some (.rise b))
    (hs : s.i2c.state = .wrData) (h7 : s.i2c.bitcnt = 7#4) (h : i2cOn (.rise b) s a = .next t) : DataByteMove s a t := by
  have hfetch : fetchI2cOn (.rise b) s = some (dataByteRow s (shiftIn s.i2c.shift b)) := by
    simp only [fetchI2cOn, hs, h7, if_true, dataByteRow]
  simp only [i2cOn, hfetch] at h
  by_cases h0 : s.i2c.byteno = 0#5
  · rw [dataByteRow, if_pos h0] at h
    obtain ⟨u, hu, hmove⟩ := decodeCommand_move (s := s) (a := a) (shiftIn s.i2c.shift b)
    exact Host.Outcome.next.inj (hu.symm.trans h) ▸ hmove
  · rw [dataByteRow, if_neg h0] at h hfetch
    rw [applyI2c_decodePayload] at h
    refine applyPayloadByte_move (fun hcmd hfirst => softResetNow_eq_true.2 ⟨shiftIn s.i2c.shift b, ?_⟩) h
    rw [fetchI2c_eq_some]
    exact ⟨_, hst, by rw [hfetch, hcmd, hfirst]; rfl⟩

/-- No rise of SCL writes SDA_OE (43 R203, R204, R208, R212). -/
theorem i2cOn_rise_sdaOe {s a t : State} {b : Bool} (hst : i2cStrobe s = some (.rise b))
    (h : i2cOn (.rise b) s a = .next t) : t.i2c.sdaOe = a.i2c.sdaOe := by
  by_cases haddr : s.i2c.state = .addr
  · by_cases h7 : s.i2c.bitcnt = 7#4
    · simp only [i2cOn, fetchI2cOn, haddr, h7, if_true, applyI2c_decodeAddress haddr, addressCycle] at h
      exact Host.Outcome.next.inj h ▸ rfl
    · simp only [i2cOn, fetchI2cOn, haddr, h7, if_false, betweenI2c] at h
      exact Host.Outcome.next.inj h ▸ rfl
  by_cases hwr : s.i2c.state = .wrData
  · by_cases h7 : s.i2c.bitcnt = 7#4
    · obtain ⟨-, -, hoe⟩ := dataByteMove_i2c (i2cOn_eighthRise_move hst hwr h7 h)
      exact hoe
    · simp only [i2cOn, fetchI2cOn, hwr, h7, if_false, betweenI2c] at h
      exact Host.Outcome.next.inj h ▸ rfl
  by_cases hack : s.i2c.state = .rdAck
  · simp only [i2cOn, fetchI2cOn, hack, applyI2c, applyReadByte] at h
    exact Host.Outcome.next.inj h ▸ rfl
  · exact Host.Outcome.next.inj (h.symm.trans (i2cOn_rise_quiet haddr hwr hack b a)) ▸ rfl

/-- The I2C engine writes SDA_OE at a fall of SCL, and releases SDA at a condition. -/
theorem i2cEngine_sdaOe {s a t : State} (h : i2cEngine s a = .next t) (hne : t.i2c.sdaOe ≠ a.i2c.sdaOe) :
    s.sync.scl.fall = true ∨ ((i2cStartStrobe s = true ∨ i2cStopStrobe s = true) ∧ t.i2c.sdaOe = false) := by
  unfold i2cEngine at h
  split at h
  next st hst =>
    rcases i2cStrobe_cases hst with ⟨rfl, hstart⟩ | ⟨rfl, hstop⟩ | ⟨b, rfl⟩ | ⟨rfl, hfall⟩
    · exact .inr ⟨.inl hstart, Host.Outcome.next.inj h ▸ rfl⟩
    · exact .inr ⟨.inr hstop, Host.Outcome.next.inj h ▸ rfl⟩
    · exact absurd (i2cOn_rise_sdaOe hst h) hne
    · exact .inl hfall
  next => exact absurd (Host.Outcome.next.inj h ▸ rfl) hne

/-- In either order of the two engines the I2C engine's registers go from the pre-state to what it alone writes (45 R279). -/
theorem cycle_i2c {s t : State} (h : cycle s = .next t) :
    ∃ a u, a.i2c = s.i2c ∧ i2cEngine s a = .next u ∧ t.i2c = u.i2c := by
  rcases cycle_eq_next h with ⟨-, u, hi, hc⟩ | ⟨-, a, hc, hi⟩
  · exact ⟨background s, u, rfl, hi, (cecEngine_frame hc).i2c⟩
  · exact ⟨a, t, (cecEngine_frame hc).i2c, hi, rfl⟩

/-- Settles O19. Out of reset a step is a cycle, and SDA_OE is what the I2C engine writes in it. -/
theorem sdaChangesOnlyAtSclFall : Obligations.SdaChangesOnlyAtSclFall := by
  intro s t h hr hne
  obtain ⟨-, ⟨hlow, -⟩ | ⟨-, -, hcycle⟩⟩ := step_eq_next.1 h
  · exact absurd (hr.symm.trans hlow) (by decide)
  · obtain ⟨a, u, ha, hi, hu⟩ := cycle_i2c hcycle
    rw [portSdaOe, portSdaOe, hu, ← ha] at hne
    rw [portSdaOe, hu]
    exact i2cEngine_sdaOe hi hne

end Sys2Proof.Machine
end

section
/-! SUPPORT. The command bytes of the dispatcher: a load sets the read window and its bytes, a reserved code is refused
(44 R241, R242, R245 to R250). -/

namespace Sys2Proof.Machine

/-! ### The bytes of a window (44 R241) -/

/-- A window of one byte. -/
theorem readOut_oneByte {s : State} {v : Byte} (hlen : s.win.readLen = 1#5) (h0 : readOut s 0#5 = .ok v) (p : BitVec 5) :
    readOut s p = .ok (if p = 0#5 then v else 0xFF#8) := by
  split
  next hp => rw [hp, h0]
  next hp => exact readOut_outside (by rw [hlen]; bv_omega)

/-- A window of two bytes. -/
theorem readOut_twoBytes {s : State} {v w : Byte} (hlen : s.win.readLen = 2#5) (h0 : readOut s 0#5 = .ok v)
    (h1 : readOut s 1#5 = .ok w) (p : BitVec 5) :
    readOut s p = .ok (if p = 0#5 then v else if p = 1#5 then w else 0xFF#8) := by
  split_ifs with hp hp'
  · rw [hp, h0]
  · rw [hp', h1]
  · exact readOut_outside (by rw [hlen]; bv_omega)

/-- A window on ID_SEQ as long as ID_SEQ. -/
theorem readOut_id {s : State} {l : List Byte} (hsel : s.win.readSel = .id) (hid : s.cfg.idSeq = l)
    (hlen : s.win.readLen.toNat = l.length) (p : BitVec 5) : readOut s p = .ok (l.getD p.toNat 0xFF#8) := by
  rcases Nat.lt_or_ge p.toNat l.length with hp | hp
  · simp only [readOut, hlen, Nat.not_le.2 hp, if_false, hsel, hid, List.getElem?_eq_getElem hp,
      List.getD_eq_getElem _ _ hp]
  · rw [readOut_outside (hlen ▸ hp), List.getD_eq_default _ _ hp]

/-! ### The loads (44 R242, R245 to R249) -/

/-- A load sets the I2C engine's registers and the window (44 R242). -/
theorem loadCommand_eq (c : Byte) (sel : ReadSel) (len : BitVec 5) (s : State) :
    loadCommand c sel len s s = { s with
      i2c := { s.i2c.afterByte c true with cmd := c }
      win := { s.win with readSel := sel, readLen := len } } := rfl

theorem exec_loadId (s : State) : exec .loadId s = .next (loadCommand codeLoadId .id 5#5 s s) := rfl
theorem exec_loadAddr (s : State) : exec .loadAddr s = .next (loadCommand codeLoadAddr .addr 1#5 s s) := rfl
theorem exec_loadTaken (s : State) : exec .loadTaken s = .next (loadCommand codeLoadTaken .taken 2#5 s s) := rfl
theorem exec_loadLength (s : State) : exec .loadLength s = .next (loadCommand codeLoadLength .length 1#5 s s) := rfl
theorem exec_loadBuffer (s : State) :
    exec .loadBuffer s = .next (loadCommand codeLoadBuffer .buffer s.shared.length s s) := rfl

/-- Settles O27: the window on ID_SEQ is as long as a valid configuration's ID_SEQ. -/
theorem loadIdSelectsTheIdentification : Obligations.LoadIdSelectsTheIdentification := by
  intro s
  refine ⟨_, exec_loadId s, loadCommand_eq _ _ _ s, fun hv p => ?_⟩
  obtain ⟨-, -, -, -, hid⟩ := valid_decided hv
  exact readOut_id (s := loadCommand codeLoadId .id 5#5 s s) rfl hid rfl p

/-- Settles O28: two windows of one byte and one of two. -/
theorem loadsSelectTheirRegister : Obligations.LoadsSelectTheirRegister := fun s =>
  ⟨⟨_, exec_loadAddr s, loadCommand_eq _ _ _ s, readOut_oneByte rfl rfl⟩,
    ⟨_, exec_loadTaken s, loadCommand_eq _ _ _ s, readOut_twoBytes rfl rfl rfl⟩,
    ⟨_, exec_loadLength s, loadCommand_eq _ _ _ s, readOut_oneByte rfl rfl⟩⟩

/-- Settles O29: the window on BUF is as long as LENGTH. -/
theorem loadBufferSelectsTheBuffer : Obligations.LoadBufferSelectsTheBuffer := by
  intro s
  refine ⟨_, exec_loadBuffer s, loadCommand_eq _ _ _ s, fun hv hlen p => ?_⟩
  obtain ⟨-, -, hcap, -⟩ := valid_decided hv
  have hread := readOut_buffer (s := loadCommand codeLoadBuffer .buffer s.shared.length s s) rfl hcap hlen p.isLt
  rwa [BitVec.ofNat_toNat, BitVec.setWidth_eq] at hread

/-! ### A reserved code (44 R250) -/

theorem exec_reservedCommand (c : Byte) (s : State) : exec (.reservedCommand c) s = .next { s with
    i2c := { s.i2c.afterByte c false with cmd := c }
    env := { s.env with events := s.env.events ++ [.badCmd c] } } := rfl

/-- The fall after a data byte that was NAKed enters IGNORE (43 R209). -/
theorem i2cOn_fall_nak {s : State} (hs : s.i2c.state = .wrData) (h8 : s.i2c.bitcnt = 8#4) (hnak : s.i2c.accept = false) :
    i2cOn .fall s s = .next { s with i2c := { s.i2c with state := .ignore, bitcnt := 0#4 } } := by
  rw [i2cOn_fall_dataByte hs h8, hnak]
  rfl

/-- Settles O30. The byte that is NAKed is the one whose eighth bit the fall follows. -/
theorem reservedCommandIsRefused : Obligations.ReservedCommandIsRefused := fun s c _ =>
  ⟨_, exec_reservedCommand c s, rfl, fun hs h7 => i2cOn_fall_nak hs (congrArg (· + 1) h7) rfl⟩

end Sys2Proof.Machine
end

section
/-! SUPPORT. The payload bytes of the dispatcher: which action a byte belongs to, and what each action does with it
(44 R243, R251 to R255). -/

namespace Sys2Proof.Machine

/-! ### The rows of the payload bytes -/

theorem exec_payloadByte (p : Byte) (s : State) : exec (.payloadByte p) s = applyPayloadByte p s s := rfl
theorem exec_setAddr_payload (p : Byte) (s : State) : exec (.setAddr (some p)) s = setAddrPayload p s s := rfl
theorem exec_stage_payload (p : Byte) (s : State) : exec (.stage (some p)) s = stagePayload p s s := rfl
theorem exec_cecSend_payload (p : Byte) (s : State) : exec (.cecSend (some p)) s = cecSendPayload p s s := rfl
theorem exec_monitorToggle_payload (p : Byte) (s : State) :
    exec (.monitorToggle (some p)) s = monitorTogglePayload p s s := rfl
theorem exec_softReset_payload (p : Byte) (s : State) : exec (.softReset (some p)) s = softResetPayload p s s := rfl

/-! ### The refusals (44 R243, R252, R253) -/

theorem refusePayload_eq (p : Byte) (s : State) : refusePayload p s s = { s with
    i2c := s.i2c.afterByte p false
    env := { s.env with events := s.env.events ++ [.badCmd s.i2c.cmd] } } := rfl

/-- A payload byte that an action NAKs with BUSY changes nothing else. -/
theorem busyPayload_eq (c p : Byte) (s : State) : emit (.busy c) (setAccept false (dataByteArrives p s s)) = { s with
    i2c := s.i2c.afterByte p false
    env := { s.env with events := s.env.events ++ [.busy c] } } := rfl

/-- No action takes a payload byte under another command, nor one after the first except STAGE. -/
theorem applyPayloadByte_refused {s : State} (p : Byte)
    (h : isAction s.i2c.cmd = false ∨ (s.i2c.cmd ≠ codeStage ∧ s.i2c.byteno ≠ 1#5)) :
    applyPayloadByte p s s = .next (refusePayload p s s) := by
  rcases h with hcmd | ⟨hstage, hn⟩
  · obtain ⟨haddr, hstage, hsend, hmonitor, hreset⟩ : s.i2c.cmd ≠ codeSetAddr ∧ s.i2c.cmd ≠ codeStage ∧
        s.i2c.cmd ≠ codeCecSend ∧ s.i2c.cmd ≠ codeMonitorToggle ∧ s.i2c.cmd ≠ codeSoftReset := by
      simpa only [ne_eq, isAction_iff, not_or] using Bool.eq_false_iff.1 hcmd
    simp only [applyPayloadByte, haddr, hstage, hsend, hmonitor, hreset, if_false, ite_self]
  · simp only [applyPayloadByte, hstage, hn, if_false]

/-- Settles O32, command by command. -/
theorem payloadByteByItsCommand : Obligations.PayloadByteByItsCommand := by
  intro s p _
  refine ⟨applyPayloadByte_stage p, applyPayloadByte_setAddr p, applyPayloadByte_cecSend p,
    applyPayloadByte_monitorToggle p, applyPayloadByte_softReset p, fun h => ?_⟩
  have hlater : 2 ≤ s.i2c.byteno.toNat → s.i2c.byteno ≠ 1#5 := by bv_omega
  rw [exec_payloadByte, applyPayloadByte_refused p (h.imp_right (And.imp_right hlater)), refusePayload_eq]

/-! ### SET_ADDR and MONITOR_TOGGLE (44 R251, R254) -/

theorem toNat_lowNibble (p : Byte) : (lowNibble p).toNat = p.toNat % 16 := by
  simp [lowNibble]

/-- Settles O33: the row writes the payload byte's low nibble. -/
theorem setAddrSetsTheCecAddress : Obligations.SetAddrSetsTheCecAddress := fun s p =>
  ⟨_, exec_setAddr_payload p s, toNat_lowNibble p, rfl⟩

/-- Settles O36: the row is that write. -/
theorem monitorToggleInvertsMonitor : Obligations.MonitorToggleInvertsMonitor := fun s p =>
  exec_monitorToggle_payload p s

/-! ### STAGE (44 R252) -/

theorem stageFits_iff {c : Config} (hv : c.Valid) (n : BitVec 5) :
    stageFits c n = true ↔ 1 ≤ n.toNat ∧ n.toNat ≤ 16 := by
  obtain ⟨-, -, hcap, -⟩ := valid_decided hv
  simp only [stageFits, hcap, Bool.and_eq_true, Nat.ble_eq]

/-- STAGE's byte goes to BUF when the receiver does not own BUF and BUF has a place for it. -/
theorem stagePayload_of_fits {s : State} (p : Byte) (hkeep : s.cec.keep = false)
    (hfits : stageFits s.cfg s.i2c.byteno = true) : stagePayload p s s = .next { s with
      i2c := s.i2c.afterByte p true
      shared := { s.shared with
        buf := writeMem s.shared.buf ((s.i2c.byteno - 1).setWidth 4).toNat p, length := s.i2c.byteno }
      win := { s.win with wrIdx := s.i2c.byteno } } := by
  rw [stagePayload, if_pos (by rw [hkeep, hfits]; rfl)]
  rfl

theorem stagePayload_refused {s : State} (p : Byte) (h : s.cec.keep = true ∨ stageFits s.cfg s.i2c.byteno = false) :
    stagePayload p s s = .next (emit (.busy codeStage) (setAccept false (dataByteArrives p s s))) := by
  rw [stagePayload, if_neg (by rcases h with h | h <;> simp [h])]

/-- Payload byte number `n` is the one with the index `n - 1`. -/
theorem toNat_stagePlace {n : BitVec 5} (h1 : 1 ≤ n.toNat) (h16 : n.toNat ≤ 16) :
    ((n - 1).setWidth 4).toNat + 1 = n.toNat := by
  bv_omega

/-- Settles O34: a byte that has a place in BUF, and one that is refused. -/
theorem stageWritesOneByte : Obligations.StageWritesOneByte := by
  intro s p hv h1
  refine ⟨fun hkeep h16 hwf => ?_, fun h => ?_⟩
  · have hplace := toNat_stagePlace h1 h16
    refine ⟨_, stagePayload_of_fits p hkeep ((stageFits_iff hv _).2 ⟨h1, h16⟩), fun a => ?_,
      wf_writeMem hwf (by rw [bufSize]; omega) p, rfl⟩
    rw [readMem_writeMem hwf, ← hplace]
    simp only [Nat.add_right_cancel_iff]
  · have hnofit : 16 < s.i2c.byteno.toNat → stageFits s.cfg s.i2c.byteno = false := fun h17 =>
      Bool.eq_false_iff.2 fun hfits => by
        obtain ⟨-, h16⟩ := (stageFits_iff hv _).1 hfits
        omega
    rw [exec_stage_payload, stagePayload_refused p (h.imp_right hnofit), busyPayload_eq]

/-! ### CEC_SEND (44 R253) -/

theorem sendRefused_iff {s : State} :
    sendRefused s = true ↔ s.tx.pending = true ∨ s.cec.keep = true ∨ s.shared.length = 0#5 := by
  simp [sendRefused, or_assoc]

theorem cecSendPayload_of_refused {s : State} (p : Byte) (h : sendRefused s = true) :
    cecSendPayload p s s = .next (emit (.busy codeCecSend) (setAccept false (dataByteArrives p s s))) := by
  rw [cecSendPayload, if_pos h]

theorem cecSendPayload_of_accepted {s : State} (p : Byte) (h : ¬sendRefused s = true) :
    cecSendPayload p s s = .next { s with
      i2c := s.i2c.afterByte p true
      tx := { s.tx with buf := s.shared.buf, len := s.shared.length, pending := true, retry := 0#8 } } := by
  rw [cecSendPayload, if_neg h]
  rfl

/-- Settles O35: the snapshot is BUF itself, or the row is refused. -/
theorem cecSendTakesTheSnapshot : Obligations.CecSendTakesTheSnapshot := by
  intro s p
  refine ⟨fun hpend hkeep hlen => ?_, fun h => ?_⟩
  · have hok : ¬sendRefused s = true := by simp [sendRefused_iff, hpend, hkeep, hlen]
    exact ⟨_, cecSendPayload_of_accepted p hok, fun _ => rfl, rfl⟩
  · rw [exec_cecSend_payload, cecSendPayload_of_refused p (sendRefused_iff.2 h), busyPayload_eq]

/-! ### SOFT_RESET (44 R255, 45 R279) -/

/-- Settles O37: outside the I2C engine the row writes the reset state. -/
theorem softResetResetsAllButTheI2cEngine : Obligations.SoftResetResetsAllButTheI2cEngine := fun s p =>
  ⟨_, exec_softReset_payload p s, rfl, rfl, rfl, rfl, fun _ => ⟨rfl, rfl⟩,
    fun _ _ _ hid hflags hv => registerById_softReset (s := s) rfl hid hflags hv⟩

/-- Settles O23. The I2C engine writes last in SOFT_RESET's cycle, over whatever the CEC engine wrote. -/
theorem softResetWinsItsCycle : Obligations.SoftResetWinsItsCycle := by
  intro s t h hr hs
  obtain ⟨-, ⟨hlow, -⟩ | ⟨-, -, hcycle⟩⟩ := step_eq_next.1 h
  · exact absurd (hr.symm.trans hlow) (by decide)
  obtain ⟨a, -, hi⟩ := andThen_eq_next.1 (cycle_of_softReset hs ▸ hcycle)
  obtain ⟨b, rfl⟩ := i2cEngine_of_softReset hs hi
  exact ⟨rfl, fun _ _ _ hid hflags hv => registerById_softReset (s := a) rfl hid hflags hv⟩

end Sys2Proof.Machine
end

section
/-! SUPPORT. The strobes of a cycle, and the arbiter's one collision in BUF: a STAGE byte that comes with a kept header
(45 R271 to R279). -/

namespace Sys2Proof.Machine

/-! ### The strobes (45 R270 to R272, R276) -/

theorem Sync.rise_iff {x : Sync} : x.rise = true ↔ x.p = false ∧ x.s2 = true := by simp [Sync.rise]

theorem Sync.fall_iff {x : Sync} : x.fall = true ↔ x.p = true ∧ x.s2 = false := by simp [Sync.fall]

theorem i2cStartStrobe_iff {s : State} :
    i2cStartStrobe s = true ↔ s.sync.scl.p = true ∧ s.sync.scl.s2 = true ∧ s.sync.sda.fall = true := by
  simp [i2cStartStrobe, and_assoc]

theorem i2cStopStrobe_iff {s : State} :
    i2cStopStrobe s = true ↔ s.sync.scl.p = true ∧ s.sync.scl.s2 = true ∧ s.sync.sda.rise = true := by
  simp [i2cStopStrobe, and_assoc]

/-- A line that was high and is high has no edge. -/
theorem no_edge_of_high {x : Sync} (hp : x.p = true) (h2 : x.s2 = true) : ¬(x.rise = true ∨ x.fall = true) := by
  simp [Sync.rise_iff, Sync.fall_iff, hp, h2]

/-- Settles O7. The two conditions are the two edges of SDA while SCL stays high; the lines of the witnesses are set as the
strobes ask. -/
theorem strobesAreExclusive : Obligations.StrobesAreExclusive := by
  refine ⟨fun s => ⟨?_, ?_, rise_fall_exclusive _, rise_fall_exclusive _, rise_fall_exclusive _, ?_, ?_, ?_⟩, ?_, ?_⟩
  · rw [i2cStartStrobe_iff, Sync.fall_iff]
  · rw [i2cStopStrobe_iff, Sync.rise_iff]
  · rintro ⟨hstart, hstop⟩
    obtain ⟨-, -, hfall⟩ := i2cStartStrobe_iff.1 hstart
    obtain ⟨-, -, hrise⟩ := i2cStopStrobe_iff.1 hstop
    exact rise_fall_exclusive _ ⟨hrise, hfall⟩
  · rintro ⟨hstart, hedge⟩
    obtain ⟨hp, h2, -⟩ := i2cStartStrobe_iff.1 hstart
    exact no_edge_of_high hp h2 hedge
  · rintro ⟨hstop, hedge⟩
    obtain ⟨hp, h2, -⟩ := i2cStopStrobe_iff.1 hstop
    exact no_edge_of_high hp h2 hedge
  · exact ⟨{ State.reset with sync := { State.reset.sync with
      sda := { s1 := false, s2 := false, p := true }, cec := { s1 := false, s2 := false, p := true } } }, rfl, rfl⟩
  · exact ⟨{ State.reset with sync := { State.reset.sync with
      scl := { s1 := true, s2 := true, p := false }, cec := { s1 := true, s2 := true, p := false } } }, rfl, rfl⟩

/-! ### STAGE against a kept header (45 R279, 70 R340) -/

theorem softResetNow_of_stage {s : State} {q : Option Byte} (h : fetchI2c s = some (.stage q)) : softResetNow s = false := by
  simp only [softResetNow, h]

/-- An accepted STAGE byte is ACKed, whatever the CEC engine writes in its cycle (44 R252). -/
theorem i2cEngine_of_stage {s : State} {p : Byte} (hfetch : fetchI2c s = some (.stage (some p)))
    (hkeep : s.cec.keep = false) (hfits : stageFits s.cfg s.i2c.byteno = true) :
    ∃ a, i2cEngine s (background s) = .next a ∧ a.i2c = s.i2c.afterByte p true := by
  rw [i2cEngine_of_fetch hfetch, applyI2c_background hfetch, applyI2c, applyStage, applyAction_some,
    stagePayload_of_fits p hkeep hfits]
  exact ⟨_, rfl, rfl⟩

/-- The CEC engine in a cycle with a measured bit, whatever state it writes over. -/
theorem cecEngine_of_bitRx {s : State} {l : BitVec 16} (hfetch : fetchCec s = some (.cecBitRx l))
    (hs : s.cec.state.Receiving) (a : State) :
    cecEngine s a = .next (receiveBit (decide (l.toNat < s.cfg.tMid)) s
      (clearTimer { a with cec := { a.cec with lastbit := decide (l.toNat < s.cfg.tMid) } })) := by
  rw [cecEngine_of_fetch hfetch, applyCec, ← classify_eq_decide]
  rcases hs with hs | hs <;> simp only [applyCecBitRx, hs]

/-- Settles O22. The CEC engine writes over what the I2C engine left, and its BUF is the pre-state's with the header. -/
theorem stageLosesToAKeptHeader : Obligations.StageLosesToAKeptHeader := by
  rintro s p l h hv hr hu hwf hi2c h1 h16 hcec hs h7 hkeep rfl hk
  have hfits : stageFits s.cfg s.i2c.byteno = true := (stageFits_iff hv _).2 ⟨h1, h16⟩
  obtain ⟨a, ha, hi2c'⟩ := i2cEngine_of_stage hi2c hkeep hfits
  have hstep : step s = cecEngine s a := by
    rw [step_eq_cycle hv hr hu, cycle_of_no_softReset (softResetNow_of_stage hi2c), ha, andThen_next]
  rw [cecEngine_of_bitRx hcec (.inl hs), receiveBit_headerKept hs h7 hk] at hstep
  exact ⟨_, hstep, congrArg I2cRegs.accept hi2c', rfl, rfl, readMem_writeMem hwf 0 _⟩

end Sys2Proof.Machine
end

section
/-! SUPPORT. The two engines do not read each other (45 R277, R278). The idea: an engine's cycle factors through two views of
the state. It computes the same from a pre-state in which everything that it does not read is blanked, and what it writes
comes out the same over a state in which everything but what it writes is blanked. -/

namespace Sys2Proof.Machine

/-! ### Views of a state -/

/-- An answer of which only a view is kept; a fault or a refusal stays. -/
def onView (view : State → State) (r : Result) : Result := andThen r fun t => .next (view t)

/-- `f` reads of the pre-state only the view `inp`, and its effect on the view `out` is on that view alone. -/
def FactorsThrough (inp out : State → State) (f : State → State → Result) : Prop :=
  ∀ p a, onView out (f p a) = onView out (f (inp p) (out a))

/-- Two runs that agree on the views agree on what comes out. -/
theorem FactorsThrough.agree {inp out : State → State} {f : State → State → Result} {p q a b t u : State}
    (h : FactorsThrough inp out f) (hpre : inp p = inp q) (hacc : out a = out b) (ht : f p a = .next t)
    (hu : f q b = .next u) : out t = out u := by
  have heq : onView out (f p a) = onView out (f q b) := by rw [h p a, h q b, hpre, hacc]
  rw [ht, hu] at heq
  exact Host.Outcome.next.inj heq

/-! ### What the CEC engine reads and what it alone writes (45 R278, R282) -/

/-- What the CEC engine reads, the rest at its reset value. -/
def cecInputs (s : State) : State :=
  { State.resetWith s.cfg with
    cec := s.cec, tx := s.tx, timer := s.timer
    sync := { (State.resetWith s.cfg).sync with cec := s.sync.cec }
    shared := { (State.resetWith s.cfg).shared with
      cecAddr := s.shared.cecAddr, monitor := s.shared.monitor, taken := s.shared.taken } }

/-- What the CEC engine alone writes, the rest at its reset value. -/
def cecOutputs (a : State) : State :=
  { State.reset with
    cec := a.cec, timer := a.timer
    tx := { State.reset.tx with v := a.tx.v, bcast := a.tx.bcast }
    shared := { State.reset.shared with taken := a.shared.taken } }

theorem cecOutputs_eq_iff {a b : State} : cecOutputs a = cecOutputs b ↔
    a.cec = b.cec ∧ a.timer = b.timer ∧ a.tx.v = b.tx.v ∧ a.tx.bcast = b.tx.bcast ∧ a.shared.taken = b.shared.taken := by
  simp [cecOutputs, and_assoc, and_comm, and_left_comm]

@[simp] theorem cecInputs_cfg (s : State) : (cecInputs s).cfg = s.cfg := rfl
@[simp] theorem cecInputs_cec (s : State) : (cecInputs s).cec = s.cec := rfl
@[simp] theorem cecInputs_tx (s : State) : (cecInputs s).tx = s.tx := rfl
@[simp] theorem cecInputs_sync_cec (s : State) : (cecInputs s).sync.cec = s.sync.cec := rfl
@[simp] theorem cecInputs_cecAddr (s : State) : (cecInputs s).shared.cecAddr = s.shared.cecAddr := rfl

@[simp] theorem isKept_cecInputs (s : State) (d : BitVec 4) : isKept (cecInputs s) d = isKept s d := rfl
@[simp] theorem reach_cecInputs (s : State) (n : Nat) : reach (cecInputs s) n = reach s n := rfl
@[simp] theorem opensAck_cecInputs (s : State) : opensAck (cecInputs s) = opensAck s := rfl
@[simp] theorem endsAck_cecInputs (s : State) : endsAck (cecInputs s) = endsAck s := rfl
@[simp] theorem timedOut_cecInputs (s : State) : timedOut (cecInputs s) = timedOut s := rfl
@[simp] theorem txGo_cecInputs (s : State) : txGo (cecInputs s) = txGo s := rfl
@[simp] theorem ackGood_cecInputs (line : Bool) (s : State) : ackGood line (cecInputs s) = ackGood line s := rfl
@[simp] theorem txBitValue_cecInputs (s : State) (k j : Nat) : txBitValue (cecInputs s) k j = txBitValue s k j := rfl
@[simp] theorem fetchCec_cecInputs (s : State) : fetchCec (cecInputs s) = fetchCec s := rfl

/-! ### The receiver (41) -/

theorem receiveBit_cecOutputs (b : Bool) (p a : State) :
    cecOutputs (receiveBit b p a) = cecOutputs (receiveBit b (cecInputs p) (cecOutputs a)) := by
  simp only [receiveBit, headerDecide, dataBlock, pingCheck, blockEnd]
  rw [cecInputs_cfg, cecInputs_cec, cecInputs_cecAddr, isKept_cecInputs]
  split_ifs <;> rfl

theorem applyCecBitRx_factors (l : BitVec 16) : FactorsThrough cecInputs cecOutputs (applyCecBitRx l) := by
  intro p a
  unfold applyCecBitRx
  rw [cecInputs_cec, cecInputs_cfg]
  split
  · exact congrArg Host.Outcome.next (receiveBit_cecOutputs _ p _)
  · exact congrArg Host.Outcome.next (receiveBit_cecOutputs _ p _)
  · rfl

theorem applyCecStartRx_factors (l : BitVec 16) : FactorsThrough cecInputs cecOutputs (applyCecStartRx l) := by
  intro p a
  unfold applyCecStartRx
  rw [cecInputs_cec, cecInputs_cfg]
  split
  · split <;> rfl
  · rfl

theorem applyCecAckDrive_factors : FactorsThrough cecInputs cecOutputs applyCecAckDrive := by
  intro p a
  unfold applyCecAckDrive ackDrive
  rw [cecInputs_cec, cecInputs_sync_cec, opensAck_cecInputs, endsAck_cecInputs]
  split
  · split_ifs <;> rfl
  · split_ifs <;> rfl
  · rfl

theorem betweenCec_cecOutputs (p a : State) :
    cecOutputs (betweenCec p a) = cecOutputs (betweenCec (cecInputs p) (cecOutputs a)) := by
  unfold betweenCec
  rw [cecInputs_cec, cecInputs_sync_cec, timedOut_cecInputs]
  split
  · split <;> rfl
  · split_ifs <;> rfl
  · split_ifs <;> rfl
  · rfl

/-! ### The transmitter (42) -/

theorem startTxBit_factors (k j : Nat) : FactorsThrough cecInputs cecOutputs (startTxBit k j) := by
  intro p a
  unfold startTxBit
  rw [txBitValue_cecInputs]
  split <;> rfl

theorem nextBit_factors : FactorsThrough cecInputs cecOutputs nextBit := by
  intro p a
  unfold nextBit
  rw [cecInputs_cec]
  split <;> exact startTxBit_factors _ _ p a

theorem arbCheck_cecOutputs (v line : Bool) (p a : State) :
    cecOutputs (arbCheck v line p a) = cecOutputs (arbCheck v line (cecInputs p) (cecOutputs a)) := by
  unfold arbCheck
  split <;> rfl

theorem ackCheck_cecOutputs (line : Bool) (p a : State) :
    cecOutputs (ackCheck line p a) = cecOutputs (ackCheck line (cecInputs p) (cecOutputs a)) := by
  unfold ackCheck
  rw [ackGood_cecInputs, cecInputs_cec, cecInputs_tx]
  split_ifs <;> rfl

theorem txBitCycle_factors (v line : Bool) : FactorsThrough cecInputs cecOutputs (txBitCycle v line) := by
  intro p a
  unfold txBitCycle
  rw [cecInputs_cec, cecInputs_cfg, reach_cecInputs, reach_cecInputs, reach_cecInputs]
  generalize (if v then p.cfg.t1Low else p.cfg.t0Low) = low
  split
  · split
    · rfl
    split
    · split
      · exact congrArg Host.Outcome.next (arbCheck_cecOutputs v line p a)
      · exact congrArg Host.Outcome.next (ackCheck_cecOutputs line p a)
    split
    · exact nextBit_factors p a
    · rfl
  · rfl

theorem applyCecStartTx_factors : FactorsThrough cecInputs cecOutputs applyCecStartTx := by
  intro p a
  unfold applyCecStartTx firstBit
  rw [cecInputs_cec, cecInputs_cfg, txGo_cecInputs, reach_cecInputs, reach_cecInputs]
  split
  · split <;> rfl
  · split
    · rfl
    split
    · exact startTxBit_factors 0 0 p a
    · rfl
  · rfl

/-! ### The CEC engine -/

theorem applyCec_factors (i : Instr) : FactorsThrough cecInputs cecOutputs (applyCec i) := by
  cases i with
  | cecStartRx l => exact applyCecStartRx_factors l
  | cecStartTx => exact applyCecStartTx_factors
  | cecBitRx l => exact applyCecBitRx_factors l
  | cecBit1Tx => exact fun p => txBitCycle_factors true p.sync.cec.s2 p
  | cecBit0Tx => exact fun p => txBitCycle_factors false p.sync.cec.s2 p
  | cecAckDrive => exact applyCecAckDrive_factors
  | _ => exact fun _ _ => rfl

theorem cecEngine_factors : FactorsThrough cecInputs cecOutputs cecEngine := by
  intro p a
  unfold cecEngine
  rw [fetchCec_cecInputs]
  split
  · exact applyCec_factors _ p a
  · exact congrArg Host.Outcome.next (betweenCec_cecOutputs p a)

/-- The background of a cycle ticks the timer, from what the CEC engine reads (40 R110). -/
theorem cecOutputs_background (s : State) : cecOutputs (background s) = cecOutputs (background (cecInputs s)) := rfl

theorem i2cMove_tx_v_bcast {s a t : State} (h : I2cMove s a t) (hs : softResetNow s = false) :
    t.tx.v = a.tx.v ∧ t.tx.bcast = a.tx.bcast := by
  rcases i2cMove_data_or_frame h with hd | ⟨-, -, htx⟩
  · cases hd with
    | softReset b hnow => exact absurd (hnow.symm.trans hs) (by decide)
    | _ => exact ⟨rfl, rfl⟩
  · rw [htx]
    exact ⟨rfl, rfl⟩

/-- Without SOFT_RESET the I2C engine writes nothing of what the CEC engine alone writes (45 R282). -/
theorem i2cEngine_cecOutputs {s a t : State} (hs : softResetNow s = false) (h : i2cEngine s a = .next t) :
    cecOutputs t = cecOutputs a := by
  have hframe := i2cEngine_frame hs h
  obtain ⟨hv, hbcast⟩ := i2cMove_tx_v_bcast (i2cEngine_move h) hs
  exact cecOutputs_eq_iff.2 ⟨hframe.cec, hframe.timer, hv, hbcast, hframe.taken⟩

/-- A step without either reset is the CEC engine's cycle over a state that has the background of what it writes. -/
theorem step_cecEngine {s t : State} (h : step s = .next t) (hr : (currentSample s).rstN = true)
    (hs : softResetNow s = false) : ∃ a, cecOutputs a = cecOutputs (background s) ∧ cecEngine s a = .next t := by
  obtain ⟨-, ⟨hlow, -⟩ | ⟨-, -, hcycle⟩⟩ := step_eq_next.1 h
  · exact absurd (hr.symm.trans hlow) (by decide)
  obtain ⟨a, hi, hc⟩ := andThen_eq_next.1 (cycle_of_no_softReset hs ▸ hcycle)
  exact ⟨a, i2cEngine_cecOutputs hs hi, hc⟩

/-- Settles O20. The two states have one view as the CEC engine reads them, and its cycle factors through that view. -/
theorem cecEngineIgnoresTheI2cBus : Obligations.CecEngineIgnoresTheI2cBus := by
  intro s₁ s₂ t₁ t₂ h₁ h₂ hr₁ hr₂ hs₁ hs₂ hcfg hcec htx htimer hsync haddr hmonitor htaken
  have hin : cecInputs s₁ = cecInputs s₂ := by
    simp only [cecInputs, hcfg, hcec, htx, htimer, hsync, haddr, hmonitor, htaken]
  obtain ⟨a₁, ha₁, hc₁⟩ := step_cecEngine h₁ hr₁ hs₁
  obtain ⟨a₂, ha₂, hc₂⟩ := step_cecEngine h₂ hr₂ hs₂
  have hacc : cecOutputs a₁ = cecOutputs a₂ := by
    rw [ha₁, ha₂, cecOutputs_background, hin, ← cecOutputs_background]
  exact cecOutputs_eq_iff.1 (cecEngine_factors.agree hin hacc hc₁ hc₂)

end Sys2Proof.Machine
end

section
/-! SUPPORT. The other direction: the I2C engine with its dispatcher reads of the CEC side CEC_KEEP and TX_PENDING alone
(45 R277, R278; 44 R252, R253). -/

namespace Sys2Proof.Machine

/-! ### What the I2C engine reads and what it alone writes (45 R278, R282) -/

/-- What the I2C engine and the dispatcher read, the rest at its reset value. -/
def i2cInputs (s : State) : State :=
  { State.resetWith s.cfg with
    i2c := s.i2c, win := s.win, shared := s.shared
    sync := { (State.resetWith s.cfg).sync with scl := s.sync.scl, sda := s.sync.sda }
    cec := { (State.resetWith s.cfg).cec with keep := s.cec.keep }
    tx := { (State.resetWith s.cfg).tx with pending := s.tx.pending } }

/-- What the I2C engine and the dispatcher alone write, the rest at its reset value. -/
def i2cOutputs (a : State) : State :=
  { State.reset with
    i2c := a.i2c, win := a.win
    shared := { State.reset.shared with cecAddr := a.shared.cecAddr, monitor := a.shared.monitor } }

theorem i2cOutputs_eq_iff {a b : State} : i2cOutputs a = i2cOutputs b ↔
    a.i2c = b.i2c ∧ a.win = b.win ∧ a.shared.cecAddr = b.shared.cecAddr ∧ a.shared.monitor = b.shared.monitor := by
  simp [i2cOutputs, and_assoc, and_comm, and_left_comm]

@[simp] theorem i2cInputs_cfg (s : State) : (i2cInputs s).cfg = s.cfg := rfl
@[simp] theorem i2cInputs_i2c (s : State) : (i2cInputs s).i2c = s.i2c := rfl
@[simp] theorem i2cInputs_keep (s : State) : (i2cInputs s).cec.keep = s.cec.keep := rfl

@[simp] theorem sendRefused_i2cInputs (s : State) : sendRefused (i2cInputs s) = sendRefused s := rfl
@[simp] theorem readOut_i2cInputs (s : State) (n : BitVec 5) : readOut (i2cInputs s) n = readOut s n := rfl
@[simp] theorem i2cStrobe_i2cInputs (s : State) : i2cStrobe (i2cInputs s) = i2cStrobe s := rfl
@[simp] theorem fetchI2cOn_i2cInputs (st : I2cStrobe) (s : State) : fetchI2cOn st (i2cInputs s) = fetchI2cOn st s := rfl

/-! ### Address bytes and read bytes (43) -/

theorem addressCycle_i2cOutputs (x : BitVec 7) (r : Bool) (p a : State) :
    i2cOutputs (addressCycle x r p a) = i2cOutputs (addressCycle x r (i2cInputs p) (i2cOutputs a)) := by
  unfold addressCycle addressAck
  rw [i2cInputs_i2c]
  split_ifs <;> rfl

theorem applyAddrWrite_factors (x : BitVec 7) : FactorsThrough i2cInputs i2cOutputs (applyAddrWrite x) := by
  intro p a
  unfold applyAddrWrite
  rw [i2cInputs_i2c]
  split
  · exact congrArg Host.Outcome.next (addressCycle_i2cOutputs x false p a)
  · rfl
  · rfl

theorem applyAddrRead_factors (x : BitVec 7) : FactorsThrough i2cInputs i2cOutputs (applyAddrRead x) := by
  intro p a
  unfold applyAddrRead toRead
  rw [i2cInputs_i2c, readOut_i2cInputs]
  split
  · exact congrArg Host.Outcome.next (addressCycle_i2cOutputs x true p a)
  · split <;> rfl
  · rfl

theorem readClock_factors : FactorsThrough i2cInputs i2cOutputs readClock := by
  intro p a
  unfold readClock
  rw [i2cInputs_i2c]
  split_ifs <;> rfl

theorem applyReadByte_factors (m : Bool) : FactorsThrough i2cInputs i2cOutputs (applyReadByte m) := by
  intro p a
  unfold applyReadByte nextRead
  rw [i2cInputs_i2c, readOut_i2cInputs]
  split
  · split <;> rfl
  · exact readClock_factors p a
  · rfl
  · rfl

theorem betweenI2c_i2cOutputs (st : I2cStrobe) (p a : State) :
    i2cOutputs (betweenI2c st p a) = i2cOutputs (betweenI2c st (i2cInputs p) (i2cOutputs a)) := by
  unfold betweenI2c dataAck
  rw [i2cInputs_i2c]
  cases st with
  | start | stop => rfl
  | rise sda =>
    dsimp only
    split <;> rfl
  | fall =>
    dsimp only
    split
    · split
      · split <;> rfl
      · rfl
    · rfl
    · rfl

/-! ### Payload bytes (44) -/

theorem stagePayload_factors (b : Byte) : FactorsThrough i2cInputs i2cOutputs (stagePayload b) := by
  intro p a
  simp only [stagePayload]
  rw [i2cInputs_i2c, i2cInputs_keep, i2cInputs_cfg]
  split <;> rfl

theorem cecSendPayload_factors (b : Byte) : FactorsThrough i2cInputs i2cOutputs (cecSendPayload b) := by
  intro p a
  simp only [cecSendPayload]
  rw [sendRefused_i2cInputs]
  split <;> rfl

theorem applyAction_factors {c : Byte} {effect : Byte → State → State → Result}
    (he : ∀ b, FactorsThrough i2cInputs i2cOutputs (effect b)) (q : Option Byte) :
    FactorsThrough i2cInputs i2cOutputs (applyAction c effect q) := by
  cases q with
  | none => exact fun _ _ => rfl
  | some b => exact he b

theorem applyPayloadByte_factors (b : Byte) : FactorsThrough i2cInputs i2cOutputs (applyPayloadByte b) := by
  intro p a
  unfold applyPayloadByte
  rw [i2cInputs_i2c]
  split
  · exact stagePayload_factors b p a
  split
  · split
    · rfl
    split
    · exact cecSendPayload_factors b p a
    split
    · rfl
    split <;> rfl
  · rfl

/-! ### The I2C engine -/

theorem applyI2c_factors (i : Instr) : FactorsThrough i2cInputs i2cOutputs (applyI2c i) := by
  cases i with
  | stage q => exact applyAction_factors stagePayload_factors q
  | cecSend q => exact applyAction_factors cecSendPayload_factors q
  | setAddr q | monitorToggle q | softReset q => exact applyAction_factors (fun _ _ _ => rfl) q
  | payloadByte q => exact applyPayloadByte_factors q
  | addrWrite x => exact applyAddrWrite_factors x
  | addrRead x => exact applyAddrRead_factors x
  | readByte m => exact applyReadByte_factors m
  | _ => exact fun _ _ => rfl

theorem i2cOn_factors (st : I2cStrobe) : FactorsThrough i2cInputs i2cOutputs (i2cOn st) := by
  intro p a
  unfold i2cOn
  rw [fetchI2cOn_i2cInputs]
  split
  · exact applyI2c_factors _ p a
  · exact congrArg Host.Outcome.next (betweenI2c_i2cOutputs st p a)

theorem i2cEngine_factors : FactorsThrough i2cInputs i2cOutputs i2cEngine := by
  intro p a
  unfold i2cEngine
  rw [i2cStrobe_i2cInputs]
  split
  · exact i2cOn_factors _ p a
  · rfl

/-- The background of a cycle writes nothing of what the I2C engine writes. -/
theorem i2cOutputs_background (s : State) : i2cOutputs (background s) = i2cOutputs s := rfl

/-- The CEC engine writes nothing of what the I2C engine alone writes (45 R282). -/
theorem cecEngine_i2cOutputs {s a t : State} (h : cecEngine s a = .next t) : i2cOutputs t = i2cOutputs a := by
  have hframe := cecEngine_frame h
  exact i2cOutputs_eq_iff.2 ⟨hframe.i2c, hframe.win, hframe.cecAddr, hframe.monitor⟩

/-- In either order of the two engines a step with rst_n high is, in what the I2C engine writes, that engine's cycle over the
pre-state (45 R279). -/
theorem step_i2cEngine {s t : State} (h : step s = .next t) (hr : (currentSample s).rstN = true) :
    ∃ a u, i2cOutputs a = i2cOutputs s ∧ i2cEngine s a = .next u ∧ i2cOutputs t = i2cOutputs u := by
  obtain ⟨-, ⟨hlow, -⟩ | ⟨-, -, hcycle⟩⟩ := step_eq_next.1 h
  · exact absurd (hr.symm.trans hlow) (by decide)
  rcases cycle_eq_next hcycle with ⟨-, u, hi, hc⟩ | ⟨-, a, hc, hi⟩
  · exact ⟨background s, u, i2cOutputs_background s, hi, cecEngine_i2cOutputs hc⟩
  · exact ⟨a, t, (cecEngine_i2cOutputs hc).trans (i2cOutputs_background s), hi, rfl⟩

/-- Settles O21. The two states have one view as the I2C engine reads them, and its cycle factors through that view. -/
theorem i2cEngineIgnoresTheCecBus : Obligations.I2cEngineIgnoresTheCecBus := by
  intro s₁ s₂ t₁ t₂ h₁ h₂ hr₁ hr₂ hcfg hi2c hwin hshared hscl hsda hkeep hpending
  have hin : i2cInputs s₁ = i2cInputs s₂ := by
    simp only [i2cInputs, hcfg, hi2c, hwin, hshared, hscl, hsda, hkeep, hpending]
  obtain ⟨a₁, u₁, ha₁, hu₁, ht₁⟩ := step_i2cEngine h₁ hr₁
  obtain ⟨a₂, u₂, ha₂, hu₂, ht₂⟩ := step_i2cEngine h₂ hr₂
  have hacc : i2cOutputs a₁ = i2cOutputs a₂ := by
    rw [ha₁, ha₂]
    exact i2cOutputs_eq_iff.2 ⟨hi2c, hwin, by rw [hshared], by rw [hshared]⟩
  exact i2cOutputs_eq_iff.1 (ht₁.trans ((i2cEngine_factors.agree hin hacc hu₁ hu₂).trans ht₂.symm))

end Sys2Proof.Machine
end

section
/-! SUPPORT. What a clock edge does before any cycle runs: rst_n low resets, and an invalid configuration or an unused
encoding stops the step (70 R330, R334; 93 U11). -/

namespace Sys2Proof.Machine

/-! ### The reset edge (70 R330) -/

/-- A reset edge is SOFT_RESET's writes with the I2C engine and the synchronisers at reset too, which 44 R255 leaves out. -/
theorem hardReset_eq_softReset (s : State) :
    hardReset s = { softResetRegisters { s with sync := (State.resetWith s.cfg).sync, env := nextEnv s } with
      i2c := (State.resetWith s.cfg).i2c } := rfl

theorem flags_hardReset (s : State) : flags (hardReset s) = 0#8 := by simp [flags, State.resetWith]

/-- The numbers from 0x20 on are the I2C engine's, all at 0 after a reset, and from 0x30 on the synchronisers', all at 1. -/
theorem registerById_of_i2c_sync_reset {t : State} {c : Config} {id i v : Nat} (hi2c : t.i2c = (State.resetWith c).i2c)
    (hsync : t.sync = (State.resetWith c).sync) (hid : 0x20 ≤ id) (hv : registerById t id i = some v) :
    v = if 0x30 ≤ id then 1 else 0 := by
  unfold registerById at hv
  split at hv <;>
    simp [hi2c, hsync, State.resetWith, i2cStateCode, bitNat] at hid hv ⊢ <;>
    omega

/-- Every register after a reset edge, by its number (10 R42). -/
theorem registerById_hardReset {s : State} {id i v : Nat} (hv : registerById (hardReset s) id i = some v) :
    v = if id = 0x00 then 0xF else if 0x30 ≤ id then 1 else 0 := by
  by_cases hlow : id < 0x20
  · by_cases hflags : id = 0x0C
    · subst hflags
      simpa [registerById, flags_hardReset, eq_comm] using hv
    · rw [registerById_softReset (hardReset_eq_softReset s) hlow hflags hv, if_neg (by omega : ¬0x30 ≤ id)]
  · rw [registerById_of_i2c_sync_reset (hardReset_i2c s) (hardReset_sync s) (Nat.not_lt.1 hlow) hv,
      if_neg (by omega : ¬id = 0x00)]

/-- Settles O16. The step is the reset edge, and its state is at reset by the number of each register. -/
theorem resetEdgeSetsEveryRegister : Obligations.ResetEdgeSetsEveryRegister := fun s hv hr =>
  ⟨hardReset s, step_eq_next.2 ⟨hv, .inl ⟨hr, rfl⟩⟩, rfl, rfl, rfl, rfl, fun _ _ _ => registerById_hardReset⟩

/-! ### What stops a step (70 R334, 93 U11) -/

theorem step_of_invalid {s : State} (hv : ¬s.cfg.Valid) : step s = .refused .invalidConfiguration := if_neg hv

theorem step_of_unusedEncoding {s : State} {f : Fault} (hv : s.cfg.Valid) (hr : (currentSample s).rstN = true)
    (hu : unusedEncoding s = some f) : step s = .fault f := by
  simp only [step, clockEdge, if_pos hv, hr, if_true, hu]

/-- CEC_STATE is looked at first (log 13). -/
theorem unusedEncoding_of_cec {s : State} (h : 5 ≤ (cecStateCode s.cec.state).toNat) :
    unusedEncoding s = some .unusedCecState := by
  unfold unusedEncoding
  cases hc : s.cec.state with
  | unused5 | unused6 | unused7 => rfl
  | idle | rxWho | rxData | txStart | txBit => simp [hc, cecStateCode] at h

theorem unusedEncoding_of_i2c {s : State} (hcec : (cecStateCode s.cec.state).toNat < 5)
    (h : 9 ≤ (i2cStateCode s.i2c.state).toNat) : unusedEncoding s = some .unusedI2cState := by
  unfold unusedEncoding
  cases hc : s.cec.state with
  | unused5 | unused6 | unused7 => simp [hc, cecStateCode] at hcec
  | idle | rxWho | rxData | txStart | txBit =>
    cases hi : s.i2c.state <;> simp [hi, i2cStateCode] at h ⊢

/-! ### An unused READ_SEL (44 R241, log 13) -/

theorem readOut_unused {s : State} {p : BitVec 5} (hsel : 6 ≤ (readSelCode s.win.readSel).toNat)
    (hp : p.toNat < s.win.readLen.toNat) : readOut s p = .error .unusedReadSel := by
  simp only [readOut, Nat.not_le.2 hp, if_false]
  cases hs : s.win.readSel with
  | unused6 | unused7 => rfl
  | none | id | addr | taken | length | buffer => simp [hs, readSelCode] at hsel

/-- In a cycle without SOFT_RESET the I2C engine runs first, so that a fault of its row is the step's. -/
theorem step_of_i2cFault {s : State} {i : Instr} {f : Fault} (hv : s.cfg.Valid) (hr : (currentSample s).rstN = true)
    (hu : unusedEncoding s = none) (hi : fetchI2c s = some i) (hne : ∀ b, i ≠ .softReset (some b))
    (hf : applyI2c i s (background s) = .fault f) : step s = .fault f := by
  have hs : softResetNow s = false := Bool.eq_false_iff.2 fun h =>
    have ⟨b, hb⟩ := softResetNow_eq_true.1 h
    hne b (Option.some.inj (hi.symm.trans hb))
  rw [step_eq_cycle hv hr hu, cycle_of_no_softReset hs, i2cEngine_of_fetch hi, hf, andThen_fault]

theorem fetchI2c_firstLoad {s : State} (hst : i2cStrobe s = some .fall) (hs : s.i2c.state = .addrAck) (hrw : s.i2c.rw = true) :
    fetchI2c s = some (.addrRead (addressOf s.i2c.shift)) := by
  simp only [fetchI2c, hst, fetchI2cOn, hs, hrw, if_true]

theorem fetchI2c_nextLoad {s : State} (hst : i2cStrobe s = some .fall) (hs : s.i2c.state = .rdAcked) :
    fetchI2c s = some (.readByte false) := by
  simp only [fetchI2c, hst, fetchI2cOn, hs]

theorem applyAddrRead_of_error {s : State} {f : Fault} (hs : s.i2c.state = .addrAck) (hread : readOut s 0#5 = .error f)
    (a : BitVec 7) (acc : State) : applyAddrRead a s acc = .fault f := by
  simp only [applyAddrRead, hs, toRead, hread]

theorem applyReadByte_of_error {s : State} {f : Fault} (hs : s.i2c.state = .rdAcked)
    (hread : readOut s s.i2c.rdptr = .error f) (m : Bool) (acc : State) : applyReadByte m s acc = .fault f := by
  simp only [applyReadByte, hs, nextRead, hread]

/-- Settles O17. The configuration and the encodings are looked at before the cycle; a byte is loaded in two cycles, the
first one by ADDR_READ and a later one by READ_BYTE, and each reads the window. -/
theorem whatAStepStopsOn : Obligations.WhatAStepStopsOn := by
  refine ⟨fun _ => step_of_invalid, fun s hv hr => ⟨fun hcec => ?_, fun hcec hi2c => ?_⟩, fun _ _ => readOut_unused,
    fun s hv hr hu hsel hst hload => ?_⟩
  · exact step_of_unusedEncoding hv hr (unusedEncoding_of_cec hcec)
  · exact step_of_unusedEncoding hv hr (unusedEncoding_of_i2c hcec hi2c)
  · obtain ⟨hs, hrw, hlen⟩ | ⟨hs, hlen⟩ := hload
    · exact step_of_i2cFault hv hr hu (fetchI2c_firstLoad hst hs hrw) nofun
        (applyAddrRead_of_error hs (readOut_unused hsel hlen) _ _)
    · exact step_of_i2cFault hv hr hu (fetchI2c_nextLoad hst hs) nofun
        (applyReadByte_of_error hs (readOut_unused hsel hlen) _ _)

end Sys2Proof.Machine
end
